-- ==== Sys2Proof/Word.lean ====
section
/-! DEFINITION. The words of the machine and the numbers that name its registers. -/

namespace Sys2Proof

/-- A 32-bit word: a register's contents, the pc, an address, an instruction (rules R7, R21, R25). -/
abbrev Word := BitVec 32

/-- One byte of guest memory (rule R43). -/
abbrev Byte := BitVec 8

/-- The number of a general register, 0 to 31 (rules R21, R61). -/
abbrev RegIdx := Fin 32

/-- The index of a control and status register, 0x000 to 0xFFF (rules R36, R78). -/
abbrev CsrIdx := BitVec 12

end Sys2Proof
end

