-- ==== Sys2Proof/Machine/Flags.lean ====
section
/-! DEFINITION. The nucleus has no flag (rule R34). What stands in a flag's place is the comparator (rule R91): its truth
value goes to a branch of the same step, or as 0 or 1 into a general register, and is stored nowhere else. -/

namespace Sys2Proof.Machine

/-- The six conditions of rule R91. -/
inductive Cond where
  | eq | ne | lt | ge | ltu | geu
  deriving DecidableEq, Repr

/-- `Cmp(c, a, b)` (rule R91). -/
def cmp (c : Cond) (a b : Word) : Bool :=
  match c with
  | .eq => a == b
  | .ne => a != b
  | .lt => a.slt b
  | .ge => !a.slt b
  | .ltu => a.ult b
  | .geu => !a.ult b

/-- The comparator's answer as a register value: 0x00000001 or 0x00000000 (rule R91). -/
def truthWord (b : Bool) : Word := if b then 1#32 else 0#32

end Sys2Proof.Machine
end

