-- ==== Sys2Proof/Machine/Alu.lean ====
section
/-! DEFINITION. The ALU (rules R87 to R91): two 32-bit inputs, one 32-bit output, no state, no flag. -/

namespace Sys2Proof.Machine

/-- The ALU's operations (rule R87). -/
inductive AluOp where
  | add | sub | and | or | xor | sll | srl | sra | slt | sltu
  deriving DecidableEq, Repr

/-- The shift amount: the low five bits of the second operand (rule R90). -/
def shiftAmount (b : Word) : Nat := (b.extractLsb' 0 5).toNat

/-- `ALU(op, a, b)` (rules R88 to R91). -/
def alu (op : AluOp) (a b : Word) : Word :=
  match op with
  | .add => a + b
  | .sub => a - b
  | .and => a &&& b
  | .or => a ||| b
  | .xor => a ^^^ b
  | .sll => a <<< shiftAmount b
  | .srl => a >>> shiftAmount b
  | .sra => a.sshiftRight (shiftAmount b)
  | .slt => truthWord (cmp .lt a b)
  | .sltu => truthWord (cmp .ltu a b)

end Sys2Proof.Machine
end

