-- ==== Sys2Proof/Config.lean ====
section
/-! DEFINITION. What is fixed of the nucleus (rule R6) and the values that State.reset's launch names where the
spec leaves a launch parameter open. No rule leaves an instruction's result undefined, so there is no free value. -/

namespace Sys2Proof.Config

/-- `WINDOW_LO`, the lowest guest address (rules R6, R41). -/
def windowLo : Nat := 0x00020000

/-- `WINDOW_HI`, the highest guest address, inclusive (rules R6, R41). -/
def windowHi : Nat := 0x00FFFFFF

/-- What a byte of the window reads as that neither the image nor a store has written. DESIGN CHOICE, unsafe
(log 4): rule R38 says such a byte is unspecified. -/
def unlistedByte : Byte := 0x00#8

/-- The EBREAK word, one of the two halt words rule R149 recommends. -/
def ebreakWord : Word := 0x00100073#32

/-- The ECALL word, the other halt word rule R149 recommends. -/
def ecallWord : Word := 0x00000073#32

/-- `ENTRY_PC` of the launch that State.reset is. DESIGN CHOICE, unsafe (log 1): the bottom of the window. -/
def resetEntryPc : Word := 0x00020000#32

/-- `HALT_WORD` of the launch that State.reset is. DESIGN CHOICE, unsafe (log 3): rule R149 gives no default. -/
def resetHaltWord : Word := ebreakWord

end Sys2Proof.Config
end

