-- ==== Sys2Proof/Machine/State.lean ====
section
/-! DEFINITION. The state of the nucleus as plain data: everything rule R20 lists, and beside it, apart, the inputs of
rules R31 and R32 that the coming steps read. -/

namespace Sys2Proof.Machine

/-- The mode flag (rule R27). -/
inductive Mode where
  | user
  | supervisor
  deriving DecidableEq, Repr

/-- The kind of a memory access, carried into a rejection (rule R44). -/
inductive AccessKind where
  | fetch
  | load
  | store
  deriving DecidableEq, Repr

/-- The three fault kinds, and no other (rule R170). -/
inductive FaultKind where
  | outOfRangeAccess
  | illegalInstruction
  | illegalCsrAccess
  deriving DecidableEq, Repr

/-- The run status (rule R28). -/
inductive RunStatus where
  | running
  | halted
  | aborted
  deriving DecidableEq, Repr

/-- The Execution Result that the diagnostics latch holds (rule R29). A field that is not valid is absent. -/
inductive ExecutionResult where
  /-- a halt, with `exit_code` -/
  | halted (exitCode : Word)
  /-- an abort, with `fault_kind`, `fault_info`, `fault_pc` and, for a validator's rejection alone, `fault_access` -/
  | aborted (kind : FaultKind) (info : Word) (pc : Word) (access : Option AccessKind)
  deriving DecidableEq, Repr

/-- The bridge's state (rule R30). -/
inductive BridgeState where
  | idle
  | delegating
  deriving DecidableEq, Repr

/-- The Guest CPU State (rule R20): `x[1]` to `x[31]` (`x[0]` has no storage, rule R22), the pc and the mode flag.
Entry `k` of `regs` is `x[k + 1]`. -/
structure GuestCpu where
  regs : Vector Word 31
  pc : Word
  mode : Mode
  deriving DecidableEq, Repr

/-- Guest memory (rule R43): the bytes that differ from what an unlisted address reads as, by address. -/
abbrev Memory := List Host.Cell

/-- The canonical form: addresses strictly rising, and no entry that an unlisted address would read as. -/
abbrev Memory.wf (m : Memory) : Prop :=
  m.Pairwise (fun c d => c.1 < d.1) ∧ ∀ c ∈ m, c.2 ≠ Config.unlistedByte

/-- Every entry lies in the guest window: `M` has no other bytes (rules R41, R43). -/
abbrev Memory.confined (m : Memory) : Prop :=
  ∀ c ∈ m, Config.windowLo ≤ c.1 ∧ c.1 ≤ Config.windowHi

/-- An injected abort: `abort_kind` and `abort_info` of an asserted `abort_req` (rules R32, R187). -/
structure AbortRequest where
  kind : FaultKind
  info : Word
  deriving DecidableEq, Repr

/-- What one transition samples of the asynchronous inputs (rule R32). -/
structure Boundary where
  /-- `abort_req` at the head of the step -/
  abortReq : Option AbortRequest
  /-- how many polls in a row find `irq_pending` set, the handler returning from each (rule R183) -/
  delegations : Nat
  /-- after those, one more poll finds it set, and its handler has not returned when the transition ends -/
  handlerOut : Bool
  /-- `deleg_done`, read only by a transition that begins while `bridge = Delegating` -/
  delegDone : Bool
  deriving DecidableEq, Repr

/-- Nothing asserted. -/
def Boundary.quiet : Boundary := { abortReq := none, delegations := 0, handlerOut := false, delegDone := false }

/-- The arguments of one load event (rules R31, R200). `image` is `INIT_MEM` as the bytes the loader placed. -/
structure Launch where
  entryPc : Word
  initX : Vector Word 31
  initMode : Mode
  haltWord : Word
  image : List Host.Cell
  deriving DecidableEq, Repr

/-- The inputs of the nucleus, which rule R20 says are no state of it (log 6). -/
structure Inputs where
  /-- `HALT_WORD`, latched by the load event for the run (rules R31, R200) -/
  haltWord : Word
  /-- the samples the coming transitions take, next first; none left means nothing is asserted -/
  boundaries : List Boundary
  /-- the load events the loader/shell issues at the coming terminal states, next first (rule R175) -/
  loads : List Launch
  deriving DecidableEq, Repr

/-- The complete state (rule R20), with the inputs the coming steps read. -/
structure State where
  cpu : GuestCpu
  mem : Memory
  status : RunStatus
  result : Option ExecutionResult
  bridge : BridgeState
  /-- `sh_x[1..31]`, `sh_pc`, `sh_mode` (rule R30) -/
  shadow : GuestCpu
  inputs : Inputs
  deriving DecidableEq, Repr

/-- A reason of the model's own for stopping. There is none: a fault of the nucleus (rule R170) is the NEXT state that
rule R176 describes, and the spec calls nothing else a stop (log 10). -/
inductive Fault where
  deriving DecidableEq, Repr

/-- An instruction the model gives no meaning. -/
inductive Refusal where
  /-- raised by an arm of `exec` that has no meaning yet; no arm is left so (safe) -/
  | notModelled (mnemonic : String)
  deriving DecidableEq, Repr

/-- The machine right after reset, the load event (rules R38, R200), of the one launch that logs 1, 2 and 3 name. -/
def State.reset : State where
  cpu := { regs := Vector.replicate 31 0#32, pc := Config.resetEntryPc, mode := .user }
  mem := []
  status := .running
  result := none
  bridge := .idle
  shadow := { regs := Vector.replicate 31 0#32, pc := 0#32, mode := .user }
  inputs := { haltWord := Config.resetHaltWord, boundaries := [], loads := [] }

end Sys2Proof.Machine
end

