-- ==== Sys2Proof/Machine/Ops.lean ====
section
/-! DEFINITION. The named operations over registers and memory, the validator, the end of a run (`raise`, `halt`), the
load event and the two halves of a delegation. Every read and write of the state goes through these. -/

namespace Sys2Proof.Machine

/-! ### Registers and pc (rules R21, R22, R26) -/

/-- `x[i]`; `x[0]` reads as 0 (rule R22). -/
def GuestCpu.reg (c : GuestCpu) (r : RegIdx) : Word :=
  if h : r.val = 0 then 0#32 else c.regs[r.val - 1]'(by omega)

/-- `x[i] <- v`; discarded when `i = 0` (rule R22). -/
def GuestCpu.setReg (c : GuestCpu) (r : RegIdx) (v : Word) : GuestCpu :=
  if h : r.val = 0 then c else { c with regs := c.regs.set (r.val - 1) v (by omega) }

def State.readReg (s : State) (r : RegIdx) : Word := s.cpu.reg r

def State.writeReg (s : State) (r : RegIdx) (v : Word) : State := { s with cpu := s.cpu.setReg r v }

/-- `pc <- t`. -/
def State.setPc (s : State) (t : Word) : State := { s with cpu := { s.cpu with pc := t } }

/-- The address after this instruction, modulo 2^32 (rule R26). -/
def State.nextPc (s : State) : Word := alu .add s.cpu.pc 4#32

/-- `pc <- pc + 4`, how every instruction ends that is no taken transfer (rule R26). -/
def State.advance (s : State) : State := s.setPc s.nextPc

/-! ### Bytes of memory -/

def State.setMem (s : State) (m : Memory) : State := { s with mem := m }

/-- `M[a]`. -/
def Memory.read (m : Memory) (a : Nat) : Byte :=
  match m with
  | [] => Config.unlistedByte
  | c :: rest => if c.1 = a then c.2 else Memory.read rest a

/-- An entry for `a` in front of `rest`, unless it would say what an unlisted address reads as. -/
def Memory.entry (a : Nat) (v : Byte) (rest : Memory) : Memory :=
  if v = Config.unlistedByte then rest else (a, v) :: rest

/-- `M[a] <- v`, in canonical form. -/
def Memory.write (m : Memory) (a : Nat) (v : Byte) : Memory :=
  match m with
  | [] => Memory.entry a v []
  | c :: rest =>
    if a < c.1 then Memory.entry a v (c :: rest)
    else if a = c.1 then Memory.entry a v rest
    else c :: Memory.write rest a v

/-- `M[a + i] <- vs[i]` for every byte of the list. -/
def Memory.writeBytes (m : Memory) (a : Nat) : List Byte → Memory
  | [] => m
  | v :: vs => Memory.writeBytes (m.write a v) (a + 1) vs

/-! ### The validator (rules R44 to R47) -/

/-- The widths of an access (rule R53). -/
inductive AccessWidth where
  | byte | half | word
  deriving DecidableEq, Repr

/-- The width in bytes: 1, 2 or 4. -/
def AccessWidth.bytes : AccessWidth → Nat
  | .byte => 1
  | .half => 2
  | .word => 4

/-- The width in bits. -/
abbrev AccessWidth.bits : AccessWidth → Nat
  | .byte => 8
  | .half => 16
  | .word => 32

/-- `reject(kind, addr)`: a rejection carries the access kind and the first byte address (rules R44, R47). -/
structure Rejection where
  access : AccessKind
  addr : Word
  deriving DecidableEq, Repr

/-- `Confine(kind, addr, n)`: the whole span in the window, computed without wrap-around (rules R44, R45). -/
def confine (kind : AccessKind) (addr : Word) (n : AccessWidth) : Except Rejection Unit :=
  if Config.windowLo ≤ addr.toNat ∧ addr.toNat + n.bytes - 1 ≤ Config.windowHi then .ok ()
  else .error { access := kind, addr := addr }

/-- The `8n`-bit value at `a`, the byte at the lowest address in bits 7 to 0 (rules R48, R49). -/
def Memory.value (m : Memory) (a : Nat) : (n : AccessWidth) → BitVec n.bits
  | .byte => m.read a
  | .half => m.read (a + 1) ++ m.read a
  | .word => m.read (a + 3) ++ m.read (a + 2) ++ m.read (a + 1) ++ m.read a

/-- The bytes of an `8n`-bit value, lowest address first (rules R48, R50). -/
def littleEndian : (n : AccessWidth) → BitVec n.bits → List Byte
  | .byte, v => [v]
  | .half, v => [v.extractLsb' 0 8, v.extractLsb' 8 8]
  | .word, v => [v.extractLsb' 0 8, v.extractLsb' 8 8, v.extractLsb' 16 8, v.extractLsb' 24 8]

/-- `MemRead(kind, addr, n)` (rule R49). -/
def memRead (kind : AccessKind) (addr : Word) (n : AccessWidth) (s : State) : Except Rejection (BitVec n.bits) :=
  match confine kind addr n with
  | .ok () => .ok (s.mem.value addr.toNat n)
  | .error r => .error r

/-- `MemWrite(addr, n, v)`: all bytes or none (rules R46, R50). -/
def memWrite (addr : Word) (n : AccessWidth) (v : BitVec n.bits) (s : State) : Except Rejection State :=
  match confine .store addr n with
  | .ok () => .ok (s.setMem (s.mem.writeBytes addr.toNat (littleEndian n v)))
  | .error r => .error r

/-! ### The end of a run (rules R176, R177): taking a fault. No return from one exists (rule R179). -/

/-- `raise K(info)` (rules R9, R176): the latch and the status, and nothing else. -/
def raise (kind : FaultKind) (info : Word) (access : Option AccessKind) (s : State) : State :=
  { s with status := .aborted, result := some (.aborted kind info s.cpu.pc access) }

/-- The abort a rejection makes: OutOfRangeAccess at the access's first byte, with its kind (rules R47, R171). -/
def raiseRejection (r : Rejection) (s : State) : State := raise .outOfRangeAccess r.addr (some r.access) s

/-- `halt(x[10])`, then `pc <- pc + 4` (rules R149, R177). -/
def halt (s : State) : State :=
  { s with status := .halted, result := some (.halted (s.readReg 10)) }.advance

/-! ### The bridge (rule R184) -/

/-- The first half of `Delegate`: capture, and hand control to the host. -/
def capture (s : State) : State := { s with shadow := s.cpu, bridge := .delegating }

/-- The second half: the handler has returned; restore. -/
def restore (s : State) : State := { s with cpu := s.shadow, bridge := .idle }

/-! ### The load event (rule R200) -/

/-- The loader's bytes that lie in the window, the last one given for an address counting (log 8). -/
def Memory.ofImage (image : List Host.Cell) : Memory :=
  image.foldl (fun m c => if Config.windowLo ≤ c.1 ∧ c.1 ≤ Config.windowHi then m.write c.1 c.2 else m) []

/-- `Load(ENTRY_PC, INIT_X, INIT_MODE, HALT_WORD, INIT_MEM)` (rule R200). -/
def loadEvent (l : Launch) (s : State) : State :=
  { s with
    cpu := { regs := l.initX, pc := l.entryPc, mode := l.initMode }
    mem := Memory.ofImage l.image
    status := .running
    result := none
    bridge := .idle
    inputs := { s.inputs with haltWord := l.haltWord } }

end Sys2Proof.Machine
end

