-- ==== Sys2Proof/Machine/Operands.lean ====
section
/-! DEFINITION. The operand forms (rule R68): register, immediate, base plus immediate, pc plus immediate. An immediate
arrives as its 32-bit value, made by the decoder. -/

namespace Sys2Proof.Machine

/-- `ea = x[rs1] + imm`, modulo 2^32: the one addressing mode of loads and stores (rule R133). -/
def effectiveAddress (rs1 : RegIdx) (imm : Word) (s : State) : Word := alu .add (s.readReg rs1) imm

/-- `pc + imm`, modulo 2^32, with the pc of the instruction itself: AUIPC, JAL and the branches (rules R101, R122). -/
def pcRelative (imm : Word) (s : State) : Word := alu .add s.cpu.pc imm

/-- JALR's target: the sum with bit 0 cleared (rule R123). -/
def jalrTarget (rs1 : RegIdx) (imm : Word) (s : State) : Word :=
  alu .and (alu .add (s.readReg rs1) imm) 0xFFFFFFFE#32

/-- A shift-immediate's second ALU operand, `zext_32(shamt)` (rules R79, R108). -/
def shamtWord (shamt : BitVec 5) : Word := shamt.setWidth 32

/-- The value a store of `n` bytes takes from a register: its low `8n` bits (rules R139, R140, R141). -/
def storeValue (n : AccessWidth) (v : Word) : BitVec n.bits := v.setWidth n.bits

end Sys2Proof.Machine
end

