-- ==== Sys2Proof/Machine/Control.lean ====
section
/-! DEFINITION. The 8 control-transfer instructions (rules R121 to R131). No target is validated or aligned: an
out-of-window target is what the NEXT step's fetch faults on (rule R121). No delay slot. -/

namespace Sys2Proof.Machine

/-- `x[rd] <- pc + 4; pc <- target`: a jump that links; the link write is discarded when `rd = 0`. -/
def jumpAndLink (rd : RegIdx) (target : Word) (s : State) : Host.Outcome State Fault Refusal :=
  .next ((s.writeReg rd s.nextPc).setPc target)

/-- The pc after a branch: `pc + imm` when the condition holds, else `pc + 4` (rules R124 to R129). -/
def branchPc (c : Cond) (rs1 rs2 : RegIdx) (imm : Word) (s : State) : Word :=
  if cmp c (s.readReg rs1) (s.readReg rs2) then pcRelative imm s else s.nextPc

/-- A branch writes the pc and nothing else. -/
def branchOn (c : Cond) (rs1 rs2 : RegIdx) (imm : Word) (s : State) : Host.Outcome State Fault Refusal :=
  .next (s.setPc (branchPc c rs1 rs2 imm s))

/-- JAL (rule R122). -/
def execJal (rd : RegIdx) (imm : Word) (s : State) : Host.Outcome State Fault Refusal :=
  jumpAndLink rd (pcRelative imm s) s

/-- JALR (rule R123): the target comes from the old `x[rs1]`. -/
def execJalr (rd rs1 : RegIdx) (imm : Word) (s : State) : Host.Outcome State Fault Refusal :=
  jumpAndLink rd (jalrTarget rs1 imm s) s

/-- BEQ (rule R124). -/
def execBeq (rs1 rs2 : RegIdx) (imm : Word) (s : State) : Host.Outcome State Fault Refusal :=
  branchOn .eq rs1 rs2 imm s

/-- BNE (rule R125). -/
def execBne (rs1 rs2 : RegIdx) (imm : Word) (s : State) : Host.Outcome State Fault Refusal :=
  branchOn .ne rs1 rs2 imm s

/-- BLT (rule R126). -/
def execBlt (rs1 rs2 : RegIdx) (imm : Word) (s : State) : Host.Outcome State Fault Refusal :=
  branchOn .lt rs1 rs2 imm s

/-- BGE (rule R127). -/
def execBge (rs1 rs2 : RegIdx) (imm : Word) (s : State) : Host.Outcome State Fault Refusal :=
  branchOn .ge rs1 rs2 imm s

/-- BLTU (rule R128). -/
def execBltu (rs1 rs2 : RegIdx) (imm : Word) (s : State) : Host.Outcome State Fault Refusal :=
  branchOn .ltu rs1 rs2 imm s

/-- BGEU (rule R129). -/
def execBgeu (rs1 rs2 : RegIdx) (imm : Word) (s : State) : Host.Outcome State Fault Refusal :=
  branchOn .geu rs1 rs2 imm s

end Sys2Proof.Machine
end

