-- ==== Sys2Proof/Syntax.lean ====
section
/-! DEFINITION. The 46 instructions of the nucleus as data: one constructor per row of the opcode table (rule R70),
with the operand fields that rule R85 gives the decoded operation. -/

namespace Sys2Proof

/-- A decoded instruction (rule R85). An immediate is the 32-bit value of rule R68, so a term can hold a value that no
word encodes: `Instr.wf` (WellFormed.lean) says which terms are encodable. FENCE keeps the five fields it ignores, so
that a word can be had back from its instruction (log 14). -/
inductive Instr where
  -- integer computational (rules R100 to R120)
  | lui   (rd : RegIdx) (imm : Word)
  | auipc (rd : RegIdx) (imm : Word)
  | addi  (rd rs1 : RegIdx) (imm : Word)
  | slti  (rd rs1 : RegIdx) (imm : Word)
  | sltiu (rd rs1 : RegIdx) (imm : Word)
  | xori  (rd rs1 : RegIdx) (imm : Word)
  | ori   (rd rs1 : RegIdx) (imm : Word)
  | andi  (rd rs1 : RegIdx) (imm : Word)
  | slli  (rd rs1 : RegIdx) (shamt : BitVec 5)
  | srli  (rd rs1 : RegIdx) (shamt : BitVec 5)
  | srai  (rd rs1 : RegIdx) (shamt : BitVec 5)
  | add   (rd rs1 rs2 : RegIdx)
  | sub   (rd rs1 rs2 : RegIdx)
  | sll   (rd rs1 rs2 : RegIdx)
  | slt   (rd rs1 rs2 : RegIdx)
  | sltu  (rd rs1 rs2 : RegIdx)
  | xor   (rd rs1 rs2 : RegIdx)
  | srl   (rd rs1 rs2 : RegIdx)
  | sra   (rd rs1 rs2 : RegIdx)
  | or    (rd rs1 rs2 : RegIdx)
  | and   (rd rs1 rs2 : RegIdx)
  -- control transfer (rules R122 to R129)
  | jal   (rd : RegIdx) (imm : Word)
  | jalr  (rd rs1 : RegIdx) (imm : Word)
  | beq   (rs1 rs2 : RegIdx) (imm : Word)
  | bne   (rs1 rs2 : RegIdx) (imm : Word)
  | blt   (rs1 rs2 : RegIdx) (imm : Word)
  | bge   (rs1 rs2 : RegIdx) (imm : Word)
  | bltu  (rs1 rs2 : RegIdx) (imm : Word)
  | bgeu  (rs1 rs2 : RegIdx) (imm : Word)
  -- loads and stores (rules R134 to R141); a store's rs1 is the base, its rs2 the data
  | lb    (rd rs1 : RegIdx) (imm : Word)
  | lh    (rd rs1 : RegIdx) (imm : Word)
  | lw    (rd rs1 : RegIdx) (imm : Word)
  | lbu   (rd rs1 : RegIdx) (imm : Word)
  | lhu   (rd rs1 : RegIdx) (imm : Word)
  | sb    (rs1 rs2 : RegIdx) (imm : Word)
  | sh    (rs1 rs2 : RegIdx) (imm : Word)
  | sw    (rs1 rs2 : RegIdx) (imm : Word)
  -- system (rules R146 to R148)
  | fence (fm pred succ : BitVec 4) (rs1 rd : RegIdx)
  | ecall
  | ebreak
  -- CSR (rules R156 to R161)
  | csrrw  (rd : RegIdx) (csr : CsrIdx) (rs1 : RegIdx)
  | csrrs  (rd : RegIdx) (csr : CsrIdx) (rs1 : RegIdx)
  | csrrc  (rd : RegIdx) (csr : CsrIdx) (rs1 : RegIdx)
  | csrrwi (rd : RegIdx) (csr : CsrIdx) (uimm : Word)
  | csrrsi (rd : RegIdx) (csr : CsrIdx) (uimm : Word)
  | csrrci (rd : RegIdx) (csr : CsrIdx) (uimm : Word)
  deriving DecidableEq, Repr

/-- The mnemonics of the opcode table (rule R70), the name of an instruction without its operands. -/
inductive Mnemonic where
  | lui | auipc | addi | slti | sltiu | xori | ori | andi | slli | srli | srai
  | add | sub | sll | slt | sltu | xor | srl | sra | or | and
  | jal | jalr | beq | bne | blt | bge | bltu | bgeu
  | lb | lh | lw | lbu | lhu | sb | sh | sw
  | fence | ecall | ebreak
  | csrrw | csrrs | csrrc | csrrwi | csrrsi | csrrci
  deriving DecidableEq, Repr

/-- The row of the opcode table an instruction stands for. -/
def Instr.mnemonic : Instr → Mnemonic
  | .lui .. => .lui | .auipc .. => .auipc
  | .addi .. => .addi | .slti .. => .slti | .sltiu .. => .sltiu
  | .xori .. => .xori | .ori .. => .ori | .andi .. => .andi
  | .slli .. => .slli | .srli .. => .srli | .srai .. => .srai
  | .add .. => .add | .sub .. => .sub | .sll .. => .sll | .slt .. => .slt | .sltu .. => .sltu
  | .xor .. => .xor | .srl .. => .srl | .sra .. => .sra | .or .. => .or | .and .. => .and
  | .jal .. => .jal | .jalr .. => .jalr
  | .beq .. => .beq | .bne .. => .bne | .blt .. => .blt | .bge .. => .bge | .bltu .. => .bltu | .bgeu .. => .bgeu
  | .lb .. => .lb | .lh .. => .lh | .lw .. => .lw | .lbu .. => .lbu | .lhu .. => .lhu
  | .sb .. => .sb | .sh .. => .sh | .sw .. => .sw
  | .fence .. => .fence | .ecall => .ecall | .ebreak => .ebreak
  | .csrrw .. => .csrrw | .csrrs .. => .csrrs | .csrrc .. => .csrrc
  | .csrrwi .. => .csrrwi | .csrrsi .. => .csrrsi | .csrrci .. => .csrrci

/-- Is it one of the six instructions that the CSR interception unit handles (rules R86, R153)? -/
def Instr.isCsr : Instr → Bool
  | .csrrw .. | .csrrs .. | .csrrc .. | .csrrwi .. | .csrrsi .. | .csrrci .. => true
  | .lui .. | .auipc .. | .addi .. | .slti .. | .sltiu .. | .xori .. | .ori .. | .andi .. | .slli .. | .srli ..
  | .srai .. | .add .. | .sub .. | .sll .. | .slt .. | .sltu .. | .xor .. | .srl .. | .sra .. | .or .. | .and ..
  | .jal .. | .jalr .. | .beq .. | .bne .. | .blt .. | .bge .. | .bltu .. | .bgeu ..
  | .lb .. | .lh .. | .lw .. | .lbu .. | .lhu .. | .sb .. | .sh .. | .sw .. | .fence .. | .ecall | .ebreak => false

end Sys2Proof
end

