-- ==== Sys2Proof/WellFormed.lean ====
section
/-! DEFINITION. Which instruction terms the encoding can spell: the range of each 32-bit operand value (rules R68, R78). -/

namespace Sys2Proof

/-- `v` is the sign extension of its low `n` bits. -/
def fitsSigned (n : Nat) (v : Word) : Bool := (v.setWidth n).signExtend 32 == v

/-- `imm_I` and `imm_S`: a sign-extended 12-bit value, -2048 to 2047 (rule R68). -/
def fitsImm12 (v : Word) : Bool := fitsSigned 12 v

/-- `imm_B`: a sign-extended 13-bit value whose bit 0 is 0, -4096 to 4094 (rule R68). -/
def fitsBranch (v : Word) : Bool := fitsSigned 13 v && !v.getLsbD 0

/-- `imm_J`: a sign-extended 21-bit value whose bit 0 is 0, -1048576 to 1048574 (rule R68). -/
def fitsJump (v : Word) : Bool := fitsSigned 21 v && !v.getLsbD 0

/-- `imm_U`: the low 12 bits are zero (rule R68). -/
def fitsUpper (v : Word) : Bool := v.setWidth 12 == 0#12

/-- `uimm`: a zero-extended 5-bit value, 0 to 31 (rule R78). -/
def fitsUimm (v : Word) : Bool := (v.setWidth 5).setWidth 32 == v

/-- Every operand of the term is a value its format can encode. -/
def Instr.wf : Instr → Bool
  | .lui _ imm | .auipc _ imm => fitsUpper imm
  | .addi _ _ imm | .slti _ _ imm | .sltiu _ _ imm | .xori _ _ imm | .ori _ _ imm | .andi _ _ imm => fitsImm12 imm
  | .slli .. | .srli .. | .srai .. => true
  | .add .. | .sub .. | .sll .. | .slt .. | .sltu .. | .xor .. | .srl .. | .sra .. | .or .. | .and .. => true
  | .jal _ imm => fitsJump imm
  | .jalr _ _ imm => fitsImm12 imm
  | .beq _ _ imm | .bne _ _ imm | .blt _ _ imm | .bge _ _ imm | .bltu _ _ imm | .bgeu _ _ imm => fitsBranch imm
  | .lb _ _ imm | .lh _ _ imm | .lw _ _ imm | .lbu _ _ imm | .lhu _ _ imm => fitsImm12 imm
  | .sb _ _ imm | .sh _ _ imm | .sw _ _ imm => fitsImm12 imm
  | .fence .. | .ecall | .ebreak => true
  | .csrrw .. | .csrrs .. | .csrrc .. => true
  | .csrrwi _ _ uimm | .csrrsi _ _ uimm | .csrrci _ _ uimm => fitsUimm uimm

end Sys2Proof
end

