-- ==== Sys2Proof/Decode.lean ====
section
/-! DEFINITION. The instruction encoding (30_encoding.md): the fields of a word, the decoder (total, refusing by name),
the encoder, and the opcode table of rule R70 as the data the decoder is held against. -/

namespace Sys2Proof

/-! ### Fields of an instruction word (rules R61, R78, R79) -/

def opcodeOf (w : Word) : BitVec 7 := w.extractLsb' 0 7
def rdOf (w : Word) : RegIdx := (w.extractLsb' 7 5).toFin
def funct3Of (w : Word) : BitVec 3 := w.extractLsb' 12 3
def rs1Of (w : Word) : RegIdx := (w.extractLsb' 15 5).toFin
def rs2Of (w : Word) : RegIdx := (w.extractLsb' 20 5).toFin
def funct7Of (w : Word) : BitVec 7 := w.extractLsb' 25 7
def shamtOf (w : Word) : BitVec 5 := w.extractLsb' 20 5
def csrOf (w : Word) : CsrIdx := w.extractLsb' 20 12

/-! ### Immediates (rule R68) -/

/-- `imm_I(w) = sext_32(w[31:20])`. -/
def immI (w : Word) : Word := (w.extractLsb' 20 12).signExtend 32

/-- `imm_S(w) = sext_32(w[31:25] ++ w[11:7])`. -/
def immS (w : Word) : Word := (w.extractLsb' 25 7 ++ w.extractLsb' 7 5 : BitVec 12).signExtend 32

/-- `imm_B(w) = sext_32(w[31] ++ w[7] ++ w[30:25] ++ w[11:8] ++ 0b0)`. -/
def immB (w : Word) : Word :=
  (w.extractLsb' 31 1 ++ w.extractLsb' 7 1 ++ w.extractLsb' 25 6 ++ w.extractLsb' 8 4 ++ 0#1 : BitVec 13).signExtend 32

/-- `imm_U(w) = w[31:12] ++ 0x000`. -/
def immU (w : Word) : Word := w.extractLsb' 12 20 ++ 0#12

/-- `imm_J(w) = sext_32(w[31] ++ w[19:12] ++ w[20] ++ w[30:21] ++ 0b0)`. -/
def immJ (w : Word) : Word :=
  (w.extractLsb' 31 1 ++ w.extractLsb' 12 8 ++ w.extractLsb' 20 1 ++ w.extractLsb' 21 10 ++ 0#1 : BitVec 21).signExtend 32

/-- `uimm = zext_32(w[19:15])` (rule R78). -/
def uimmOf (w : Word) : Word := (w.extractLsb' 15 5).setWidth 32

/-! ### The decoder (rules R69 to R72, in the nested form of rule R71) -/

/-- Why a word, or a run of bytes, is no instruction: the classes of rule R72. -/
inductive Illegal where
  /-- fewer than the four bytes of an instruction (rule R60) -/
  | truncated
  /-- `w[1:0]` is not 0b11: a compressed-instruction quadrant (rules R72, R73) -/
  | notThirtyTwoBit
  /-- a major opcode that rule R69 does not list -/
  | majorOpcode
  | jalrFunct3
  | branchFunct3
  | loadFunct3
  | storeFunct3
  | opImmFunct7
  | opFunct7
  | miscMemFunct3
  | systemFunct3
  /-- SYSTEM with funct3 000 that is neither the ECALL nor the EBREAK word (rule R151) -/
  | systemWord
  deriving DecidableEq, Repr

def decodeJalr (w : Word) : Except Illegal Instr :=
  if funct3Of w = 0b000#3 then .ok (.jalr (rdOf w) (rs1Of w) (immI w)) else .error .jalrFunct3

def decodeBranch (w : Word) : Except Illegal Instr :=
  if funct3Of w = 0b000#3 then .ok (.beq (rs1Of w) (rs2Of w) (immB w))
  else if funct3Of w = 0b001#3 then .ok (.bne (rs1Of w) (rs2Of w) (immB w))
  else if funct3Of w = 0b100#3 then .ok (.blt (rs1Of w) (rs2Of w) (immB w))
  else if funct3Of w = 0b101#3 then .ok (.bge (rs1Of w) (rs2Of w) (immB w))
  else if funct3Of w = 0b110#3 then .ok (.bltu (rs1Of w) (rs2Of w) (immB w))
  else if funct3Of w = 0b111#3 then .ok (.bgeu (rs1Of w) (rs2Of w) (immB w))
  else .error .branchFunct3

def decodeLoad (w : Word) : Except Illegal Instr :=
  if funct3Of w = 0b000#3 then .ok (.lb (rdOf w) (rs1Of w) (immI w))
  else if funct3Of w = 0b001#3 then .ok (.lh (rdOf w) (rs1Of w) (immI w))
  else if funct3Of w = 0b010#3 then .ok (.lw (rdOf w) (rs1Of w) (immI w))
  else if funct3Of w = 0b100#3 then .ok (.lbu (rdOf w) (rs1Of w) (immI w))
  else if funct3Of w = 0b101#3 then .ok (.lhu (rdOf w) (rs1Of w) (immI w))
  else .error .loadFunct3

def decodeStore (w : Word) : Except Illegal Instr :=
  if funct3Of w = 0b000#3 then .ok (.sb (rs1Of w) (rs2Of w) (immS w))
  else if funct3Of w = 0b001#3 then .ok (.sh (rs1Of w) (rs2Of w) (immS w))
  else if funct3Of w = 0b010#3 then .ok (.sw (rs1Of w) (rs2Of w) (immS w))
  else .error .storeFunct3

/-- OP-IMM; the shifts also need their `w[31:25]` (rule R79). -/
def decodeOpImm (w : Word) : Except Illegal Instr :=
  if funct3Of w = 0b000#3 then .ok (.addi (rdOf w) (rs1Of w) (immI w))
  else if funct3Of w = 0b010#3 then .ok (.slti (rdOf w) (rs1Of w) (immI w))
  else if funct3Of w = 0b011#3 then .ok (.sltiu (rdOf w) (rs1Of w) (immI w))
  else if funct3Of w = 0b100#3 then .ok (.xori (rdOf w) (rs1Of w) (immI w))
  else if funct3Of w = 0b110#3 then .ok (.ori (rdOf w) (rs1Of w) (immI w))
  else if funct3Of w = 0b111#3 then .ok (.andi (rdOf w) (rs1Of w) (immI w))
  else if funct3Of w = 0b001#3 ∧ funct7Of w = 0b0000000#7 then .ok (.slli (rdOf w) (rs1Of w) (shamtOf w))
  else if funct3Of w = 0b101#3 ∧ funct7Of w = 0b0000000#7 then .ok (.srli (rdOf w) (rs1Of w) (shamtOf w))
  else if funct3Of w = 0b101#3 ∧ funct7Of w = 0b0100000#7 then .ok (.srai (rdOf w) (rs1Of w) (shamtOf w))
  else .error .opImmFunct7

def decodeOp (w : Word) : Except Illegal Instr :=
  if funct7Of w = 0b0000000#7 then
    if funct3Of w = 0b000#3 then .ok (.add (rdOf w) (rs1Of w) (rs2Of w))
    else if funct3Of w = 0b001#3 then .ok (.sll (rdOf w) (rs1Of w) (rs2Of w))
    else if funct3Of w = 0b010#3 then .ok (.slt (rdOf w) (rs1Of w) (rs2Of w))
    else if funct3Of w = 0b011#3 then .ok (.sltu (rdOf w) (rs1Of w) (rs2Of w))
    else if funct3Of w = 0b100#3 then .ok (.xor (rdOf w) (rs1Of w) (rs2Of w))
    else if funct3Of w = 0b101#3 then .ok (.srl (rdOf w) (rs1Of w) (rs2Of w))
    else if funct3Of w = 0b110#3 then .ok (.or (rdOf w) (rs1Of w) (rs2Of w))
    else .ok (.and (rdOf w) (rs1Of w) (rs2Of w))
  else if funct7Of w = 0b0100000#7 then
    if funct3Of w = 0b000#3 then .ok (.sub (rdOf w) (rs1Of w) (rs2Of w))
    else if funct3Of w = 0b101#3 then .ok (.sra (rdOf w) (rs1Of w) (rs2Of w))
    else .error .opFunct7
  else .error .opFunct7

/-- MISC-MEM: FENCE with any `fm`, `pred`, `succ`, `rs1`, `rd` (rules R74, R146). -/
def decodeMiscMem (w : Word) : Except Illegal Instr :=
  if funct3Of w = 0b000#3 then
    .ok (.fence (w.extractLsb' 28 4) (w.extractLsb' 24 4) (w.extractLsb' 20 4) (rs1Of w) (rdOf w))
  else .error .miscMemFunct3

/-- SYSTEM: the two exact words (rules R147, R148, R151) and the six CSR forms (rule R78). -/
def decodeSystem (w : Word) : Except Illegal Instr :=
  if funct3Of w = 0b000#3 then
    if w = 0x00000073#32 then .ok .ecall
    else if w = 0x00100073#32 then .ok .ebreak
    else .error .systemWord
  else if funct3Of w = 0b001#3 then .ok (.csrrw (rdOf w) (csrOf w) (rs1Of w))
  else if funct3Of w = 0b010#3 then .ok (.csrrs (rdOf w) (csrOf w) (rs1Of w))
  else if funct3Of w = 0b011#3 then .ok (.csrrc (rdOf w) (csrOf w) (rs1Of w))
  else if funct3Of w = 0b101#3 then .ok (.csrrwi (rdOf w) (csrOf w) (uimmOf w))
  else if funct3Of w = 0b110#3 then .ok (.csrrsi (rdOf w) (csrOf w) (uimmOf w))
  else if funct3Of w = 0b111#3 then .ok (.csrrci (rdOf w) (csrOf w) (uimmOf w))
  else .error .systemFunct3

/-- `Decode(w)` (rules R71, R84): a function of the word alone, total, with the class of rule R72 for an illegal word. -/
def decode (w : Word) : Except Illegal Instr :=
  if opcodeOf w = 0b0110111#7 then .ok (.lui (rdOf w) (immU w))
  else if opcodeOf w = 0b0010111#7 then .ok (.auipc (rdOf w) (immU w))
  else if opcodeOf w = 0b1101111#7 then .ok (.jal (rdOf w) (immJ w))
  else if opcodeOf w = 0b1100111#7 then decodeJalr w
  else if opcodeOf w = 0b1100011#7 then decodeBranch w
  else if opcodeOf w = 0b0000011#7 then decodeLoad w
  else if opcodeOf w = 0b0100011#7 then decodeStore w
  else if opcodeOf w = 0b0010011#7 then decodeOpImm w
  else if opcodeOf w = 0b0110011#7 then decodeOp w
  else if opcodeOf w = 0b0001111#7 then decodeMiscMem w
  else if opcodeOf w = 0b1110011#7 then decodeSystem w
  else if w.extractLsb' 0 2 ≠ 0b11#2 then .error .notThirtyTwoBit
  else .error .majorOpcode

/-- The word whose byte at the lowest address is `b0`: an instruction is stored little-endian (rules R48, R60). -/
def wordOfBytes (b0 b1 b2 b3 : Byte) : Word := b3 ++ b2 ++ b1 ++ b0

/-- Decode the first instruction of a run of bytes, lowest address first, and give the bytes after it. -/
def decodeBytes : List Byte → Except Illegal (Instr × List Byte)
  | b0 :: b1 :: b2 :: b3 :: rest => (decode (wordOfBytes b0 b1 b2 b3)).map (·, rest)
  | _ => .error .truncated

/-! ### The encoder (formats R62 to R67) -/

def regBits (r : RegIdx) : BitVec 5 := BitVec.ofFin r

/-- Format R (rule R62). -/
def formatR (funct7 : BitVec 7) (rs2 rs1 : RegIdx) (funct3 : BitVec 3) (rd : RegIdx) (opcode : BitVec 7) : Word :=
  funct7 ++ regBits rs2 ++ regBits rs1 ++ funct3 ++ regBits rd ++ opcode

/-- Format I (rule R63): `imm12` is `w[31:20]`, the immediate's low 12 bits or a CSR index. -/
def formatI (imm12 : BitVec 12) (rs1 : BitVec 5) (funct3 : BitVec 3) (rd : RegIdx) (opcode : BitVec 7) : Word :=
  imm12 ++ rs1 ++ funct3 ++ regBits rd ++ opcode

/-- The shift-immediate form of format I (rule R79). -/
def formatShift (funct7 : BitVec 7) (shamt : BitVec 5) (rs1 : RegIdx) (funct3 : BitVec 3) (rd : RegIdx)
    (opcode : BitVec 7) : Word :=
  funct7 ++ shamt ++ regBits rs1 ++ funct3 ++ regBits rd ++ opcode

/-- Format S (rule R64). -/
def formatS (imm : Word) (rs2 rs1 : RegIdx) (funct3 : BitVec 3) (opcode : BitVec 7) : Word :=
  imm.extractLsb' 5 7 ++ regBits rs2 ++ regBits rs1 ++ funct3 ++ imm.extractLsb' 0 5 ++ opcode

/-- Format B (rule R65). -/
def formatB (imm : Word) (rs2 rs1 : RegIdx) (funct3 : BitVec 3) (opcode : BitVec 7) : Word :=
  imm.extractLsb' 12 1 ++ imm.extractLsb' 5 6 ++ regBits rs2 ++ regBits rs1 ++ funct3 ++ imm.extractLsb' 1 4
    ++ imm.extractLsb' 11 1 ++ opcode

/-- Format U (rule R66). -/
def formatU (imm : Word) (rd : RegIdx) (opcode : BitVec 7) : Word := imm.extractLsb' 12 20 ++ regBits rd ++ opcode

/-- Format J (rule R67). -/
def formatJ (imm : Word) (rd : RegIdx) (opcode : BitVec 7) : Word :=
  imm.extractLsb' 20 1 ++ imm.extractLsb' 1 10 ++ imm.extractLsb' 11 1 ++ imm.extractLsb' 12 8 ++ regBits rd ++ opcode

/-- The word of an instruction, from the rows of rule R70. -/
def encode : Instr → Word
  | .lui rd imm => formatU imm rd 0b0110111#7
  | .auipc rd imm => formatU imm rd 0b0010111#7
  | .addi rd rs1 imm => formatI (imm.setWidth 12) (regBits rs1) 0b000#3 rd 0b0010011#7
  | .slti rd rs1 imm => formatI (imm.setWidth 12) (regBits rs1) 0b010#3 rd 0b0010011#7
  | .sltiu rd rs1 imm => formatI (imm.setWidth 12) (regBits rs1) 0b011#3 rd 0b0010011#7
  | .xori rd rs1 imm => formatI (imm.setWidth 12) (regBits rs1) 0b100#3 rd 0b0010011#7
  | .ori rd rs1 imm => formatI (imm.setWidth 12) (regBits rs1) 0b110#3 rd 0b0010011#7
  | .andi rd rs1 imm => formatI (imm.setWidth 12) (regBits rs1) 0b111#3 rd 0b0010011#7
  | .slli rd rs1 shamt => formatShift 0b0000000#7 shamt rs1 0b001#3 rd 0b0010011#7
  | .srli rd rs1 shamt => formatShift 0b0000000#7 shamt rs1 0b101#3 rd 0b0010011#7
  | .srai rd rs1 shamt => formatShift 0b0100000#7 shamt rs1 0b101#3 rd 0b0010011#7
  | .add rd rs1 rs2 => formatR 0b0000000#7 rs2 rs1 0b000#3 rd 0b0110011#7
  | .sub rd rs1 rs2 => formatR 0b0100000#7 rs2 rs1 0b000#3 rd 0b0110011#7
  | .sll rd rs1 rs2 => formatR 0b0000000#7 rs2 rs1 0b001#3 rd 0b0110011#7
  | .slt rd rs1 rs2 => formatR 0b0000000#7 rs2 rs1 0b010#3 rd 0b0110011#7
  | .sltu rd rs1 rs2 => formatR 0b0000000#7 rs2 rs1 0b011#3 rd 0b0110011#7
  | .xor rd rs1 rs2 => formatR 0b0000000#7 rs2 rs1 0b100#3 rd 0b0110011#7
  | .srl rd rs1 rs2 => formatR 0b0000000#7 rs2 rs1 0b101#3 rd 0b0110011#7
  | .sra rd rs1 rs2 => formatR 0b0100000#7 rs2 rs1 0b101#3 rd 0b0110011#7
  | .or rd rs1 rs2 => formatR 0b0000000#7 rs2 rs1 0b110#3 rd 0b0110011#7
  | .and rd rs1 rs2 => formatR 0b0000000#7 rs2 rs1 0b111#3 rd 0b0110011#7
  | .jal rd imm => formatJ imm rd 0b1101111#7
  | .jalr rd rs1 imm => formatI (imm.setWidth 12) (regBits rs1) 0b000#3 rd 0b1100111#7
  | .beq rs1 rs2 imm => formatB imm rs2 rs1 0b000#3 0b1100011#7
  | .bne rs1 rs2 imm => formatB imm rs2 rs1 0b001#3 0b1100011#7
  | .blt rs1 rs2 imm => formatB imm rs2 rs1 0b100#3 0b1100011#7
  | .bge rs1 rs2 imm => formatB imm rs2 rs1 0b101#3 0b1100011#7
  | .bltu rs1 rs2 imm => formatB imm rs2 rs1 0b110#3 0b1100011#7
  | .bgeu rs1 rs2 imm => formatB imm rs2 rs1 0b111#3 0b1100011#7
  | .lb rd rs1 imm => formatI (imm.setWidth 12) (regBits rs1) 0b000#3 rd 0b0000011#7
  | .lh rd rs1 imm => formatI (imm.setWidth 12) (regBits rs1) 0b001#3 rd 0b0000011#7
  | .lw rd rs1 imm => formatI (imm.setWidth 12) (regBits rs1) 0b010#3 rd 0b0000011#7
  | .lbu rd rs1 imm => formatI (imm.setWidth 12) (regBits rs1) 0b100#3 rd 0b0000011#7
  | .lhu rd rs1 imm => formatI (imm.setWidth 12) (regBits rs1) 0b101#3 rd 0b0000011#7
  | .sb rs1 rs2 imm => formatS imm rs2 rs1 0b000#3 0b0100011#7
  | .sh rs1 rs2 imm => formatS imm rs2 rs1 0b001#3 0b0100011#7
  | .sw rs1 rs2 imm => formatS imm rs2 rs1 0b010#3 0b0100011#7
  | .fence fm pred succ rs1 rd => formatI (fm ++ pred ++ succ) (regBits rs1) 0b000#3 rd 0b0001111#7
  | .ecall => 0x00000073#32
  | .ebreak => 0x00100073#32
  | .csrrw rd csr rs1 => formatI csr (regBits rs1) 0b001#3 rd 0b1110011#7
  | .csrrs rd csr rs1 => formatI csr (regBits rs1) 0b010#3 rd 0b1110011#7
  | .csrrc rd csr rs1 => formatI csr (regBits rs1) 0b011#3 rd 0b1110011#7
  | .csrrwi rd csr uimm => formatI csr (uimm.setWidth 5) 0b101#3 rd 0b1110011#7
  | .csrrsi rd csr uimm => formatI csr (uimm.setWidth 5) 0b110#3 rd 0b1110011#7
  | .csrrci rd csr uimm => formatI csr (uimm.setWidth 5) 0b111#3 rd 0b1110011#7

/-- Byte `i` of a word, byte 0 the least significant. -/
def byteOf (w : Word) (i : Nat) : Byte := w.extractLsb' (8 * i) 8

/-- The four bytes of a word, lowest address first (rule R48). -/
def bytesOfWord (w : Word) : List Byte := [byteOf w 0, byteOf w 1, byteOf w 2, byteOf w 3]

/-- The instruction the decoder reads from an opcode-table word of `nbits` bits: the word's four bytes as the hardware
stores them (rule R60), given to `decodeBytes`. -/
def decodeTableWord (nbits w : Nat) : Option Instr :=
  match decodeBytes (bytesOfWord (BitVec.ofNat 32 (w % 2 ^ nbits))) with
  | .ok (i, _) => some i
  | .error _ => none

/-! ### The opcode table (rule R70) -/

/-- One row of rule R70: `w` is the instruction iff `(w AND mask) = pattern`. -/
structure OpcodeRow where
  mnemonic : Mnemonic
  pattern : Word
  mask : Word
  deriving DecidableEq, Repr

def OpcodeRow.isRowOf (row : OpcodeRow) (w : Word) : Bool := w &&& row.mask == row.pattern

def opcodeRowsUJ : List OpcodeRow :=
  [⟨.lui, 0x00000037, 0x0000007F⟩, ⟨.auipc, 0x00000017, 0x0000007F⟩, ⟨.jal, 0x0000006F, 0x0000007F⟩,
   ⟨.jalr, 0x00000067, 0x0000707F⟩]

def opcodeRowsBranch : List OpcodeRow :=
  [⟨.beq, 0x00000063, 0x0000707F⟩, ⟨.bne, 0x00001063, 0x0000707F⟩, ⟨.blt, 0x00004063, 0x0000707F⟩,
   ⟨.bge, 0x00005063, 0x0000707F⟩, ⟨.bltu, 0x00006063, 0x0000707F⟩, ⟨.bgeu, 0x00007063, 0x0000707F⟩]

def opcodeRowsMemory : List OpcodeRow :=
  [⟨.lb, 0x00000003, 0x0000707F⟩, ⟨.lh, 0x00001003, 0x0000707F⟩, ⟨.lw, 0x00002003, 0x0000707F⟩,
   ⟨.lbu, 0x00004003, 0x0000707F⟩, ⟨.lhu, 0x00005003, 0x0000707F⟩, ⟨.sb, 0x00000023, 0x0000707F⟩,
   ⟨.sh, 0x00001023, 0x0000707F⟩, ⟨.sw, 0x00002023, 0x0000707F⟩]

def opcodeRowsOpImm : List OpcodeRow :=
  [⟨.addi, 0x00000013, 0x0000707F⟩, ⟨.slti, 0x00002013, 0x0000707F⟩, ⟨.sltiu, 0x00003013, 0x0000707F⟩,
   ⟨.xori, 0x00004013, 0x0000707F⟩, ⟨.ori, 0x00006013, 0x0000707F⟩, ⟨.andi, 0x00007013, 0x0000707F⟩,
   ⟨.slli, 0x00001013, 0xFE00707F⟩, ⟨.srli, 0x00005013, 0xFE00707F⟩, ⟨.srai, 0x40005013, 0xFE00707F⟩]

def opcodeRowsOp : List OpcodeRow :=
  [⟨.add, 0x00000033, 0xFE00707F⟩, ⟨.sub, 0x40000033, 0xFE00707F⟩, ⟨.sll, 0x00001033, 0xFE00707F⟩,
   ⟨.slt, 0x00002033, 0xFE00707F⟩, ⟨.sltu, 0x00003033, 0xFE00707F⟩, ⟨.xor, 0x00004033, 0xFE00707F⟩,
   ⟨.srl, 0x00005033, 0xFE00707F⟩, ⟨.sra, 0x40005033, 0xFE00707F⟩, ⟨.or, 0x00006033, 0xFE00707F⟩,
   ⟨.and, 0x00007033, 0xFE00707F⟩]

def opcodeRowsSystem : List OpcodeRow :=
  [⟨.fence, 0x0000000F, 0x0000707F⟩, ⟨.ecall, 0x00000073, 0xFFFFFFFF⟩, ⟨.ebreak, 0x00100073, 0xFFFFFFFF⟩,
   ⟨.csrrw, 0x00001073, 0x0000707F⟩, ⟨.csrrs, 0x00002073, 0x0000707F⟩, ⟨.csrrc, 0x00003073, 0x0000707F⟩,
   ⟨.csrrwi, 0x00005073, 0x0000707F⟩, ⟨.csrrsi, 0x00006073, 0x0000707F⟩, ⟨.csrrci, 0x00007073, 0x0000707F⟩]

/-- The 46 rows of rule R70. -/
def opcodeTable : List OpcodeRow :=
  opcodeRowsUJ ++ opcodeRowsBranch ++ opcodeRowsMemory ++ opcodeRowsOpImm ++ opcodeRowsOp ++ opcodeRowsSystem

end Sys2Proof
end

