-- ==== Sys2Proof/Machine/Csr.lean ====
section
/-! DEFINITION. The CSR interception unit (rules R153 to R155) and the six CSR instructions (rules R156 to R161). The unit
has no storage; the mode alone decides. -/

namespace Sys2Proof.Machine

/-- `CsrRead(c)`: 0 in user mode for every index; otherwise it raises, here `none` (rule R154). -/
def csrRead (_c : CsrIdx) (s : State) : Option Word :=
  match s.cpu.mode with
  | .user => some 0x00000000#32
  | .supervisor => none

/-- `CsrWrite(c, v)`: discarded in user mode, no state changes; otherwise it raises, here `none` (rule R155). -/
def csrWrite (_c : CsrIdx) (_v : Word) (s : State) : Option State :=
  match s.cpu.mode with
  | .user => some s
  | .supervisor => none

/-- The common body of the six: read, write the value `update` makes of what was read, then `x[rd] <- ` the value read.
`w` is the instruction word, which the abort reports (rules R155, R173). -/
def csrOperation (w : Word) (rd : RegIdx) (c : CsrIdx) (update : Word → Word) (s : State) :
    Host.Outcome State Fault Refusal :=
  match csrRead c s with
  | none => .next (raise .illegalCsrAccess w none s)
  | some old =>
    match csrWrite c (update old) s with
    | none => .next (raise .illegalCsrAccess w none s)
    | some t => .next (t.writeReg rd old).advance

/-- CSRRW (rule R156). -/
def execCsrrw (rd : RegIdx) (csr : CsrIdx) (rs1 : RegIdx) (s : State) : Host.Outcome State Fault Refusal :=
  csrOperation (encode (.csrrw rd csr rs1)) rd csr (fun _ => s.readReg rs1) s

/-- CSRRS (rule R157). -/
def execCsrrs (rd : RegIdx) (csr : CsrIdx) (rs1 : RegIdx) (s : State) : Host.Outcome State Fault Refusal :=
  csrOperation (encode (.csrrs rd csr rs1)) rd csr (fun old => old ||| s.readReg rs1) s

/-- CSRRC (rule R158). -/
def execCsrrc (rd : RegIdx) (csr : CsrIdx) (rs1 : RegIdx) (s : State) : Host.Outcome State Fault Refusal :=
  csrOperation (encode (.csrrc rd csr rs1)) rd csr (fun old => old &&& ~~~s.readReg rs1) s

/-- CSRRWI (rule R159). -/
def execCsrrwi (rd : RegIdx) (csr : CsrIdx) (uimm : Word) (s : State) : Host.Outcome State Fault Refusal :=
  csrOperation (encode (.csrrwi rd csr uimm)) rd csr (fun _ => uimm) s

/-- CSRRSI (rule R160). -/
def execCsrrsi (rd : RegIdx) (csr : CsrIdx) (uimm : Word) (s : State) : Host.Outcome State Fault Refusal :=
  csrOperation (encode (.csrrsi rd csr uimm)) rd csr (fun old => old ||| uimm) s

/-- CSRRCI (rule R161). -/
def execCsrrci (rd : RegIdx) (csr : CsrIdx) (uimm : Word) (s : State) : Host.Outcome State Fault Refusal :=
  csrOperation (encode (.csrrci rd csr uimm)) rd csr (fun old => old &&& ~~~uimm) s

end Sys2Proof.Machine
end

