-- ==== Sys2Proof/Machine/Integer.lean ====
section
/-! DEFINITION. The 21 integer computational instructions (rules R100 to R120). Sources are read before `rd` is written
(rule R21), a write to `x0` is discarded (rule R22), none can raise anything, and each ends with `pc <- pc + 4`. -/

namespace Sys2Proof.Machine

/-- `x[rd] <- v; pc <- pc + 4`: the shape of every instruction of this file. -/
def writeResult (rd : RegIdx) (v : Word) (s : State) : Host.Outcome State Fault Refusal :=
  .next (s.writeReg rd v).advance

/-! ### Upper immediates -/

/-- LUI (rule R100). -/
def execLui (rd : RegIdx) (imm : Word) (s : State) : Host.Outcome State Fault Refusal := writeResult rd imm s

/-- AUIPC (rule R101): the pc is the address of the AUIPC itself. -/
def execAuipc (rd : RegIdx) (imm : Word) (s : State) : Host.Outcome State Fault Refusal :=
  writeResult rd (pcRelative imm s) s

/-! ### Register and immediate -/

/-- ADDI (rule R102). -/
def execAddi (rd rs1 : RegIdx) (imm : Word) (s : State) : Host.Outcome State Fault Refusal :=
  writeResult rd (alu .add (s.readReg rs1) imm) s

/-- SLTI (rule R103), signed. -/
def execSlti (rd rs1 : RegIdx) (imm : Word) (s : State) : Host.Outcome State Fault Refusal :=
  writeResult rd (alu .slt (s.readReg rs1) imm) s

/-- SLTIU (rule R104): the sign-extended immediate, compared unsigned. -/
def execSltiu (rd rs1 : RegIdx) (imm : Word) (s : State) : Host.Outcome State Fault Refusal :=
  writeResult rd (alu .sltu (s.readReg rs1) imm) s

/-- XORI (rule R105). -/
def execXori (rd rs1 : RegIdx) (imm : Word) (s : State) : Host.Outcome State Fault Refusal :=
  writeResult rd (alu .xor (s.readReg rs1) imm) s

/-- ORI (rule R106). -/
def execOri (rd rs1 : RegIdx) (imm : Word) (s : State) : Host.Outcome State Fault Refusal :=
  writeResult rd (alu .or (s.readReg rs1) imm) s

/-- ANDI (rule R107). -/
def execAndi (rd rs1 : RegIdx) (imm : Word) (s : State) : Host.Outcome State Fault Refusal :=
  writeResult rd (alu .and (s.readReg rs1) imm) s

/-- SLLI (rule R108). -/
def execSlli (rd rs1 : RegIdx) (shamt : BitVec 5) (s : State) : Host.Outcome State Fault Refusal :=
  writeResult rd (alu .sll (s.readReg rs1) (shamtWord shamt)) s

/-- SRLI (rule R109). -/
def execSrli (rd rs1 : RegIdx) (shamt : BitVec 5) (s : State) : Host.Outcome State Fault Refusal :=
  writeResult rd (alu .srl (s.readReg rs1) (shamtWord shamt)) s

/-- SRAI (rule R110). -/
def execSrai (rd rs1 : RegIdx) (shamt : BitVec 5) (s : State) : Host.Outcome State Fault Refusal :=
  writeResult rd (alu .sra (s.readReg rs1) (shamtWord shamt)) s

/-! ### Register and register -/

/-- ADD (rule R111). -/
def execAdd (rd rs1 rs2 : RegIdx) (s : State) : Host.Outcome State Fault Refusal :=
  writeResult rd (alu .add (s.readReg rs1) (s.readReg rs2)) s

/-- SUB (rule R112). -/
def execSub (rd rs1 rs2 : RegIdx) (s : State) : Host.Outcome State Fault Refusal :=
  writeResult rd (alu .sub (s.readReg rs1) (s.readReg rs2)) s

/-- SLL (rule R113). -/
def execSll (rd rs1 rs2 : RegIdx) (s : State) : Host.Outcome State Fault Refusal :=
  writeResult rd (alu .sll (s.readReg rs1) (s.readReg rs2)) s

/-- SLT (rule R114). -/
def execSlt (rd rs1 rs2 : RegIdx) (s : State) : Host.Outcome State Fault Refusal :=
  writeResult rd (alu .slt (s.readReg rs1) (s.readReg rs2)) s

/-- SLTU (rule R115). -/
def execSltu (rd rs1 rs2 : RegIdx) (s : State) : Host.Outcome State Fault Refusal :=
  writeResult rd (alu .sltu (s.readReg rs1) (s.readReg rs2)) s

/-- XOR (rule R116). -/
def execXor (rd rs1 rs2 : RegIdx) (s : State) : Host.Outcome State Fault Refusal :=
  writeResult rd (alu .xor (s.readReg rs1) (s.readReg rs2)) s

/-- SRL (rule R117). -/
def execSrl (rd rs1 rs2 : RegIdx) (s : State) : Host.Outcome State Fault Refusal :=
  writeResult rd (alu .srl (s.readReg rs1) (s.readReg rs2)) s

/-- SRA (rule R118). -/
def execSra (rd rs1 rs2 : RegIdx) (s : State) : Host.Outcome State Fault Refusal :=
  writeResult rd (alu .sra (s.readReg rs1) (s.readReg rs2)) s

/-- OR (rule R119). -/
def execOr (rd rs1 rs2 : RegIdx) (s : State) : Host.Outcome State Fault Refusal :=
  writeResult rd (alu .or (s.readReg rs1) (s.readReg rs2)) s

/-- AND (rule R120). -/
def execAnd (rd rs1 rs2 : RegIdx) (s : State) : Host.Outcome State Fault Refusal :=
  writeResult rd (alu .and (s.readReg rs1) (s.readReg rs2)) s

end Sys2Proof.Machine
end

