-- ==== Sys2Proof/Machine/LoadStore.lean ====
section
/-! DEFINITION. The 8 load and store instructions (rules R133 to R142). The access is validated before anything is read
or written; a rejection aborts with nothing done (rule R142). No alignment is asked for (rule R51). -/

namespace Sys2Proof.Machine

/-- A load of width `n`, its value widened by `extend`. A load into `x0` is validated all the same (rule R142). -/
def loadInto (n : AccessWidth) (extend : BitVec n.bits → Word) (rd rs1 : RegIdx) (imm : Word) (s : State) :
    Host.Outcome State Fault Refusal :=
  match memRead .load (effectiveAddress rs1 imm s) n s with
  | .ok v => .next (s.writeReg rd (extend v)).advance
  | .error r => .next (raiseRejection r s)

/-- A store of the low `8n` bits of `x[rs2]`. -/
def storeFrom (n : AccessWidth) (rs1 rs2 : RegIdx) (imm : Word) (s : State) : Host.Outcome State Fault Refusal :=
  match memWrite (effectiveAddress rs1 imm s) n (storeValue n (s.readReg rs2)) s with
  | .ok t => .next t.advance
  | .error r => .next (raiseRejection r s)

/-- LB (rule R134). -/
def execLb (rd rs1 : RegIdx) (imm : Word) (s : State) : Host.Outcome State Fault Refusal :=
  loadInto .byte (·.signExtend 32) rd rs1 imm s

/-- LH (rule R135). -/
def execLh (rd rs1 : RegIdx) (imm : Word) (s : State) : Host.Outcome State Fault Refusal :=
  loadInto .half (·.signExtend 32) rd rs1 imm s

/-- LW (rule R136). -/
def execLw (rd rs1 : RegIdx) (imm : Word) (s : State) : Host.Outcome State Fault Refusal :=
  loadInto .word id rd rs1 imm s

/-- LBU (rule R137). -/
def execLbu (rd rs1 : RegIdx) (imm : Word) (s : State) : Host.Outcome State Fault Refusal :=
  loadInto .byte (·.setWidth 32) rd rs1 imm s

/-- LHU (rule R138). -/
def execLhu (rd rs1 : RegIdx) (imm : Word) (s : State) : Host.Outcome State Fault Refusal :=
  loadInto .half (·.setWidth 32) rd rs1 imm s

/-- SB (rule R139). -/
def execSb (rs1 rs2 : RegIdx) (imm : Word) (s : State) : Host.Outcome State Fault Refusal :=
  storeFrom .byte rs1 rs2 imm s

/-- SH (rule R140). -/
def execSh (rs1 rs2 : RegIdx) (imm : Word) (s : State) : Host.Outcome State Fault Refusal :=
  storeFrom .half rs1 rs2 imm s

/-- SW (rule R141). -/
def execSw (rs1 rs2 : RegIdx) (imm : Word) (s : State) : Host.Outcome State Fault Refusal :=
  storeFrom .word rs1 rs2 imm s

end Sys2Proof.Machine
end

