-- ==== Sys2Proof/Machine/System.lean ====
section
/-! DEFINITION. FENCE, ECALL and EBREAK (rules R146 to R148), reached only when their word is not the halt word
(rule R149). -/

namespace Sys2Proof.Machine

/-- FENCE (rules R57, R146): a no-op for every value of its five fields. -/
def execFence (_fm _pred _succ : BitVec 4) (_rs1 _rd : RegIdx) (s : State) : Host.Outcome State Fault Refusal :=
  .next s.advance

/-- ECALL (rules R147, R150): the unimplemented service-call point; its effect is the abort. -/
def execEcall (s : State) : Host.Outcome State Fault Refusal :=
  .next (raise .illegalInstruction Config.ecallWord none s)

/-- EBREAK (rule R148): no debugger exists; its effect is the abort. -/
def execEbreak (s : State) : Host.Outcome State Fault Refusal :=
  .next (raise .illegalInstruction Config.ebreakWord none s)

end Sys2Proof.Machine
end

