-- ==== Sys2Proof/Machine/Engine.lean ====
section
/-! DEFINITION. The step of rule R81 in its order: the instruction boundary (injected abort, interrupt poll and
delegation), the fetch, the halt recognition, the decode, the execution; and what happens while a handler is out and
after the run has ended. -/

namespace Sys2Proof.Machine

/-! ### Parts 3 to 6: fetch, halt, decode, execute -/

/-- Part 3: `w <- MemRead(fetch, pc, 4)` (rules R82, R58: from the memory as it is now). -/
def fetchWord (s : State) : Except Rejection Word := memRead .fetch s.cpu.pc .word s

/-- Parts 4 to 6 on a fetched word (rules R83, R72, R86). -/
def executeWord (w : Word) (s : State) : Host.Outcome State Fault Refusal :=
  if w = s.inputs.haltWord then .next (halt s)
  else
    match decode w with
    | .ok i => exec i s
    | .error _ => .next (raise .illegalInstruction w none s)

/-- Parts 3 to 6. -/
def fetchExecute (s : State) : Host.Outcome State Fault Refusal :=
  match fetchWord s with
  | .ok w => executeWord w s
  | .error r => .next (raiseRejection r s)

/-! ### Parts 1 and 2: the instruction boundary -/

/-- The sample this transition takes; nothing is asserted once the list is used up (log 6). -/
def State.sample (s : State) : Boundary := s.inputs.boundaries.headD Boundary.quiet

/-- The state with that sample taken. -/
def State.afterSample (s : State) : State :=
  { s with inputs := { s.inputs with boundaries := s.inputs.boundaries.tail } }

/-- A delegation whose handler returns: capture, then restore (rule R184). -/
def delegate (s : State) : State := restore (capture s)

/-- Part 2, `while irq_pending do Delegate`, for `k` polls in a row that find it set (rules R81, R183). -/
def delegateTimes : Nat → State → State
  | 0, s => s
  | k + 1, s => delegateTimes k (delegate s)

/-- How a transition leaves the boundary: it goes on to its fetch, or it ends there. -/
inductive BoundaryExit where
  | fetches (s : State)
  | ends (s : State)
  deriving DecidableEq, Repr

/-- Part 2: the poll. It ends the transition when a handler is still out (rule R184, log 7). -/
def poll (b : Boundary) (s : State) : BoundaryExit :=
  if b.handlerOut then .ends (capture (delegateTimes b.delegations s)) else .fetches (delegateTimes b.delegations s)

/-- Part 1: the injected abort, sampled before the poll (rule R187). -/
def headOfStep (b : Boundary) (s : State) : BoundaryExit :=
  match b.abortReq with
  | some a => .ends (raise a.kind a.info none s)
  | none => poll b s

/-- While a handler is out the nucleus takes no step: it waits for `deleg_done`, then restores and polls again
(rules R30, R183, R184). -/
def handlerOut (b : Boundary) (s : State) : BoundaryExit :=
  if b.delegDone then poll b (restore s) else .ends s

/-- The boundary at the head of a transition of a running nucleus. -/
def boundary (s : State) : BoundaryExit :=
  match s.bridge with
  | .idle => headOfStep s.sample s.afterSample
  | .delegating => handlerOut s.sample s.afterSample

/-! ### The whole transition -/

/-- One transition while `status = Running`. -/
def runningStep (s : State) : Host.Outcome State Fault Refusal :=
  match boundary s with
  | .fetches t => fetchExecute t
  | .ends t => .next t

/-- In a terminal state nothing changes until the loader's next load event (rules R175, R178, R202; log 8). -/
def terminalStep (s : State) : State :=
  match s.inputs.loads with
  | [] => s
  | l :: rest => loadEvent l { s with inputs := { s.inputs with loads := rest } }

/-- One transition of the machine. -/
def runStep (s : State) : Host.Outcome State Fault Refusal :=
  match s.status with
  | .running => runningStep s
  | .halted => .next (terminalStep s)
  | .aborted => .next (terminalStep s)

/-! ### Placing an instruction -/

/-- A halt word that is not `w`: the machine's own, or the other of the two that rule R149 recommends. -/
def haltWordBeside (w h : Word) : Word :=
  if h = w then (if w = Config.ebreakWord then Config.ecallWord else Config.ebreakWord) else h

/-- The word's bytes at the pc, when the fetch there is one the validator accepts. -/
def withWordAtPc (s : State) (w : Word) : State :=
  match memWrite s.cpu.pc .word w s with
  | .ok t => t
  | .error _ => s

/-- What the loader does so that the next transition fetches `w` and runs it: its bytes at the pc, a running nucleus
with nothing asserted, and a halt word that does not shadow it (rules R83, R149, R203; log 12). -/
def placeWord (s : State) (w : Word) : State :=
  { withWordAtPc s w with
    status := .running
    result := none
    bridge := .idle
    inputs := { s.inputs with haltWord := haltWordBeside w s.inputs.haltWord, boundaries := [] } }

end Sys2Proof.Machine
end

