-- ==== Sys2Proof/Machine/Step.lean ====
section
/-! DEFINITION. The step of the machine, and a state made ready to run one instruction. -/

namespace Sys2Proof.Machine

/-- One transition (rules R10, R81): a whole instruction, or what stands in its place when the run is over or a handler
is out. -/
def step (s : State) : Host.Outcome State Fault Refusal := runStep s

/-- `s` with the instruction of an opcode-table word stored where `step` fetches (log 12). -/
def State.withFetchWord (s : State) (nbits w : Nat) : State := placeWord s (BitVec.ofNat 32 (w % 2 ^ nbits))

end Sys2Proof.Machine
end

