-- ==== Sys2Proof/Machine/Ports.lean ====
section
/-! DEFINITION. The ports of the nucleus (rule R33) as functions of its state: the result ports with the numeric codes of
rules R28 and R29, the delegation request, and the accesses a transition drives on the memory port (rule R94), each with
the data that guest memory answers. -/

namespace Sys2Proof.Machine

/-! ### Numeric codes (rules R27, R28, R29, R174). The machine uses the enumerations; only the ports use the numbers. -/

/-- Port `init_mode`. -/
def Mode.code : Mode → BitVec 1
  | .user => 0#1
  | .supervisor => 1#1

/-- Port `status`. -/
def RunStatus.code : RunStatus → BitVec 2
  | .running => 0#2
  | .halted => 1#2
  | .aborted => 2#2

/-- Port `fault_kind` of a fault; 0 is none. -/
def FaultKind.code : FaultKind → BitVec 2
  | .outOfRangeAccess => 1#2
  | .illegalInstruction => 2#2
  | .illegalCsrAccess => 3#2

/-- Port `fault_access`, with the numbers of rule R29 (decision D14). DESIGN CHOICE (log 19): for the port `mem_kind`
rule R33 gives two bits and no numbers, and the model takes the same ones. -/
def AccessKind.code : AccessKind → BitVec 2
  | .fetch => 0#2
  | .load => 1#2
  | .store => 2#2

/-! ### The result ports. A port whose value is not valid for the status is absent (rule R29). -/

structure ResultPorts where
  status : BitVec 2
  exitCode : Option Word
  faultKind : Option (BitVec 2)
  faultInfo : Option Word
  faultPc : Option Word
  faultAccess : Option (BitVec 2)
  deriving DecidableEq, Repr

def resultPorts (s : State) : ResultPorts :=
  match s.result with
  | none => ⟨s.status.code, none, none, none, none, none⟩
  | some (.halted code) => ⟨s.status.code, some code, none, none, none, none⟩
  | some (.aborted kind info pc access) =>
    ⟨s.status.code, none, some kind.code, some info, some pc, access.map AccessKind.code⟩

/-- Port `deleg_req`: asserted while the host's handler has control (rule R184). -/
def delegReq (s : State) : Bool := s.bridge == .delegating

/-! ### The memory port -/

/-- What the nucleus puts out for one access: `mem_kind`, `mem_addr`, `mem_width` and, for a store, `mem_wdata`. Kind and
width are the enumerations: rule R33 numbers neither (log 19). -/
structure AccessRequest where
  kind : AccessKind
  addr : Word
  width : AccessWidth
  wdata : Option Word
  deriving DecidableEq, Repr

/-- One access on the memory port: the request and, for a fetch or a load, `mem_rdata`. -/
structure PortAccess extends AccessRequest where
  rdata : Option Word
  deriving DecidableEq, Repr

/-- `mem_rdata`: what guest memory answers a fetch or a load, in the low `8 × width` bits; a store reads nothing.
DESIGN CHOICE (log 19): it has zeros above the width, of which rule R33 says nothing. -/
def AccessRequest.readData (r : AccessRequest) (m : Memory) : Option Word :=
  match r.kind with
  | .fetch | .load => some ((m.value r.addr.toNat r.width).setWidth 32)
  | .store => none

/-- The access on the port, answered from memory as it is (rules R37, R58). -/
def AccessRequest.answered (r : AccessRequest) (m : Memory) : PortAccess := { r with rdata := r.readData m }

/-- The request of the fetch at the pc (rule R82). -/
def fetchRequest (s : State) : AccessRequest := ⟨.fetch, s.cpu.pc, .word, none⟩

/-- The data access an instruction asks the validator for: the loads and the stores, one each (rule R94). DESIGN CHOICE
(log 19): `mem_wdata` has zeros above the width, of which rule R33 says nothing. -/
def dataAccess (i : Instr) (s : State) : Option AccessRequest :=
  match i with
  | .lb _ rs1 imm | .lbu _ rs1 imm => some ⟨.load, effectiveAddress rs1 imm s, .byte, none⟩
  | .lh _ rs1 imm | .lhu _ rs1 imm => some ⟨.load, effectiveAddress rs1 imm s, .half, none⟩
  | .lw _ rs1 imm => some ⟨.load, effectiveAddress rs1 imm s, .word, none⟩
  | .sb rs1 rs2 imm =>
    some ⟨.store, effectiveAddress rs1 imm s, .byte, some ((storeValue .byte (s.readReg rs2)).setWidth 32)⟩
  | .sh rs1 rs2 imm =>
    some ⟨.store, effectiveAddress rs1 imm s, .half, some ((storeValue .half (s.readReg rs2)).setWidth 32)⟩
  | .sw rs1 rs2 imm => some ⟨.store, effectiveAddress rs1 imm s, .word, some (s.readReg rs2)⟩
  | .lui .. | .auipc .. | .addi .. | .slti .. | .sltiu .. | .xori .. | .ori .. | .andi .. | .slli .. | .srli ..
  | .srai .. | .add .. | .sub .. | .sll .. | .slt .. | .sltu .. | .xor .. | .srl .. | .sra .. | .or .. | .and ..
  | .jal .. | .jalr .. | .beq .. | .bne .. | .blt .. | .bge .. | .bltu .. | .bgeu .. | .fence .. | .ecall | .ebreak
  | .csrrw .. | .csrrs .. | .csrrc .. | .csrrwi .. | .csrrsi .. | .csrrci .. => none

/-- The validator stands before the port: an access it rejects is not driven (rules R33, R46). -/
def driven (r : AccessRequest) (s : State) : List PortAccess :=
  match confine r.kind r.addr r.width with
  | .ok () => [r.answered s.mem]
  | .error _ => []

/-- The data access of a fetched word; a halt word and an illegal word have none. -/
def wordAccesses (w : Word) (s : State) : List PortAccess :=
  if w = s.inputs.haltWord then []
  else
    match decode w with
    | .ok i =>
      match dataAccess i s with
      | some r => driven r s
      | none => []
    | .error _ => []

/-- The accesses of parts 3 to 6 of a step, in order. -/
def fetchAccesses (s : State) : List PortAccess :=
  match fetchWord s with
  | .ok w => (fetchRequest s).answered s.mem :: wordAccesses w s
  | .error _ => []

/-- The accesses that the transition from `s` drives on the memory port, in order (rules R33, R94). -/
def memoryPort (s : State) : List PortAccess :=
  match s.status with
  | .running =>
    match boundary s with
    | .fetches t => fetchAccesses t
    | .ends _ => []
  | .halted => []
  | .aborted => []

end Sys2Proof.Machine
end

