-- ==== Sys2Proof/Safety.lean ====
section
/-! DEFINITION. The terms that claims about the nucleus are stated in: what a transition keeps, the effects a rule gives,
which transitions reach their fetch, and the invariant of the machine. -/

namespace Sys2Proof

/-! ### Instructions and words -/

/-- The instruction's operands are the fields of the word, per its row's format (rules R61 to R68, R78, R79). -/
def Instr.hasFieldsOf (i : Instr) (w : Word) : Prop :=
  match i with
  | .lui rd imm | .auipc rd imm => rd = rdOf w ∧ imm = immU w
  | .addi rd rs1 imm | .slti rd rs1 imm | .sltiu rd rs1 imm | .xori rd rs1 imm | .ori rd rs1 imm | .andi rd rs1 imm
  | .jalr rd rs1 imm | .lb rd rs1 imm | .lh rd rs1 imm | .lw rd rs1 imm | .lbu rd rs1 imm | .lhu rd rs1 imm =>
    rd = rdOf w ∧ rs1 = rs1Of w ∧ imm = immI w
  | .slli rd rs1 shamt | .srli rd rs1 shamt | .srai rd rs1 shamt => rd = rdOf w ∧ rs1 = rs1Of w ∧ shamt = shamtOf w
  | .add rd rs1 rs2 | .sub rd rs1 rs2 | .sll rd rs1 rs2 | .slt rd rs1 rs2 | .sltu rd rs1 rs2 | .xor rd rs1 rs2
  | .srl rd rs1 rs2 | .sra rd rs1 rs2 | .or rd rs1 rs2 | .and rd rs1 rs2 =>
    rd = rdOf w ∧ rs1 = rs1Of w ∧ rs2 = rs2Of w
  | .jal rd imm => rd = rdOf w ∧ imm = immJ w
  | .beq rs1 rs2 imm | .bne rs1 rs2 imm | .blt rs1 rs2 imm | .bge rs1 rs2 imm | .bltu rs1 rs2 imm
  | .bgeu rs1 rs2 imm => rs1 = rs1Of w ∧ rs2 = rs2Of w ∧ imm = immB w
  | .sb rs1 rs2 imm | .sh rs1 rs2 imm | .sw rs1 rs2 imm => rs1 = rs1Of w ∧ rs2 = rs2Of w ∧ imm = immS w
  | .fence fm pred succ rs1 rd =>
    fm = w.extractLsb' 28 4 ∧ pred = w.extractLsb' 24 4 ∧ succ = w.extractLsb' 20 4 ∧ rs1 = rs1Of w ∧ rd = rdOf w
  | .ecall | .ebreak => True
  | .csrrw rd csr rs1 | .csrrs rd csr rs1 | .csrrc rd csr rs1 => rd = rdOf w ∧ csr = csrOf w ∧ rs1 = rs1Of w
  | .csrrwi rd csr uimm | .csrrsi rd csr uimm | .csrrci rd csr uimm => rd = rdOf w ∧ csr = csrOf w ∧ uimm = uimmOf w

end Sys2Proof

namespace Sys2Proof.Machine

/-! ### Frames -/

/-- Every byte of memory reads as before. -/
def SameMemory (s t : State) : Prop := ∀ a, t.mem.read a = s.mem.read a

/-- Every general register reads as before. -/
def SameRegs (s t : State) : Prop := ∀ r, t.readReg r = s.readReg r

/-- Everything but the general registers, the pc and memory is as before: the mode, the run status and the latch, the
bridge with its shadow, and the inputs still to come. -/
def KeepsControl (s t : State) : Prop :=
  t.cpu.mode = s.cpu.mode ∧ t.status = s.status ∧ t.result = s.result ∧ t.bridge = s.bridge ∧ t.shadow = s.shadow ∧
    t.inputs = s.inputs

/-! ### Effects -/

/-- Register `rd` reads as `v`, unless it is `x0`; every other register reads as before (rule R22). -/
def WritesReg (rd : RegIdx) (v : Word) (s t : State) : Prop :=
  ∀ r, t.readReg r = if r = rd ∧ r ≠ 0 then v else s.readReg r

/-- `x[rd] <- v; pc <- target`, and nothing else. -/
def RegResult (rd : RegIdx) (v target : Word) (s t : State) : Prop :=
  WritesReg rd v s t ∧ t.cpu.pc = target ∧ SameMemory s t ∧ KeepsControl s t

/-- `pc <- target`, and nothing else. -/
def PcResult (target : Word) (s t : State) : Prop :=
  t.cpu.pc = target ∧ SameRegs s t ∧ SameMemory s t ∧ KeepsControl s t

/-- The instruction completes with `x[rd] <- v s; pc <- pc + 4` from every state, and does nothing else. -/
def ComputesInto (i : Instr) (rd : RegIdx) (v : State → Word) : Prop :=
  ∀ s, ∃ t, exec i s = .next t ∧ RegResult rd (v s) (s.cpu.pc + 4#32) s t

/-- The abort of rule R176: the latch and the status are written, everything else is as it was. -/
def Aborts (kind : FaultKind) (info : Word) (access : Option AccessKind) (s t : State) : Prop :=
  t.status = .aborted ∧ t.result = some (.aborted kind info s.cpu.pc access) ∧ t.cpu = s.cpu ∧ t.mem = s.mem ∧
    t.bridge = s.bridge ∧ t.shadow = s.shadow ∧ t.inputs = s.inputs

/-- Byte `k` of the low bytes of a word (rule R48). -/
def byteOfWord (v : Word) (k : Nat) : Byte := v.extractLsb' (8 * k) 8

/-- The `n` bytes at `addr` hold the low bytes of `v`, lowest first, and every other byte reads as before (rule R50). -/
def StoresBytes (addr : Word) (n : AccessWidth) (v : Word) (s t : State) : Prop :=
  ∀ a, t.mem.read a =
    if addr.toNat ≤ a ∧ a < addr.toNat + n.bytes then byteOfWord v (a - addr.toNat) else s.mem.read a

/-- The validator accepts the access (rule R44). -/
def Accepted (kind : AccessKind) (addr : Word) (n : AccessWidth) : Prop := confine kind addr n = .ok ()

/-- An address of the guest window (rule R41). -/
def InWindow (a : Nat) : Prop := Config.windowLo ≤ a ∧ a ≤ Config.windowHi

/-! ### Effects of one shape -/

/-- A branch to `pc + imm` when `c` holds, else to `pc + 4`, that does nothing else. -/
def BranchesOn (i : Instr) (imm : Word) (c : State → Prop) : Prop :=
  ∀ s : State,
    (c s → ∃ t, exec i s = .next t ∧ PcResult (alu .add s.cpu.pc imm) s t) ∧
    (¬ c s → ∃ t, exec i s = .next t ∧ PcResult (s.cpu.pc + 4#32) s t)

/-- A load that gives `x[rd]` the value `v` reads when the validator accepts its span, and aborts otherwise. -/
def LoadsValue (i : Instr) (rd rs1 : RegIdx) (imm : Word) (n : AccessWidth) (v : Memory → Nat → Word) : Prop :=
  ∀ s : State,
    (Accepted .load (alu .add (s.readReg rs1) imm) n → ∃ t, exec i s = .next t ∧
      RegResult rd (v s.mem (alu .add (s.readReg rs1) imm).toNat) (s.cpu.pc + 4#32) s t) ∧
    (¬ Accepted .load (alu .add (s.readReg rs1) imm) n → ∃ t, exec i s = .next t ∧
      Aborts .outOfRangeAccess (alu .add (s.readReg rs1) imm) (some .load) s t)

/-- A store of the low bytes of `x[rs2]` when the validator accepts its span, that aborts otherwise; the address stored
to is the one rule R133 computes from the state before. -/
def StoresValue (i : Instr) (rs1 rs2 : RegIdx) (imm : Word) (n : AccessWidth) : Prop :=
  ∀ s : State,
    (Accepted .store (alu .add (s.readReg rs1) imm) n → s.mem.wf → ∃ t, exec i s = .next t ∧
      StoresBytes (alu .add (s.readReg rs1) imm) n (s.readReg rs2) s t ∧ t.cpu.pc = s.cpu.pc + 4#32 ∧
      SameRegs s t ∧ KeepsControl s t) ∧
    (¬ Accepted .store (alu .add (s.readReg rs1) imm) n → ∃ t, exec i s = .next t ∧
      Aborts .outOfRangeAccess (alu .add (s.readReg rs1) imm) (some .store) s t)

/-- The common rule of the CSR instructions: in user mode `x[rd] <- 0`, in supervisor mode the abort, which reports the
instruction's word. -/
def CsrStub (i : Instr) (rd : RegIdx) : Prop :=
  ∀ s : State,
    (s.cpu.mode = .user → ∃ t, exec i s = .next t ∧ RegResult rd 0#32 (s.cpu.pc + 4#32) s t) ∧
    (s.cpu.mode = .supervisor → ∃ t, exec i s = .next t ∧ Aborts .illegalCsrAccess (encode i) none s t)

/-! ### The data access an instruction drives -/

/-- From every state the instruction asks for one access: a load of `n` bytes at the address rule R133 computes. -/
def DrivesLoad (i : Instr) (rs1 : RegIdx) (imm : Word) (n : AccessWidth) : Prop :=
  ∀ s : State, dataAccess i s = some ⟨.load, alu .add (s.readReg rs1) imm, n, none⟩

/-- From every state the instruction asks for one access: a store of `n` bytes at the address rule R133 computes, whose
data has the bytes of `x[rs2]` in its low `n` bytes (rule R33; what stands above them is log 19). -/
def DrivesStore (i : Instr) (rs1 rs2 : RegIdx) (imm : Word) (n : AccessWidth) : Prop :=
  ∀ s : State, ∃ d : Word, dataAccess i s = some ⟨.store, alu .add (s.readReg rs1) imm, n, some d⟩ ∧
    ∀ k < n.bytes, byteOfWord d k = byteOfWord (s.readReg rs2) k

/-! ### The accesses on the memory port -/

/-- The fetch at the pc on the port, with the word `w` as its read data (rules R33, R82). -/
def FetchOnPort (s : State) (w : Word) : PortAccess := ⟨⟨.fetch, s.cpu.pc, .word, none⟩, some w⟩

/-- The access's read data: of a fetch or a load, the bytes of its span in memory `m`, lowest address lowest, in the low
bytes (rules R33, R48; what stands above them is log 19); of a store, none. -/
def ReadsFrom (m : Memory) (p : PortAccess) : Prop :=
  (p.kind ≠ .store → ∃ d : Word, p.rdata = some d ∧ ∀ k < p.width.bytes, byteOfWord d k = m.read (p.addr.toNat + k)) ∧
  (p.kind = .store → p.rdata = none)

/-! ### Transitions -/

/-- The transition from `s` reaches its fetch, in state `u` (parts 1 and 2 of rule R81 are done). -/
def ReachesFetch (s u : State) : Prop := s.status = .running ∧ boundary s = .fetches u

/-- The transition from `s` fetches the word `w`, in state `u`. -/
def Fetches (s u : State) (w : Word) : Prop := ReachesFetch s u ∧ fetchWord u = .ok w

/-- A running nucleus at whose boundaries nothing is asserted. -/
def Undisturbed (s : State) : Prop := s.status = .running ∧ s.bridge = .idle ∧ s.inputs.boundaries = []

/-- The state with other samples to come. -/
def State.withBoundaries (s : State) (bs : List Boundary) : State := { s with inputs := { s.inputs with boundaries := bs } }

/-- The state with another mode flag. -/
def State.withMode (s : State) (m : Mode) : State := { s with cpu := { s.cpu with mode := m } }

/-- What the guest, and the loader after the run, can see: the Guest CPU State, memory, the status and the latch. -/
def SameGuestView (s t : State) : Prop :=
  t.cpu = s.cpu ∧ t.mem = s.mem ∧ t.status = s.status ∧ t.result = s.result

/-- Boundary samples that only delegate: no abort is injected and every handler returns. -/
def OnlyDelegates (bs : List Boundary) : Prop := ∀ b ∈ bs, b.abortReq = none ∧ b.handlerOut = false

/-! ### Why a run aborts -/

/-- What makes an instruction abort: it is ECALL or EBREAK, a CSR instruction outside user mode, or a load or store whose
access the validator rejects (rules R171, R172, R173). -/
def Raises (i : Instr) (u : State) : Prop :=
  i = .ecall ∨ i = .ebreak ∨ (i.isCsr = true ∧ u.cpu.mode = .supervisor) ∨
    ∃ p, dataAccess i u = some p ∧ ¬ Accepted p.kind p.addr p.width

/-- What makes the parts of a step from the fetch on abort, in the order of rule R180: a rejected fetch; a word that is
not the halt word and is illegal, ECALL or EBREAK, a CSR instruction outside user mode, or a rejected data access. -/
def RaisesFrom (u : State) : Prop :=
  ¬ Accepted .fetch u.cpu.pc .word ∨
  ∃ w, fetchWord u = .ok w ∧ w ≠ u.inputs.haltWord ∧
    ((∃ e, decode w = .error e) ∨ ∃ i, decode w = .ok i ∧ Raises i u)

/-- What makes a transition of a running nucleus abort (rule R175): an injected abort at the head of a step, or
something from the fetch on. -/
def AbortCause (s : State) : Prop :=
  (s.bridge = .idle ∧ s.sample.abortReq ≠ none) ∨ ∃ u, ReachesFetch s u ∧ RaisesFrom u

/-! ### The invariant -/

/-- Status and latch tell the same story (rules R28, R29, R176, R177). -/
def LatchAgrees (s : State) : Prop :=
  match s.status, s.result with
  | .running, none => True
  | .halted, some (.halted code) => code = s.readReg 10
  | .aborted, some (.aborted kind _ pc access) => pc = s.cpu.pc ∧ (access ≠ none → kind = .outOfRangeAccess)
  | _, _ => False

/-- What every transition keeps: memory is canonical and lies in the window, the latch agrees with the status, a run
ends only with the bridge idle, and while a handler is out the shadow is the Guest CPU State. -/
structure State.Inv (s : State) : Prop where
  memCanonical : s.mem.wf
  memConfined : s.mem.confined
  latch : LatchAgrees s
  terminalIdle : s.status ≠ .running → s.bridge = .idle
  shadowHeld : s.bridge = .delegating → s.shadow = s.cpu

end Sys2Proof.Machine
end

