-- ==== Sys2Proof/Certificates/Slice0/Obligations.lean ====
section
/-! DEFINITION. The statements about the nucleus for the provers. Each docstring says which rule of spec/ it formalises. -/

open Sys2Proof Sys2Proof.Machine

/-! ### Encoding -/

/-- Decoding the word of a well-formed instruction gives it back (rules R70, R71). -/
def Obligations.DecodeInvertsEncode : Prop := ∀ i : Instr, i.wf = true → decode (encode i) = .ok i

/-- A word that decodes is the word of its instruction, and the instruction is well formed: no bit of a legal word is
dropped (rules R60 to R71). -/
def Obligations.EncodeInvertsDecode : Prop :=
  ∀ (w : Word) (i : Instr), decode w = .ok i → encode i = w ∧ i.wf = true

/-- Rule R71: the decoder gives the row whose masked comparison holds, with the operand fields of the row's format, and
`illegal` when no row matches. -/
def Obligations.DecodeFollowsOpcodeTable : Prop :=
  (∀ (w : Word) (i : Instr), decode w = .ok i ↔
    (∃ row ∈ opcodeTable, row.isRowOf w = true ∧ row.mnemonic = i.mnemonic) ∧ i.hasFieldsOf w) ∧
  (∀ w : Word, (∃ e, decode w = .error e) ↔ ∀ row ∈ opcodeTable, row.isRowOf w = false)

/-- No word satisfies two rows of the opcode table (rule R70). -/
def Obligations.NoWordMatchesTwoRows : Prop :=
  ∀ (w : Word), ∀ r ∈ opcodeTable, ∀ r' ∈ opcodeTable, r.isRowOf w = true → r'.isRowOf w = true → r = r'

/-- Words of every family, written out from section 2.1 of spec/95_test_vectors.md, decode to what they stand for. -/
def Obligations.SpecWordsDecode : Prop :=
  decode 0x123452B7#32 = .ok (.lui 5 0x12345000#32) ∧
  decode 0xFFF2B313#32 = .ok (.sltiu 6 5 0xFFFFFFFF#32) ∧
  decode 0x4042D313#32 = .ok (.srai 6 5 4#5) ∧
  decode 0x406283B3#32 = .ok (.sub 7 5 6) ∧
  decode 0x800000EF#32 = .ok (.jal 1 0xFFF00000#32) ∧
  decode 0xFFD280E7#32 = .ok (.jalr 1 5 0xFFFFFFFD#32) ∧
  decode 0xFE629CE3#32 = .ok (.bne 5 6 0xFFFFFFF8#32) ∧
  decode 0x0032C303#32 = .ok (.lbu 6 5 3#32) ∧
  decode 0xFE62AE23#32 = .ok (.sw 5 6 0xFFFFFFFC#32) ∧
  decode 0x0FF0000F#32 = .ok (.fence 0#4 15#4 15#4 0 0) ∧
  decode 0x00000073#32 = .ok .ecall ∧
  decode 0x340FD373#32 = .ok (.csrrwi 6 0x340#12 31#32)

/-- Four bytes of a well-formed instruction, lowest address first, decode to it and leave the bytes after them; fewer
bytes are no instruction (rules R48, R60). -/
def Obligations.BytesDecodeLittleEndian : Prop :=
  (∀ (i : Instr) (rest : List Byte), i.wf = true → decodeBytes (bytesOfWord (encode i) ++ rest) = .ok (i, rest)) ∧
  (∀ bs : List Byte, bs.length < 4 → decodeBytes bs = .error .truncated)

/-- Rule R72: exactly the words of its classes are illegal, and executing one aborts with IllegalInstruction of the
word, with no register and no byte of memory changed. -/
def Obligations.IllegalWordsByClass : Prop :=
  (∀ w : Word,
    (decode w = .error .notThirtyTwoBit ↔ w.extractLsb' 0 2 ≠ 0b11#2) ∧
    (decode w = .error .majorOpcode ↔ w.extractLsb' 0 2 = 0b11#2 ∧
      opcodeOf w ∉ [0b0110111#7, 0b0010111#7, 0b1101111#7, 0b1100111#7, 0b1100011#7, 0b0000011#7, 0b0100011#7,
        0b0010011#7, 0b0110011#7, 0b0001111#7, 0b1110011#7]) ∧
    (decode w = .error .jalrFunct3 ↔ opcodeOf w = 0b1100111#7 ∧ funct3Of w ≠ 0#3) ∧
    (decode w = .error .branchFunct3 ↔ opcodeOf w = 0b1100011#7 ∧ funct3Of w ∈ [2#3, 3#3]) ∧
    (decode w = .error .loadFunct3 ↔ opcodeOf w = 0b0000011#7 ∧ funct3Of w ∈ [3#3, 6#3, 7#3]) ∧
    (decode w = .error .storeFunct3 ↔ opcodeOf w = 0b0100011#7 ∧ funct3Of w ∈ [3#3, 4#3, 5#3, 6#3, 7#3]) ∧
    (decode w = .error .opImmFunct7 ↔ opcodeOf w = 0b0010011#7 ∧
      ((funct3Of w = 1#3 ∧ funct7Of w ≠ 0#7) ∨
       (funct3Of w = 5#3 ∧ funct7Of w ≠ 0#7 ∧ funct7Of w ≠ 0b0100000#7))) ∧
    (decode w = .error .opFunct7 ↔ opcodeOf w = 0b0110011#7 ∧ funct7Of w ≠ 0#7 ∧
      ¬ (funct7Of w = 0b0100000#7 ∧ funct3Of w ∈ [0#3, 5#3])) ∧
    (decode w = .error .miscMemFunct3 ↔ opcodeOf w = 0b0001111#7 ∧ funct3Of w ≠ 0#3) ∧
    (decode w = .error .systemFunct3 ↔ opcodeOf w = 0b1110011#7 ∧ funct3Of w = 4#3) ∧
    (decode w = .error .systemWord ↔ opcodeOf w = 0b1110011#7 ∧ funct3Of w = 0#3 ∧
      w ≠ 0x00000073#32 ∧ w ≠ 0x00100073#32) ∧
    decode w ≠ .error .truncated) ∧
  (∀ w : Word, (∀ row ∈ opcodeTable, row.isRowOf w = false) → ∃ e, decode w = .error e) ∧
  (∀ (s u : State) (w : Word) (e : Illegal), Fetches s u w → w ≠ u.inputs.haltWord → decode w = .error e →
    ∃ t, step s = .next t ∧ Aborts .illegalInstruction w none u t)

/-! ### The ALU -/

/-- Rule R88: addition and subtraction modulo 2^32. -/
def Obligations.AdderWrapsModulo : Prop :=
  ∀ a b : Word,
    (alu .add a b).toNat = (a.toNat + b.toNat) % 2 ^ 32 ∧
    ((alu .sub a b).toNat : Int) = ((a.toNat : Int) - (b.toNat : Int)) % 2 ^ 32 ∧
    alu .sub a b = a + ~~~b + 1#32

/-- Rule R89: AND, OR and XOR bit by bit. -/
def Obligations.LogicUnitIsBitwise : Prop :=
  ∀ (a b : Word) (i : Nat), i < 32 →
    (alu .and a b).getLsbD i = (a.getLsbD i && b.getLsbD i) ∧
    (alu .or a b).getLsbD i = (a.getLsbD i || b.getLsbD i) ∧
    (alu .xor a b).getLsbD i = (a.getLsbD i != b.getLsbD i)

/-- Rule R90: the amount is the low five bits of the second operand; SLL and SRL on unsigned values, SRA the floor of the
signed quotient. -/
def Obligations.ShifterUsesLowFiveBits : Prop :=
  ∀ a b : Word,
    (alu .sll a b).toNat = a.toNat * 2 ^ (b.toNat % 32) % 2 ^ 32 ∧
    (alu .srl a b).toNat = a.toNat / 2 ^ (b.toNat % 32) ∧
    (alu .sra a b).toInt = a.toInt / 2 ^ (b.toNat % 32)

/-- Rule R91: the set-less-than results and the six branch conditions, signed and unsigned. -/
def Obligations.ComparatorOrders : Prop :=
  ∀ a b : Word,
    (alu .slt a b = if a.toInt < b.toInt then 1#32 else 0#32) ∧
    (alu .sltu a b = if a.toNat < b.toNat then 1#32 else 0#32) ∧
    (cmp .eq a b = true ↔ a = b) ∧ (cmp .ne a b = true ↔ a ≠ b) ∧
    (cmp .lt a b = true ↔ a.toInt < b.toInt) ∧ (cmp .ge a b = true ↔ a.toInt ≥ b.toInt) ∧
    (cmp .ltu a b = true ↔ a.toNat < b.toNat) ∧ (cmp .geu a b = true ↔ a.toNat ≥ b.toNat)

/-! ### Registers -/

/-- Rule R22: `x0` reads as 0 in every state and in the bridge's snapshot, a write to it changes nothing, and a load or a
CSR instruction into it still aborts where it would with another destination. -/
def Obligations.RegisterZeroIsHardwired : Prop :=
  (∀ s : State, s.readReg 0 = 0#32 ∧ (capture s).shadow.reg 0 = 0#32) ∧
  (∀ (s : State) (v : Word), s.writeReg 0 v = s) ∧
  (∀ (s : State) (rs1 : RegIdx) (imm : Word),
    ∀ f ∈ [(Instr.lb 0 rs1 imm, AccessWidth.byte), (.lh 0 rs1 imm, .half), (.lw 0 rs1 imm, .word),
           (.lbu 0 rs1 imm, .byte), (.lhu 0 rs1 imm, .half)],
      ¬ Accepted .load (effectiveAddress rs1 imm s) f.2 →
      ∃ t, exec f.1 s = .next t ∧ Aborts .outOfRangeAccess (effectiveAddress rs1 imm s) (some .load) s t) ∧
  (∀ (s : State) (csr : CsrIdx) (rs1 : RegIdx) (uimm : Word), s.cpu.mode = .supervisor →
    ∀ i ∈ [Instr.csrrw 0 csr rs1, .csrrs 0 csr rs1, .csrrc 0 csr rs1, .csrrwi 0 csr uimm, .csrrsi 0 csr uimm,
           .csrrci 0 csr uimm],
      ∃ t, exec i s = .next t ∧ Aborts .illegalCsrAccess (encode i) none s t)

/-- An instruction of the 21 computational ones with `rd = x0` completes with only the pc moved on (rules R74, R93). -/
def Obligations.ComputationalHintsOnlyAdvance : Prop :=
  ∀ (s : State) (rs1 rs2 : RegIdx) (imm : Word) (shamt : BitVec 5),
    ∀ i ∈ [Instr.lui 0 imm, .auipc 0 imm, .addi 0 rs1 imm, .slti 0 rs1 imm, .sltiu 0 rs1 imm, .xori 0 rs1 imm,
           .ori 0 rs1 imm, .andi 0 rs1 imm, .slli 0 rs1 shamt, .srli 0 rs1 shamt, .srai 0 rs1 shamt, .add 0 rs1 rs2,
           .sub 0 rs1 rs2, .sll 0 rs1 rs2, .slt 0 rs1 rs2, .sltu 0 rs1 rs2, .xor 0 rs1 rs2, .srl 0 rs1 rs2,
           .sra 0 rs1 rs2, .or 0 rs1 rs2, .and 0 rs1 rs2],
      ∃ t, exec i s = .next t ∧ PcResult (s.cpu.pc + 4#32) s t

/-! ### The validator and memory -/

/-- Rules R44 and R45: the validator accepts exactly the spans inside the window, whatever the kind, and a rejection
carries the kind and the address. -/
def Obligations.ValidatorAcceptsTheWindow : Prop :=
  ∀ (k : AccessKind) (a : Word),
    (∀ n : AccessWidth, Accepted k a n ↔
      Config.windowLo ≤ a.toNat ∧ a.toNat + n.bytes - 1 ≤ Config.windowHi) ∧
    (Accepted k a .byte ↔ 0x00020000 ≤ a.toNat ∧ a.toNat ≤ 0x00FFFFFF) ∧
    (Accepted k a .half ↔ 0x00020000 ≤ a.toNat ∧ a.toNat ≤ 0x00FFFFFE) ∧
    (Accepted k a .word ↔ 0x00020000 ≤ a.toNat ∧ a.toNat ≤ 0x00FFFFFC) ∧
    (∀ n : AccessWidth, ¬ Accepted k a n → confine k a n = .error ⟨k, a⟩)

/-- Rule R49: an accepted read gives the bytes of the span, the lowest address in the lowest bits; a rejected one gives
the rejection. -/
def Obligations.ReadsTakeTheSpanLittleEndian : Prop :=
  ∀ (k : AccessKind) (a : Word) (n : AccessWidth) (s : State),
    (Accepted k a n → ∃ v, memRead k a n s = .ok v ∧
      ∀ j < n.bytes, v.extractLsb' (8 * j) 8 = s.mem.read (a.toNat + j)) ∧
    (¬ Accepted k a n → memRead k a n s = .error ⟨k, a⟩)

/-- Rule R50: an accepted write puts the value's bytes at the span, lowest first, and changes no other byte and nothing
else; a rejected one writes nothing. -/
def Obligations.WritesAreAllOrNothing : Prop :=
  ∀ (a : Word) (n : AccessWidth) (v : BitVec n.bits) (s : State), s.mem.wf →
    (Accepted .store a n → ∃ t, memWrite a n v s = .ok t ∧
      (∀ b, t.mem.read b =
        if a.toNat ≤ b ∧ b < a.toNat + n.bytes then v.extractLsb' (8 * (b - a.toNat)) 8 else s.mem.read b) ∧
      t = s.setMem t.mem) ∧
    (¬ Accepted .store a n → memWrite a n v s = .error ⟨.store, a⟩)

/-- Rule R48: after a word is stored, byte, halfword and word loads and the fetch all see its bytes, the least
significant at the lowest address. -/
def Obligations.MixedWidthsSeeTheSameBytes : Prop :=
  ∀ (a v : Word) (s t : State), s.mem.wf → memWrite a .word v s = .ok t →
    memRead .load a .word t = .ok v ∧ memRead .fetch a .word t = .ok v ∧
    memRead .load a .half t = .ok (v.extractLsb' 0 16) ∧
    memRead .load (a + 2#32) .half t = .ok (v.extractLsb' 16 16) ∧
    (∀ k < 4, memRead .load (a + BitVec.ofNat 32 k) .byte t = .ok (byteOfWord v k))

/-! ### Integer computational instructions -/

/-- Rules R100 and R101: LUI and AUIPC, their encoding and their whole effect. -/
def Obligations.UpperImmediatesCompute : Prop :=
  (∀ w : Word, opcodeOf w = 0b0110111#7 → decode w = .ok (.lui (rdOf w) (immU w))) ∧
  (∀ rd imm, ComputesInto (.lui rd imm) rd fun _ => imm) ∧
  (∀ w : Word, opcodeOf w = 0b0010111#7 → decode w = .ok (.auipc (rdOf w) (immU w))) ∧
  (∀ rd imm, ComputesInto (.auipc rd imm) rd fun s => alu .add s.cpu.pc imm)

/-- Rules R102 to R107: the six register-immediate instructions, their encoding and their whole effect. -/
def Obligations.RegisterImmediatesCompute : Prop :=
  (∀ w : Word, opcodeOf w = 0b0010011#7 →
    (funct3Of w = 0b000#3 → decode w = .ok (.addi (rdOf w) (rs1Of w) (immI w))) ∧
    (funct3Of w = 0b010#3 → decode w = .ok (.slti (rdOf w) (rs1Of w) (immI w))) ∧
    (funct3Of w = 0b011#3 → decode w = .ok (.sltiu (rdOf w) (rs1Of w) (immI w))) ∧
    (funct3Of w = 0b100#3 → decode w = .ok (.xori (rdOf w) (rs1Of w) (immI w))) ∧
    (funct3Of w = 0b110#3 → decode w = .ok (.ori (rdOf w) (rs1Of w) (immI w))) ∧
    (funct3Of w = 0b111#3 → decode w = .ok (.andi (rdOf w) (rs1Of w) (immI w)))) ∧
  (∀ rd rs1 imm,
    (ComputesInto (.addi rd rs1 imm) rd fun s => alu .add (s.readReg rs1) imm) ∧
    (ComputesInto (.slti rd rs1 imm) rd fun s => alu .slt (s.readReg rs1) imm) ∧
    (ComputesInto (.sltiu rd rs1 imm) rd fun s => alu .sltu (s.readReg rs1) imm) ∧
    (ComputesInto (.xori rd rs1 imm) rd fun s => alu .xor (s.readReg rs1) imm) ∧
    (ComputesInto (.ori rd rs1 imm) rd fun s => alu .or (s.readReg rs1) imm) ∧
    (ComputesInto (.andi rd rs1 imm) rd fun s => alu .and (s.readReg rs1) imm))

/-- Rules R108 to R110: the three shift-immediate instructions, their encoding and their whole effect. -/
def Obligations.ShiftImmediatesCompute : Prop :=
  (∀ w : Word, opcodeOf w = 0b0010011#7 →
    (funct3Of w = 0b001#3 → funct7Of w = 0b0000000#7 → decode w = .ok (.slli (rdOf w) (rs1Of w) (shamtOf w))) ∧
    (funct3Of w = 0b001#3 → funct7Of w ≠ 0b0000000#7 → ∃ e, decode w = .error e) ∧
    (funct3Of w = 0b101#3 → funct7Of w = 0b0000000#7 → decode w = .ok (.srli (rdOf w) (rs1Of w) (shamtOf w))) ∧
    (funct3Of w = 0b101#3 → funct7Of w = 0b0100000#7 → decode w = .ok (.srai (rdOf w) (rs1Of w) (shamtOf w)))) ∧
  (∀ rd rs1 (shamt : BitVec 5),
    (ComputesInto (.slli rd rs1 shamt) rd fun s => alu .sll (s.readReg rs1) (shamt.setWidth 32)) ∧
    (ComputesInto (.srli rd rs1 shamt) rd fun s => alu .srl (s.readReg rs1) (shamt.setWidth 32)) ∧
    (ComputesInto (.srai rd rs1 shamt) rd fun s => alu .sra (s.readReg rs1) (shamt.setWidth 32)))

/-- Rules R111 to R120: the ten register-register instructions, their encoding and their whole effect. -/
def Obligations.RegisterRegistersCompute : Prop :=
  (∀ w : Word, opcodeOf w = 0b0110011#7 → funct7Of w = 0b0000000#7 →
    (funct3Of w = 0b000#3 → decode w = .ok (.add (rdOf w) (rs1Of w) (rs2Of w))) ∧
    (funct3Of w = 0b001#3 → decode w = .ok (.sll (rdOf w) (rs1Of w) (rs2Of w))) ∧
    (funct3Of w = 0b010#3 → decode w = .ok (.slt (rdOf w) (rs1Of w) (rs2Of w))) ∧
    (funct3Of w = 0b011#3 → decode w = .ok (.sltu (rdOf w) (rs1Of w) (rs2Of w))) ∧
    (funct3Of w = 0b100#3 → decode w = .ok (.xor (rdOf w) (rs1Of w) (rs2Of w))) ∧
    (funct3Of w = 0b101#3 → decode w = .ok (.srl (rdOf w) (rs1Of w) (rs2Of w))) ∧
    (funct3Of w = 0b110#3 → decode w = .ok (.or (rdOf w) (rs1Of w) (rs2Of w))) ∧
    (funct3Of w = 0b111#3 → decode w = .ok (.and (rdOf w) (rs1Of w) (rs2Of w)))) ∧
  (∀ w : Word, opcodeOf w = 0b0110011#7 → funct7Of w = 0b0100000#7 →
    (funct3Of w = 0b000#3 → decode w = .ok (.sub (rdOf w) (rs1Of w) (rs2Of w))) ∧
    (funct3Of w = 0b101#3 → decode w = .ok (.sra (rdOf w) (rs1Of w) (rs2Of w)))) ∧
  (∀ rd rs1 rs2,
    (ComputesInto (.add rd rs1 rs2) rd fun s => alu .add (s.readReg rs1) (s.readReg rs2)) ∧
    (ComputesInto (.sub rd rs1 rs2) rd fun s => alu .sub (s.readReg rs1) (s.readReg rs2)) ∧
    (ComputesInto (.sll rd rs1 rs2) rd fun s => alu .sll (s.readReg rs1) (s.readReg rs2)) ∧
    (ComputesInto (.slt rd rs1 rs2) rd fun s => alu .slt (s.readReg rs1) (s.readReg rs2)) ∧
    (ComputesInto (.sltu rd rs1 rs2) rd fun s => alu .sltu (s.readReg rs1) (s.readReg rs2)) ∧
    (ComputesInto (.xor rd rs1 rs2) rd fun s => alu .xor (s.readReg rs1) (s.readReg rs2)) ∧
    (ComputesInto (.srl rd rs1 rs2) rd fun s => alu .srl (s.readReg rs1) (s.readReg rs2)) ∧
    (ComputesInto (.sra rd rs1 rs2) rd fun s => alu .sra (s.readReg rs1) (s.readReg rs2)) ∧
    (ComputesInto (.or rd rs1 rs2) rd fun s => alu .or (s.readReg rs1) (s.readReg rs2)) ∧
    (ComputesInto (.and rd rs1 rs2) rd fun s => alu .and (s.readReg rs1) (s.readReg rs2)))

/-! ### Control transfer -/

/-- Rules R122 and R123: JAL and JALR, their encoding and their whole effect; JALR's target comes from the old `x[rs1]`
and has bit 0 cleared. -/
def Obligations.JumpsLinkAndTransfer : Prop :=
  (∀ w : Word, opcodeOf w = 0b1101111#7 → decode w = .ok (.jal (rdOf w) (immJ w))) ∧
  (∀ rd imm (s : State), ∃ t, exec (.jal rd imm) s = .next t ∧
    RegResult rd (s.cpu.pc + 4#32) (alu .add s.cpu.pc imm) s t) ∧
  (∀ w : Word, opcodeOf w = 0b1100111#7 →
    (funct3Of w = 0b000#3 → decode w = .ok (.jalr (rdOf w) (rs1Of w) (immI w))) ∧
    (funct3Of w ≠ 0b000#3 → ∃ e, decode w = .error e)) ∧
  (∀ rd rs1 imm (s : State), ∃ t, exec (.jalr rd rs1 imm) s = .next t ∧
    RegResult rd (s.cpu.pc + 4#32) (alu .add (s.readReg rs1) imm &&& 0xFFFFFFFE#32) s t)

/-- Rules R124 to R129: the six branches, their encoding, their conditions and their whole effect. -/
def Obligations.BranchesTestAndTransfer : Prop :=
  (∀ w : Word, opcodeOf w = 0b1100011#7 →
    (funct3Of w = 0b000#3 → decode w = .ok (.beq (rs1Of w) (rs2Of w) (immB w))) ∧
    (funct3Of w = 0b001#3 → decode w = .ok (.bne (rs1Of w) (rs2Of w) (immB w))) ∧
    (funct3Of w = 0b100#3 → decode w = .ok (.blt (rs1Of w) (rs2Of w) (immB w))) ∧
    (funct3Of w = 0b101#3 → decode w = .ok (.bge (rs1Of w) (rs2Of w) (immB w))) ∧
    (funct3Of w = 0b110#3 → decode w = .ok (.bltu (rs1Of w) (rs2Of w) (immB w))) ∧
    (funct3Of w = 0b111#3 → decode w = .ok (.bgeu (rs1Of w) (rs2Of w) (immB w)))) ∧
  (∀ rs1 rs2 imm,
    BranchesOn (.beq rs1 rs2 imm) imm (fun s => s.readReg rs1 = s.readReg rs2) ∧
    BranchesOn (.bne rs1 rs2 imm) imm (fun s => s.readReg rs1 ≠ s.readReg rs2) ∧
    BranchesOn (.blt rs1 rs2 imm) imm (fun s => (s.readReg rs1).toInt < (s.readReg rs2).toInt) ∧
    BranchesOn (.bge rs1 rs2 imm) imm (fun s => (s.readReg rs1).toInt ≥ (s.readReg rs2).toInt) ∧
    BranchesOn (.bltu rs1 rs2 imm) imm (fun s => (s.readReg rs1).toNat < (s.readReg rs2).toNat) ∧
    BranchesOn (.bgeu rs1 rs2 imm) imm (fun s => (s.readReg rs1).toNat ≥ (s.readReg rs2).toNat))

/-- Rule R121: a control transfer writes its link, goes to its target and raises nothing, wherever that is; from a pc
whose fetch the validator rejects, the next transition of an undisturbed nucleus aborts at that pc with the access kind
fetch. -/
def Obligations.OutOfWindowTargetFaultsAtNextFetch : Prop :=
  (∀ (rd rs1 : RegIdx) (imm : Word) (s : State),
    ∀ j ∈ [(Instr.jal rd imm, pcRelative imm s), (.jalr rd rs1 imm, jalrTarget rs1 imm s)],
      ∃ t, exec j.1 s = .next t ∧ RegResult rd (s.cpu.pc + 4#32) j.2 s t) ∧
  (∀ (rs1 rs2 : RegIdx) (imm : Word) (s : State),
    ∀ b ∈ [(Instr.beq rs1 rs2 imm, Cond.eq), (.bne rs1 rs2 imm, .ne), (.blt rs1 rs2 imm, .lt), (.bge rs1 rs2 imm, .ge),
           (.bltu rs1 rs2 imm, .ltu), (.bgeu rs1 rs2 imm, .geu)],
      ∃ t, exec b.1 s = .next t ∧ PcResult (branchPc b.2 rs1 rs2 imm s) s t) ∧
  (∀ t : State, Undisturbed t → ¬ Accepted .fetch t.cpu.pc .word →
    ∃ u, step t = .next u ∧ Aborts .outOfRangeAccess t.cpu.pc (some .fetch) t u)

/-- Bit 0 of the pc: kept by every well-formed instruction but JALR, which clears it (rule R52); so no transition of a
run with an even pc makes it odd. -/
def Obligations.EvenPcStaysEven : Prop :=
  (∀ (i : Instr) (s t : State), i.wf = true → exec i s = .next t →
    t.cpu.pc.getLsbD 0 = if i.mnemonic = .jalr then false else s.cpu.pc.getLsbD 0) ∧
  (∀ s t : State, s.Inv → s.status = .running → s.cpu.pc.getLsbD 0 = false → step s = .next t →
    t.cpu.pc.getLsbD 0 = false)

/-! ### Loads and stores -/

/-- Rules R134 to R138: the five loads, their encoding and their whole effect. -/
def Obligations.LoadsReadAndExtend : Prop :=
  (∀ w : Word, opcodeOf w = 0b0000011#7 →
    (funct3Of w = 0b000#3 → decode w = .ok (.lb (rdOf w) (rs1Of w) (immI w))) ∧
    (funct3Of w = 0b001#3 → decode w = .ok (.lh (rdOf w) (rs1Of w) (immI w))) ∧
    (funct3Of w = 0b010#3 → decode w = .ok (.lw (rdOf w) (rs1Of w) (immI w))) ∧
    (funct3Of w = 0b100#3 → decode w = .ok (.lbu (rdOf w) (rs1Of w) (immI w))) ∧
    (funct3Of w = 0b101#3 → decode w = .ok (.lhu (rdOf w) (rs1Of w) (immI w)))) ∧
  (∀ rd rs1 imm,
    LoadsValue (.lb rd rs1 imm) rd rs1 imm .byte (fun m a => (m.read a).signExtend 32) ∧
    LoadsValue (.lh rd rs1 imm) rd rs1 imm .half (fun m a => (m.read (a + 1) ++ m.read a : BitVec 16).signExtend 32) ∧
    LoadsValue (.lw rd rs1 imm) rd rs1 imm .word
      (fun m a => m.read (a + 3) ++ m.read (a + 2) ++ m.read (a + 1) ++ m.read a) ∧
    LoadsValue (.lbu rd rs1 imm) rd rs1 imm .byte (fun m a => (m.read a).setWidth 32) ∧
    LoadsValue (.lhu rd rs1 imm) rd rs1 imm .half (fun m a => (m.read (a + 1) ++ m.read a : BitVec 16).setWidth 32))

/-- Rules R139 to R141: the three stores, their encoding and their whole effect, every other byte unchanged. -/
def Obligations.StoresWriteTheirBytes : Prop :=
  (∀ w : Word, opcodeOf w = 0b0100011#7 →
    (funct3Of w = 0b000#3 → decode w = .ok (.sb (rs1Of w) (rs2Of w) (immS w))) ∧
    (funct3Of w = 0b001#3 → decode w = .ok (.sh (rs1Of w) (rs2Of w) (immS w))) ∧
    (funct3Of w = 0b010#3 → decode w = .ok (.sw (rs1Of w) (rs2Of w) (immS w)))) ∧
  (∀ rs1 rs2 imm,
    StoresValue (.sb rs1 rs2 imm) rs1 rs2 imm .byte ∧ StoresValue (.sh rs1 rs2 imm) rs1 rs2 imm .half ∧
    StoresValue (.sw rs1 rs2 imm) rs1 rs2 imm .word)

/-- Rules R47 and R142: a rejected fetch, load or store aborts the transition with OutOfRangeAccess at the first byte of
the access and its kind, at the pc of the instruction, and nothing else changes; a load or store whose access is
accepted raises nothing, whatever its alignment. -/
def Obligations.RejectedAccessAborts : Prop :=
  (∀ s u : State, ReachesFetch s u → ¬ Accepted .fetch u.cpu.pc .word →
    ∃ t, step s = .next t ∧ Aborts .outOfRangeAccess u.cpu.pc (some .fetch) u t) ∧
  (∀ (s u : State) (w : Word) (i : Instr) (p : AccessRequest), Fetches s u w → w ≠ u.inputs.haltWord →
    decode w = .ok i → dataAccess i u = some p → ¬ Accepted p.kind p.addr p.width →
    ∃ t, step s = .next t ∧ Aborts .outOfRangeAccess p.addr (some p.kind) u t) ∧
  (∀ (i : Instr) (s : State) (p : AccessRequest), dataAccess i s = some p → Accepted p.kind p.addr p.width →
    ∃ t, exec i s = .next t ∧ KeepsControl s t)

/-- A load or store with base `x0` always aborts: every address its immediate can give lies outside the window
(rule R133). -/
def Obligations.AbsoluteAccessAborts : Prop :=
  ∀ (s : State) (r : RegIdx) (imm : Word), fitsImm12 imm = true →
    (∀ i ∈ [Instr.lb r 0 imm, .lh r 0 imm, .lw r 0 imm, .lbu r 0 imm, .lhu r 0 imm],
      ∃ t, exec i s = .next t ∧ Aborts .outOfRangeAccess imm (some .load) s t) ∧
    (∀ i ∈ [Instr.sb 0 r imm, .sh 0 r imm, .sw 0 r imm],
      ∃ t, exec i s = .next t ∧ Aborts .outOfRangeAccess imm (some .store) s t)

/-- A word stored by SW is what the next fetch of its address gives, with no fence between (rules R58, R205). -/
def Obligations.StoredCodeIsFetched : Prop :=
  ∀ (s t u : State) (rs1 rs2 : RegIdx) (imm : Word), s.mem.wf →
    Accepted .store (effectiveAddress rs1 imm s) .word → exec (.sw rs1 rs2 imm) s = .next t →
    u.mem = t.mem → u.cpu.pc = effectiveAddress rs1 imm s → fetchWord u = .ok (s.readReg rs2)

/-! ### System and CSR -/

/-- Rule R146: FENCE, its encoding and its effect, the pc alone, for every value of its fields. -/
def Obligations.FenceOnlyAdvances : Prop :=
  (∀ w : Word, opcodeOf w = 0b0001111#7 →
    (funct3Of w = 0b000#3 → decode w =
      .ok (.fence (w.extractLsb' 28 4) (w.extractLsb' 24 4) (w.extractLsb' 20 4) (rs1Of w) (rdOf w))) ∧
    (funct3Of w ≠ 0b000#3 → ∃ e, decode w = .error e)) ∧
  (∀ fm pred succ rs1 rd (s : State), ∃ t, exec (.fence fm pred succ rs1 rd) s = .next t ∧
    PcResult (s.cpu.pc + 4#32) s t)

/-- Rules R147 and R148: the ECALL and the EBREAK word decode; executed, each aborts with IllegalInstruction of its
word; fetched, it does so when it is not the halt word. -/
def Obligations.EcallAndEbreakAbort : Prop :=
  decode 0x00000073#32 = .ok .ecall ∧ decode 0x00100073#32 = .ok .ebreak ∧
  (∀ s : State, ∃ t, exec .ecall s = .next t ∧ Aborts .illegalInstruction 0x00000073#32 none s t) ∧
  (∀ s : State, ∃ t, exec .ebreak s = .next t ∧ Aborts .illegalInstruction 0x00100073#32 none s t) ∧
  (∀ (s u : State), ∀ w ∈ [0x00000073#32, 0x00100073#32], Fetches s u w → w ≠ u.inputs.haltWord →
    ∃ t, step s = .next t ∧ Aborts .illegalInstruction w none u t)

/-- Rules R156 to R161: the six CSR instructions, their encoding and their whole effect in each mode. -/
def Obligations.CsrInstructionsAreStubs : Prop :=
  (∀ w : Word, opcodeOf w = 0b1110011#7 →
    (funct3Of w = 0b001#3 → decode w = .ok (.csrrw (rdOf w) (csrOf w) (rs1Of w))) ∧
    (funct3Of w = 0b010#3 → decode w = .ok (.csrrs (rdOf w) (csrOf w) (rs1Of w))) ∧
    (funct3Of w = 0b011#3 → decode w = .ok (.csrrc (rdOf w) (csrOf w) (rs1Of w))) ∧
    (funct3Of w = 0b101#3 → decode w = .ok (.csrrwi (rdOf w) (csrOf w) (uimmOf w))) ∧
    (funct3Of w = 0b110#3 → decode w = .ok (.csrrsi (rdOf w) (csrOf w) (uimmOf w))) ∧
    (funct3Of w = 0b111#3 → decode w = .ok (.csrrci (rdOf w) (csrOf w) (uimmOf w)))) ∧
  (∀ rd csr rs1 uimm,
    CsrStub (.csrrw rd csr rs1) rd ∧ CsrStub (.csrrs rd csr rs1) rd ∧ CsrStub (.csrrc rd csr rs1) rd ∧
    CsrStub (.csrrwi rd csr uimm) rd ∧ CsrStub (.csrrsi rd csr uimm) rd ∧ CsrStub (.csrrci rd csr uimm) rd)

/-- Rules R154 and R155: the interception unit's answers in each mode, for every index and value, and the supervisor
abort of any CSR word, which reports the whole word. -/
def Obligations.CsrUnitFollowsTheMode : Prop :=
  (∀ (c : CsrIdx) (v : Word) (s : State),
    (s.cpu.mode = .user → csrRead c s = some 0#32 ∧ csrWrite c v s = some s) ∧
    (s.cpu.mode = .supervisor → csrRead c s = none ∧ csrWrite c v s = none)) ∧
  (∀ (w : Word) (i : Instr) (s : State), decode w = .ok i → i.isCsr = true → s.cpu.mode = .supervisor →
    ∃ t, exec i s = .next t ∧ Aborts .illegalCsrAccess w none s t)

/-- Rule R162: (a) a CSR write then a read of the same index yields 0 in user mode; (b) in supervisor mode every CSR
instruction aborts with IllegalCsrAccess; (c) in user mode each acts as `addi rd, x0, 0`; (d) none makes a memory access,
so none aborts with another kind. -/
def Obligations.CsrWriteThenReadYieldsZero : Prop :=
  (∀ (c : CsrIdx) (rs1 rd : RegIdx) (s t : State), s.cpu.mode = .user → exec (.csrrw 0 c rs1) s = .next t →
    ∃ u, exec (.csrrs rd c 0) t = .next u ∧ u.readReg rd = 0#32 ∧ SameRegs s t) ∧
  (∀ (i : Instr) (s : State), i.isCsr = true → s.cpu.mode = .supervisor →
    ∃ t, exec i s = .next t ∧ Aborts .illegalCsrAccess (encode i) none s t) ∧
  (∀ (rd rs1 : RegIdx) (c : CsrIdx) (uimm : Word) (s : State), s.cpu.mode = .user →
    ∀ i ∈ [Instr.csrrw rd c rs1, .csrrs rd c rs1, .csrrc rd c rs1, .csrrwi rd c uimm, .csrrsi rd c uimm,
           .csrrci rd c uimm], exec i s = exec (.addi rd 0 0#32) s) ∧
  (∀ (i : Instr) (s t : State), i.isCsr = true → exec i s = .next t →
    dataAccess i s = none ∧ ∀ info pc access, t.result = some (.aborted .outOfRangeAccess info pc access) →
      t.result = s.result)

/-! ### Faults, halting and the run status -/

/-- Rule R172: what makes a fetched word abort with IllegalInstruction, whose code is 2, and that nothing else does. -/
def Obligations.IllegalInstructionCauses : Prop :=
  FaultKind.code .illegalInstruction = 2#2 ∧
  ∀ (s u : State) (w : Word), Fetches s u w → w ≠ u.inputs.haltWord →
    ((∃ t, step s = .next t ∧ Aborts .illegalInstruction w none u t) ↔
      ((∃ e, decode w = .error e) ∨ w = 0x00000073#32 ∨ w = 0x00100073#32))

/-- Rule R173: a fetched word aborts with IllegalCsrAccess, whose code is 3, exactly when it is one of the six CSR
instructions and the mode is supervisor. -/
def Obligations.IllegalCsrAccessCauses : Prop :=
  FaultKind.code .illegalCsrAccess = 3#2 ∧
  ∀ (s u : State) (w : Word), Fetches s u w → w ≠ u.inputs.haltWord →
    ((∃ t, step s = .next t ∧ Aborts .illegalCsrAccess w none u t) ↔
      u.cpu.mode = .supervisor ∧ ∃ i, decode w = .ok i ∧ i.isCsr = true)

/-- Rule R171: a transition that reaches its fetch aborts with OutOfRangeAccess, whose code is 1, exactly when the
validator rejects the fetch, at the pc, or the load or store of the word fetched, at its first byte. -/
def Obligations.OutOfRangeAccessCauses : Prop :=
  FaultKind.code .outOfRangeAccess = 1#2 ∧
  ∀ (s u : State) (addr : Word) (k : AccessKind), ReachesFetch s u →
    ((∃ t, step s = .next t ∧ Aborts .outOfRangeAccess addr (some k) u t) ↔
      (¬ Accepted .fetch u.cpu.pc .word ∧ addr = u.cpu.pc ∧ k = .fetch) ∨
      ∃ w i p, fetchWord u = .ok w ∧ w ≠ u.inputs.haltWord ∧ decode w = .ok i ∧ dataAccess i u = some p ∧
        ¬ Accepted p.kind p.addr p.width ∧ addr = p.addr ∧ k = p.kind)

/-- Rule R82: the fetch is the four bytes at the pc, little-endian, through the validator, from memory as it is; a
rejected fetch aborts at the pc. -/
def Obligations.FetchGoesThroughTheValidator : Prop :=
  ∀ s u : State, ReachesFetch s u →
    (Accepted .fetch u.cpu.pc .word → fetchWord u =
      .ok (u.mem.read (u.cpu.pc.toNat + 3) ++ u.mem.read (u.cpu.pc.toNat + 2) ++ u.mem.read (u.cpu.pc.toNat + 1)
        ++ u.mem.read u.cpu.pc.toNat)) ∧
    (¬ Accepted .fetch u.cpu.pc .word →
      ∃ t, step s = .next t ∧ Aborts .outOfRangeAccess u.cpu.pc (some .fetch) u t)

/-- Rules R83 and R177: a fetched word equal to the halt word halts the run before any decode, whatever it would spell:
`x[10]` is latched, the pc moves on by 4, and nothing else changes. -/
def Obligations.HaltWordHalts : Prop :=
  ∀ s u : State, Fetches s u u.inputs.haltWord →
    ∃ t, step s = .next t ∧ t.status = .halted ∧ t.result = some (.halted (u.readReg 10)) ∧
      t.cpu.pc = u.cpu.pc + 4#32 ∧ SameRegs u t ∧ t.cpu.mode = u.cpu.mode ∧ t.mem = u.mem ∧ t.bridge = u.bridge ∧
      t.shadow = u.shadow ∧ t.inputs = u.inputs

/-- Rule R176: an abort is precise. The latch holds the pc of the faulting instruction, and the access kind exactly when
the validator raised it; nothing else has changed: no register, not the pc, not the mode, no byte of memory. -/
def Obligations.AbortsArePrecise : Prop :=
  ∀ s t : State, s.Inv → s.status = .running → step s = .next t → t.status = .aborted →
    ∃ kind info access, t.result = some (.aborted kind info s.cpu.pc access) ∧ t.cpu = s.cpu ∧ t.mem = s.mem ∧
      t.bridge = .idle ∧
      (access = none ↔ kind ≠ .outOfRangeAccess ∨ (s.bridge = .idle ∧ s.sample.abortReq ≠ none))

/-- Rule R175: from Running, a transition ends Halted exactly when it fetches the halt word, Aborted exactly when an
abort is injected or the validator, the decoder, ECALL, EBREAK or the CSR unit raises, and Running otherwise; a terminal
state changes only by a load event, which leads to Running from any state. (How a terminal state waits is log 8.) -/
def Obligations.RunStatusTransitions : Prop :=
  (∀ s t : State, s.status = .running → step s = .next t →
    (t.status = .halted ↔ ∃ u, Fetches s u u.inputs.haltWord) ∧
    (t.status = .aborted ↔ AbortCause s)) ∧
  (∀ s : State, s.status ≠ .running → s.inputs.loads = [] → step s = .next s) ∧
  (∀ (s : State) (l : Launch) (rest : List Launch), s.status ≠ .running → s.inputs.loads = l :: rest →
    ∃ t, step s = .next t ∧ t.status = .running) ∧
  (∀ (s : State) (l : Launch), (loadEvent l s).status = .running)

/-- Rule R178: once a run has ended and no load event is to come, any number of transitions changes nothing, whatever
the interrupt and abort inputs, and nothing is fetched. (That a transition there answers the same state is log 8.) -/
def Obligations.TerminalStatesAreFinal : Prop :=
  ∀ s : State, s.status ≠ .running → memoryPort s = [] ∧
    (s.inputs.loads = [] → ∀ k, core.run k s = .next s)

/-- Every transition answers a next state: the machine never stops with a fault of the model's own and refuses nothing.
It is the model's choice where the rules speak of no step or of no next state: rule R178 says that in Halted and Aborted
the nucleus takes no step, and that a transition answers there is log 8 (DESIGN CHOICE); that an abort is a next state,
and no fault of the model's, is log 10 (DEDUCED). That every fetched word executes or raises is rules R81 and R84. -/
def Obligations.EveryTransitionAnswersNext : Prop := ∀ s : State, ∃ t, step s = .next t

/-! ### Boundaries: injected abort and delegation -/

/-- Rule R187: an abort asserted at the head of a step ends the run there, with the injector's kind and info and the pc
of the instruction not fetched, before any delegation of the same boundary and with nothing driven on the memory port. -/
def Obligations.InjectedAbortEndsTheRun : Prop :=
  ∀ (s : State) (a : AbortRequest), s.status = .running → s.bridge = .idle → s.sample.abortReq = some a →
    memoryPort s = [] ∧ ∃ t, step s = .next t ∧ t.status = .aborted ∧
      t.result = some (.aborted a.kind a.info s.cpu.pc none) ∧ t.cpu = s.cpu ∧ t.mem = s.mem ∧ t.bridge = .idle ∧
      t.shadow = s.shadow

/-- Rule R184: the handshake. A handler that has not returned leaves the guest state captured and the bridge
Delegating; while it is out nothing moves; its return restores the captured state and the same transition goes on to
poll again: to fetch, or to hand over once more. (What one transition spans is log 7.) -/
def Obligations.DelegationCapturesAndRestores : Prop :=
  (∀ s : State, s.status = .running → s.bridge = .idle → s.sample.abortReq = none → s.sample.handlerOut = true →
    ∃ t, step s = .next t ∧ SameGuestView s t ∧ t.bridge = .delegating ∧ t.shadow = s.cpu ∧ delegReq t = true) ∧
  (∀ s : State, s.status = .running → s.bridge = .delegating → s.sample.delegDone = false →
    ∃ t, step s = .next t ∧ SameGuestView s t ∧ t.bridge = .delegating ∧ t.shadow = s.shadow) ∧
  (∀ s : State, s.status = .running → s.bridge = .delegating → s.sample.delegDone = true →
    s.sample.handlerOut = false →
    ∃ u, ReachesFetch s u ∧ u.cpu = s.shadow ∧ u.mem = s.mem ∧ u.bridge = .idle ∧ u.result = s.result ∧
      u.status = .running ∧ delegReq u = false) ∧
  (∀ s : State, s.status = .running → s.bridge = .delegating → s.sample.delegDone = true →
    s.sample.handlerOut = true →
    ∃ t, step s = .next t ∧ t.cpu = s.shadow ∧ t.mem = s.mem ∧ t.bridge = .delegating ∧ t.shadow = s.shadow ∧
      t.status = .running ∧ t.result = s.result)

/-- Rule R185: a delegation changes no guest-visible state, and a run of any length gives the same guest-visible state
with any number of delegations at its boundaries as with none. -/
def Obligations.InterruptsAreTransparent : Prop :=
  (∀ s : State, s.bridge = .idle → SameGuestView s (delegate s)) ∧
  (∀ (n : Nat) (s : State) (bs : List Boundary), s.bridge = .idle → OnlyDelegates bs →
    ∃ t u, core.run n (s.withBoundaries bs) = .next t ∧ core.run n (s.withBoundaries []) = .next u ∧
      SameGuestView u t)

/-! ### Privilege -/

/-- The mode is constant over a run: no transition of a running nucleus changes it (rules R27, R188). -/
def Obligations.ModeIsConstant : Prop :=
  ∀ s t : State, s.Inv → s.status = .running → step s = .next t → t.cpu.mode = s.cpu.mode

/-- The mode matters to the CSR instructions alone: every other instruction does the same in both modes (rule R188). -/
def Obligations.ModeMattersOnlyToCsr : Prop :=
  ∀ (i : Instr) (s : State) (m : Mode), i.isCsr = false →
    ∃ t, exec i s = .next t ∧ exec i (s.withMode m) = .next (t.withMode m)

/-! ### Whole-machine rules -/

/-- Every transition keeps the invariant: memory canonical and in the window, the latch in agreement with the status
(rules R29, R176, R177), runs ending with the bridge idle, and the shadow equal to the Guest CPU State while a handler is
out (rule R30). -/
def Obligations.EveryTransitionKeepsInv : Prop := ∀ s t : State, s.Inv → step s = .next t → t.Inv

/-- The reset state meets the invariant. It rests on the model's own reset launch (logs 1 to 5). -/
def Obligations.ResetMeetsInv : Prop := State.reset.Inv

/-- What the load event leaves where the spec gives a value (rule R38): `x0` zero, the default mode, Running, no valid
latch field, the bridge idle. The other fields of State.reset are the model's choice (logs 1 to 6) and are not here. -/
def Obligations.ResetHoldsTheGivenValues : Prop :=
  State.reset.readReg 0 = 0#32 ∧ State.reset.cpu.mode = .user ∧ State.reset.status = .running ∧
    State.reset.result = none ∧ State.reset.bridge = .idle

/-- A load event at a terminal state starts a run with the launch's registers, pc, mode and halt word, its image's bytes
in the window, status Running, no valid latch field and the bridge idle (rule R200). Three clauses are the model's
choice (log 8, DESIGN CHOICE): that a transition in a terminal state takes the head of the list of loads, that the list is
then its rest, and that the last byte the image gives for an address counts, where rule R200 says `M <- INIT_MEM` alone. -/
def Obligations.LoadEventStartsARun : Prop :=
  ∀ (s : State) (l : Launch) (rest : List Launch), s.status ≠ .running → s.inputs.loads = l :: rest →
    ∃ t, step s = .next t ∧
      (∀ (r : RegIdx) (h : r.val ≠ 0), t.readReg r = l.initX[r.val - 1]'(by omega)) ∧ t.readReg 0 = 0#32 ∧
      t.cpu.pc = l.entryPc ∧ t.cpu.mode = l.initMode ∧ t.status = .running ∧ t.result = none ∧ t.bridge = .idle ∧
      t.inputs.haltWord = l.haltWord ∧ t.inputs.loads = rest ∧
      (∀ (before after : List Host.Cell) (a : Nat) (v : Byte), l.image = before ++ (a, v) :: after →
        (∀ c ∈ after, c.1 ≠ a) → InWindow a → t.mem.read a = v)

/-- Rule R41: confinement. A transition of a running nucleus changes no byte outside the window, and what it does to
everything the guest has does not depend on any byte outside the window. -/
def Obligations.GuestIsConfinedToTheWindow : Prop :=
  ∀ (s t : State) (m : Memory), s.status = .running → s.mem.wf → m.wf →
    (∀ a, InWindow a → m.read a = s.mem.read a) → step s = .next t →
    (∀ a, ¬ InWindow a → t.mem.read a = s.mem.read a) ∧
    ∃ t', step (s.setMem m) = .next t' ∧ t'.cpu = t.cpu ∧ t'.status = t.status ∧ t'.result = t.result ∧
      t'.bridge = t.bridge ∧ t'.shadow = t.shadow ∧ t'.inputs = t.inputs ∧
      (∀ a, InWindow a → t'.mem.read a = t.mem.read a) ∧ (∀ a, ¬ InWindow a → t'.mem.read a = m.read a)

/-- Every byte of every access on the memory port lies in the window (rules R33, R46). -/
def Obligations.MemoryPortStaysInTheWindow : Prop :=
  ∀ s : State, ∀ p ∈ memoryPort s, ∀ a, p.addr.toNat ≤ a → a < p.addr.toNat + p.width.bytes → InWindow a

/-- The port's accesses of one transition (rule R94): none, or one fetch at the pc, then at most one load or store, which
only a load or store instruction makes. A transition that reaches its fetch drives it when the validator accepts it, and
the word it fetches is the port's read data; a load or store instruction then drives exactly its one access when the
validator accepts that, and a load's read data has the bytes of its span in its low bytes; and the access is the one its
definition names, a store's with the low bytes of `x[rs2]`. -/
def Obligations.OneFetchThenAtMostOneDataAccess : Prop :=
  (∀ s : State, memoryPort s = [] ∨
    ∃ u w, Fetches s u w ∧
      (memoryPort s = [FetchOnPort u w] ∨
       ∃ i p, decode w = .ok i ∧ dataAccess i u = some p.toAccessRequest ∧ ReadsFrom u.mem p ∧
         memoryPort s = [FetchOnPort u w, p])) ∧
  (∀ (i : Instr) (s : State) (p : AccessRequest), dataAccess i s = some p →
    (p.kind = .load ∧ i.mnemonic ∈ [Mnemonic.lb, .lh, .lw, .lbu, .lhu]) ∨
    (p.kind = .store ∧ i.mnemonic ∈ [Mnemonic.sb, .sh, .sw])) ∧
  (∀ s u : State, ReachesFetch s u → Accepted .fetch u.cpu.pc .word →
    ∃ w rest, fetchWord u = .ok w ∧ memoryPort s = FetchOnPort u w :: rest) ∧
  (∀ (s u : State) (w : Word) (i : Instr) (p : AccessRequest), Fetches s u w → w ≠ u.inputs.haltWord →
    decode w = .ok i → dataAccess i u = some p → Accepted p.kind p.addr p.width →
    ∃ q, memoryPort s = [FetchOnPort u w, q] ∧ q.toAccessRequest = p ∧ ReadsFrom u.mem q) ∧
  (∀ (rd rs1 : RegIdx) (imm : Word),
    DrivesLoad (.lb rd rs1 imm) rs1 imm .byte ∧ DrivesLoad (.lh rd rs1 imm) rs1 imm .half ∧
    DrivesLoad (.lw rd rs1 imm) rs1 imm .word ∧ DrivesLoad (.lbu rd rs1 imm) rs1 imm .byte ∧
    DrivesLoad (.lhu rd rs1 imm) rs1 imm .half) ∧
  (∀ (rs1 rs2 : RegIdx) (imm : Word),
    DrivesStore (.sb rs1 rs2 imm) rs1 rs2 imm .byte ∧ DrivesStore (.sh rs1 rs2 imm) rs1 rs2 imm .half ∧
    DrivesStore (.sw rs1 rs2 imm) rs1 rs2 imm .word)

/-- A transition that fetches a word other than the halt word which decodes to `i` is `exec i`, on the state the
boundary leaves; that is the state itself when nothing is asserted, and has the same guest state from any idle bridge
(rules R81, R86). -/
def Obligations.StepRunsTheDecodedInstruction : Prop :=
  (∀ (s u : State) (w : Word) (i : Instr), Fetches s u w → w ≠ u.inputs.haltWord → decode w = .ok i →
    step s = exec i u) ∧
  (∀ s : State, Undisturbed s → ReachesFetch s s) ∧
  (∀ s u : State, s.bridge = .idle → ReachesFetch s u → SameGuestView s u ∧ u.bridge = .idle ∧
    u.inputs.haltWord = s.inputs.haltWord)

/-- `withFetchWord` makes the next transition run the instruction of the word, from any state whose pc the validator
accepts for a fetch. It is the model's own operation (log 12). -/
def Obligations.WithFetchWordRunsTheInstruction : Prop :=
  ∀ (s : State) (w : Word) (i : Instr), s.mem.wf → Accepted .fetch s.cpu.pc .word → decode w = .ok i →
    step (s.withFetchWord 32 w.toNat) = exec i (s.withFetchWord 32 w.toNat)

/-! ### The result ports -/

/-- The diagnostics latch on the result ports, with the codes of rules R28 and R29: in a state that meets the invariant
the ports that are valid are exactly those rule R29 marks valid for the status, and they hold the contents it names. A
transition that ends Aborted makes `fault_access` valid exactly when `fault_kind` is 1 and no abort was injected. (That a
port which is not valid is absent is log 16.) -/
def Obligations.ResultPortsFollowTheLatch : Prop :=
  (∀ s : State, s.Inv →
    (s.status = .running → resultPorts s = ⟨0#2, none, none, none, none, none⟩) ∧
    (s.status = .halted → resultPorts s = ⟨1#2, some (s.readReg 10), none, none, none, none⟩) ∧
    (s.status = .aborted → ∃ kind info access, s.result = some (.aborted kind info s.cpu.pc access) ∧
      resultPorts s = ⟨2#2, none, some kind.code, some info, some s.cpu.pc, access.map AccessKind.code⟩ ∧
      (access ≠ none → (resultPorts s).faultKind = some 1#2))) ∧
  (FaultKind.code .outOfRangeAccess = 1#2 ∧ FaultKind.code .illegalInstruction = 2#2 ∧
    FaultKind.code .illegalCsrAccess = 3#2) ∧
  (AccessKind.code .fetch = 0#2 ∧ AccessKind.code .load = 1#2 ∧ AccessKind.code .store = 2#2) ∧
  (∀ s t : State, s.status = .running → step s = .next t → t.status = .aborted →
    ((resultPorts t).faultAccess ≠ none ↔
      (resultPorts t).faultKind = some 1#2 ∧ ¬ (s.bridge = .idle ∧ s.sample.abortReq ≠ none)))
end

