-- ==== Sys2Proof/Laws/Decode.lean ====
section
/-! SUPPORT. The bits of an encoded word: what each field of a word made by one of the six formats is. -/

namespace Sys2Proof

/-! ### Slices of a concatenation -/

theorem extract_high {v w s l : Nat} {x : BitVec v} {y : BitVec w} (h : w ≤ s) :
    (x ++ y).extractLsb' s l = x.extractLsb' (s - w) l := BitVec.extractLsb'_append_eq_of_le h

theorem extract_low {v w s l : Nat} {x : BitVec v} {y : BitVec w} (h : s + l ≤ w) :
    (x ++ y).extractLsb' s l = y.extractLsb' s l := BitVec.extractLsb'_append_eq_of_add_le h

theorem extract_all {w : Nat} (x : BitVec w) : x.extractLsb' 0 w = x := by simp

/-- Two neighbouring slices of a word make one. -/
theorem extract_join {n s k l : Nat} (w : BitVec n) :
    w.extractLsb' (s + l) k ++ w.extractLsb' s l = w.extractLsb' s (k + l) := by
  ext i hi
  by_cases h : i < l
  · simp [BitVec.getElem_append, h]
  · simp [BitVec.getElem_append, h, show s + l + (i - l) = s + i by omega]

/-- Words that agree on the six places of rule R62 are equal. -/
theorem word_ext {w v : Word} (h0 : w.extractLsb' 0 7 = v.extractLsb' 0 7) (h1 : w.extractLsb' 7 5 = v.extractLsb' 7 5)
    (h2 : w.extractLsb' 12 3 = v.extractLsb' 12 3) (h3 : w.extractLsb' 15 5 = v.extractLsb' 15 5)
    (h4 : w.extractLsb' 20 5 = v.extractLsb' 20 5) (h5 : w.extractLsb' 25 7 = v.extractLsb' 25 7) : w = v := by
  have j : ∀ u : Word, u = u.extractLsb' 25 7 ++ (u.extractLsb' 20 5 ++ (u.extractLsb' 15 5 ++
      (u.extractLsb' 12 3 ++ (u.extractLsb' 7 5 ++ u.extractLsb' 0 7)))) := fun u => by
    rw [extract_join (s := 0) (l := 7), extract_join (s := 0) (l := 12), extract_join (s := 0) (l := 15),
      extract_join (s := 0) (l := 20), extract_join (s := 0) (l := 25)]
    exact (extract_all u).symm
  rw [j w, j v, h0, h1, h2, h3, h4, h5]

/-- A masked comparison (rule R70), place by place. -/
theorem masked_iff {w c p : Word} : w &&& c = p ↔
    w.extractLsb' 0 7 &&& c.extractLsb' 0 7 = p.extractLsb' 0 7 ∧
    w.extractLsb' 7 5 &&& c.extractLsb' 7 5 = p.extractLsb' 7 5 ∧
    w.extractLsb' 12 3 &&& c.extractLsb' 12 3 = p.extractLsb' 12 3 ∧
    w.extractLsb' 15 5 &&& c.extractLsb' 15 5 = p.extractLsb' 15 5 ∧
    w.extractLsb' 20 5 &&& c.extractLsb' 20 5 = p.extractLsb' 20 5 ∧
    w.extractLsb' 25 7 &&& c.extractLsb' 25 7 = p.extractLsb' 25 7 := by
  simp only [← BitVec.extractLsb'_and]
  exact ⟨fun h => by subst h; simp only [and_self], fun ⟨h0, h1, h2, h3, h4, h5⟩ => word_ext h0 h1 h2 h3 h4 h5⟩

@[simp] theorem regBits_toFin (r : RegIdx) : (regBits r).toFin = r := rfl
@[simp] theorem regBits_ofBits (b : BitVec 5) : regBits b.toFin = b := rfl

/-! ### The slices of each format -/

theorem bits_0_formatR (f7 : BitVec 7) (rs2 rs1 : RegIdx) (f3 : BitVec 3) (rd : RegIdx) (op : BitVec 7) :
    (formatR f7 rs2 rs1 f3 rd op).extractLsb' 0 7 = op := by
  unfold formatR
  erw [extract_low (by decide)]
  exact extract_all _

theorem bits_7_formatR (f7 : BitVec 7) (rs2 rs1 : RegIdx) (f3 : BitVec 3) (rd : RegIdx) (op : BitVec 7) :
    (formatR f7 rs2 rs1 f3 rd op).extractLsb' 7 5 = regBits rd := by
  unfold formatR
  erw [extract_high (by decide)]
  rw [extract_low (by decide)]
  exact extract_all _

theorem bits_12_formatR (f7 : BitVec 7) (rs2 rs1 : RegIdx) (f3 : BitVec 3) (rd : RegIdx) (op : BitVec 7) :
    (formatR f7 rs2 rs1 f3 rd op).extractLsb' 12 3 = f3 := by
  unfold formatR
  erw [extract_high (by decide)]
  rw [extract_high (by decide), extract_low (by decide)]
  exact extract_all _

theorem bits_15_formatR (f7 : BitVec 7) (rs2 rs1 : RegIdx) (f3 : BitVec 3) (rd : RegIdx) (op : BitVec 7) :
    (formatR f7 rs2 rs1 f3 rd op).extractLsb' 15 5 = regBits rs1 := by
  unfold formatR
  erw [extract_high (by decide)]
  rw [extract_high (by decide), extract_high (by decide), extract_low (by decide)]
  exact extract_all _

theorem bits_20_formatR (f7 : BitVec 7) (rs2 rs1 : RegIdx) (f3 : BitVec 3) (rd : RegIdx) (op : BitVec 7) :
    (formatR f7 rs2 rs1 f3 rd op).extractLsb' 20 5 = regBits rs2 := by
  unfold formatR
  erw [extract_high (by decide)]
  rw [extract_high (by decide), extract_high (by decide), extract_high (by decide), extract_low (by decide)]
  exact extract_all _

theorem bits_25_formatR (f7 : BitVec 7) (rs2 rs1 : RegIdx) (f3 : BitVec 3) (rd : RegIdx) (op : BitVec 7) :
    (formatR f7 rs2 rs1 f3 rd op).extractLsb' 25 7 = f7 := by
  unfold formatR
  erw [extract_high (by decide)]
  rw [extract_high (by decide), extract_high (by decide), extract_high (by decide), extract_high (by decide)]
  exact extract_all _

theorem bits_0_formatI (imm : BitVec 12) (rs1 : BitVec 5) (f3 : BitVec 3) (rd : RegIdx) (op : BitVec 7) :
    (formatI imm rs1 f3 rd op).extractLsb' 0 7 = op := by
  unfold formatI
  erw [extract_low (by decide)]
  exact extract_all _

theorem bits_7_formatI (imm : BitVec 12) (rs1 : BitVec 5) (f3 : BitVec 3) (rd : RegIdx) (op : BitVec 7) :
    (formatI imm rs1 f3 rd op).extractLsb' 7 5 = regBits rd := by
  unfold formatI
  erw [extract_high (by decide)]
  rw [extract_low (by decide)]
  exact extract_all _

theorem bits_12_formatI (imm : BitVec 12) (rs1 : BitVec 5) (f3 : BitVec 3) (rd : RegIdx) (op : BitVec 7) :
    (formatI imm rs1 f3 rd op).extractLsb' 12 3 = f3 := by
  unfold formatI
  erw [extract_high (by decide)]
  rw [extract_high (by decide), extract_low (by decide)]
  exact extract_all _

theorem bits_15_formatI (imm : BitVec 12) (rs1 : BitVec 5) (f3 : BitVec 3) (rd : RegIdx) (op : BitVec 7) :
    (formatI imm rs1 f3 rd op).extractLsb' 15 5 = rs1 := by
  unfold formatI
  erw [extract_high (by decide)]
  rw [extract_high (by decide), extract_high (by decide), extract_low (by decide)]
  exact extract_all _

theorem bits_20_formatI (imm : BitVec 12) (rs1 : BitVec 5) (f3 : BitVec 3) (rd : RegIdx) (op : BitVec 7) :
    (formatI imm rs1 f3 rd op).extractLsb' 20 12 = imm := by
  unfold formatI
  erw [extract_high (by decide)]
  rw [extract_high (by decide), extract_high (by decide), extract_high (by decide)]
  exact extract_all _

theorem bits_0_formatShift (f7 : BitVec 7) (sh : BitVec 5) (rs1 : RegIdx) (f3 : BitVec 3) (rd : RegIdx) (op : BitVec 7) :
    (formatShift f7 sh rs1 f3 rd op).extractLsb' 0 7 = op := by
  unfold formatShift
  erw [extract_low (by decide)]
  exact extract_all _

theorem bits_7_formatShift (f7 : BitVec 7) (sh : BitVec 5) (rs1 : RegIdx) (f3 : BitVec 3) (rd : RegIdx) (op : BitVec 7) :
    (formatShift f7 sh rs1 f3 rd op).extractLsb' 7 5 = regBits rd := by
  unfold formatShift
  erw [extract_high (by decide)]
  rw [extract_low (by decide)]
  exact extract_all _

theorem bits_12_formatShift (f7 : BitVec 7) (sh : BitVec 5) (rs1 : RegIdx) (f3 : BitVec 3) (rd : RegIdx) (op : BitVec 7) :
    (formatShift f7 sh rs1 f3 rd op).extractLsb' 12 3 = f3 := by
  unfold formatShift
  erw [extract_high (by decide)]
  rw [extract_high (by decide), extract_low (by decide)]
  exact extract_all _

theorem bits_15_formatShift (f7 : BitVec 7) (sh : BitVec 5) (rs1 : RegIdx) (f3 : BitVec 3) (rd : RegIdx) (op : BitVec 7) :
    (formatShift f7 sh rs1 f3 rd op).extractLsb' 15 5 = regBits rs1 := by
  unfold formatShift
  erw [extract_high (by decide)]
  rw [extract_high (by decide), extract_high (by decide), extract_low (by decide)]
  exact extract_all _

theorem bits_20_formatShift (f7 : BitVec 7) (sh : BitVec 5) (rs1 : RegIdx) (f3 : BitVec 3) (rd : RegIdx) (op : BitVec 7) :
    (formatShift f7 sh rs1 f3 rd op).extractLsb' 20 5 = sh := by
  unfold formatShift
  erw [extract_high (by decide)]
  rw [extract_high (by decide), extract_high (by decide), extract_high (by decide), extract_low (by decide)]
  exact extract_all _

theorem bits_25_formatShift (f7 : BitVec 7) (sh : BitVec 5) (rs1 : RegIdx) (f3 : BitVec 3) (rd : RegIdx) (op : BitVec 7) :
    (formatShift f7 sh rs1 f3 rd op).extractLsb' 25 7 = f7 := by
  unfold formatShift
  erw [extract_high (by decide)]
  rw [extract_high (by decide), extract_high (by decide), extract_high (by decide), extract_high (by decide)]
  exact extract_all _

theorem bits_0_formatS (imm : Word) (rs2 rs1 : RegIdx) (f3 : BitVec 3) (op : BitVec 7) :
    (formatS imm rs2 rs1 f3 op).extractLsb' 0 7 = op := by
  unfold formatS
  erw [extract_low (by decide)]
  exact extract_all _

theorem bits_7_formatS (imm : Word) (rs2 rs1 : RegIdx) (f3 : BitVec 3) (op : BitVec 7) :
    (formatS imm rs2 rs1 f3 op).extractLsb' 7 5 = imm.extractLsb' 0 5 := by
  unfold formatS
  erw [extract_high (by decide)]
  rw [extract_low (by decide)]
  exact extract_all _

theorem bits_12_formatS (imm : Word) (rs2 rs1 : RegIdx) (f3 : BitVec 3) (op : BitVec 7) :
    (formatS imm rs2 rs1 f3 op).extractLsb' 12 3 = f3 := by
  unfold formatS
  erw [extract_high (by decide)]
  rw [extract_high (by decide), extract_low (by decide)]
  exact extract_all _

theorem bits_15_formatS (imm : Word) (rs2 rs1 : RegIdx) (f3 : BitVec 3) (op : BitVec 7) :
    (formatS imm rs2 rs1 f3 op).extractLsb' 15 5 = regBits rs1 := by
  unfold formatS
  erw [extract_high (by decide)]
  rw [extract_high (by decide), extract_high (by decide), extract_low (by decide)]
  exact extract_all _

theorem bits_20_formatS (imm : Word) (rs2 rs1 : RegIdx) (f3 : BitVec 3) (op : BitVec 7) :
    (formatS imm rs2 rs1 f3 op).extractLsb' 20 5 = regBits rs2 := by
  unfold formatS
  erw [extract_high (by decide)]
  rw [extract_high (by decide), extract_high (by decide), extract_high (by decide), extract_low (by decide)]
  exact extract_all _

theorem bits_25_formatS (imm : Word) (rs2 rs1 : RegIdx) (f3 : BitVec 3) (op : BitVec 7) :
    (formatS imm rs2 rs1 f3 op).extractLsb' 25 7 = imm.extractLsb' 5 7 := by
  unfold formatS
  erw [extract_high (by decide)]
  rw [extract_high (by decide), extract_high (by decide), extract_high (by decide), extract_high (by decide)]
  exact extract_all _

theorem bits_0_formatB (imm : Word) (rs2 rs1 : RegIdx) (f3 : BitVec 3) (op : BitVec 7) :
    (formatB imm rs2 rs1 f3 op).extractLsb' 0 7 = op := by
  unfold formatB
  erw [extract_low (by decide)]
  exact extract_all _

theorem bits_7_formatB (imm : Word) (rs2 rs1 : RegIdx) (f3 : BitVec 3) (op : BitVec 7) :
    (formatB imm rs2 rs1 f3 op).extractLsb' 7 1 = imm.extractLsb' 11 1 := by
  unfold formatB
  erw [extract_high (by decide)]
  rw [extract_low (by decide)]
  exact extract_all _

theorem bits_8_formatB (imm : Word) (rs2 rs1 : RegIdx) (f3 : BitVec 3) (op : BitVec 7) :
    (formatB imm rs2 rs1 f3 op).extractLsb' 8 4 = imm.extractLsb' 1 4 := by
  unfold formatB
  erw [extract_high (by decide)]
  rw [extract_high (by decide), extract_low (by decide)]
  exact extract_all _

theorem bits_12_formatB (imm : Word) (rs2 rs1 : RegIdx) (f3 : BitVec 3) (op : BitVec 7) :
    (formatB imm rs2 rs1 f3 op).extractLsb' 12 3 = f3 := by
  unfold formatB
  erw [extract_high (by decide)]
  rw [extract_high (by decide), extract_high (by decide), extract_low (by decide)]
  exact extract_all _

theorem bits_15_formatB (imm : Word) (rs2 rs1 : RegIdx) (f3 : BitVec 3) (op : BitVec 7) :
    (formatB imm rs2 rs1 f3 op).extractLsb' 15 5 = regBits rs1 := by
  unfold formatB
  erw [extract_high (by decide)]
  rw [extract_high (by decide), extract_high (by decide), extract_high (by decide), extract_low (by decide)]
  exact extract_all _

theorem bits_20_formatB (imm : Word) (rs2 rs1 : RegIdx) (f3 : BitVec 3) (op : BitVec 7) :
    (formatB imm rs2 rs1 f3 op).extractLsb' 20 5 = regBits rs2 := by
  unfold formatB
  erw [extract_high (by decide)]
  rw [extract_high (by decide), extract_high (by decide), extract_high (by decide), extract_high (by decide), extract_low (by decide)]
  exact extract_all _

theorem bits_25_formatB (imm : Word) (rs2 rs1 : RegIdx) (f3 : BitVec 3) (op : BitVec 7) :
    (formatB imm rs2 rs1 f3 op).extractLsb' 25 6 = imm.extractLsb' 5 6 := by
  unfold formatB
  erw [extract_high (by decide)]
  rw [extract_high (by decide), extract_high (by decide), extract_high (by decide), extract_high (by decide), extract_high (by decide), extract_low (by decide)]
  exact extract_all _

theorem bits_31_formatB (imm : Word) (rs2 rs1 : RegIdx) (f3 : BitVec 3) (op : BitVec 7) :
    (formatB imm rs2 rs1 f3 op).extractLsb' 31 1 = imm.extractLsb' 12 1 := by
  unfold formatB
  erw [extract_high (by decide)]
  rw [extract_high (by decide), extract_high (by decide), extract_high (by decide), extract_high (by decide), extract_high (by decide), extract_high (by decide)]
  exact extract_all _

theorem bits_0_formatU (imm : Word) (rd : RegIdx) (op : BitVec 7) :
    (formatU imm rd op).extractLsb' 0 7 = op := by
  unfold formatU
  erw [extract_low (by decide)]
  exact extract_all _

theorem bits_7_formatU (imm : Word) (rd : RegIdx) (op : BitVec 7) :
    (formatU imm rd op).extractLsb' 7 5 = regBits rd := by
  unfold formatU
  erw [extract_high (by decide)]
  rw [extract_low (by decide)]
  exact extract_all _

theorem bits_12_formatU (imm : Word) (rd : RegIdx) (op : BitVec 7) :
    (formatU imm rd op).extractLsb' 12 20 = imm.extractLsb' 12 20 := by
  unfold formatU
  erw [extract_high (by decide)]
  rw [extract_high (by decide)]
  exact extract_all _

theorem bits_0_formatJ (imm : Word) (rd : RegIdx) (op : BitVec 7) :
    (formatJ imm rd op).extractLsb' 0 7 = op := by
  unfold formatJ
  erw [extract_low (by decide)]
  exact extract_all _

theorem bits_7_formatJ (imm : Word) (rd : RegIdx) (op : BitVec 7) :
    (formatJ imm rd op).extractLsb' 7 5 = regBits rd := by
  unfold formatJ
  erw [extract_high (by decide)]
  rw [extract_low (by decide)]
  exact extract_all _

theorem bits_12_formatJ (imm : Word) (rd : RegIdx) (op : BitVec 7) :
    (formatJ imm rd op).extractLsb' 12 8 = imm.extractLsb' 12 8 := by
  unfold formatJ
  erw [extract_high (by decide)]
  rw [extract_high (by decide), extract_low (by decide)]
  exact extract_all _

theorem bits_20_formatJ (imm : Word) (rd : RegIdx) (op : BitVec 7) :
    (formatJ imm rd op).extractLsb' 20 1 = imm.extractLsb' 11 1 := by
  unfold formatJ
  erw [extract_high (by decide)]
  rw [extract_high (by decide), extract_high (by decide), extract_low (by decide)]
  exact extract_all _

theorem bits_21_formatJ (imm : Word) (rd : RegIdx) (op : BitVec 7) :
    (formatJ imm rd op).extractLsb' 21 10 = imm.extractLsb' 1 10 := by
  unfold formatJ
  erw [extract_high (by decide)]
  rw [extract_high (by decide), extract_high (by decide), extract_high (by decide), extract_low (by decide)]
  exact extract_all _

theorem bits_31_formatJ (imm : Word) (rd : RegIdx) (op : BitVec 7) :
    (formatJ imm rd op).extractLsb' 31 1 = imm.extractLsb' 20 1 := by
  unfold formatJ
  erw [extract_high (by decide)]
  rw [extract_high (by decide), extract_high (by decide), extract_high (by decide), extract_high (by decide)]
  exact extract_all _

/-! ### Immediates of the formats, for the operands that fit them -/

/-- A slice of a slice. -/
theorem extract_extract {n s k s' l : Nat} (w : BitVec n) (h : s' + l ≤ k) :
    (w.extractLsb' s k).extractLsb' s' l = w.extractLsb' (s + s') l := by
  ext i hi
  simp [show s' + i < k by omega, Nat.add_assoc]

theorem extract_zero {n : Nat} (v : Word) : v.extractLsb' 0 n = v.setWidth n := by
  ext i hi
  simp [BitVec.getLsbD_eq_getElem?_getD]

theorem signExtend_of_fitsSigned {n : Nat} {v : Word} (h : fitsSigned n v = true) :
    (v.extractLsb' 0 n).signExtend 32 = v := by
  simpa [fitsSigned, extract_zero] using h

theorem immI_formatI {imm : Word} (rs1 : BitVec 5) (f3 : BitVec 3) (rd : RegIdx) (op : BitVec 7)
    (h : fitsImm12 imm = true) : immI (formatI (imm.setWidth 12) rs1 f3 rd op) = imm := by
  rw [immI, bits_20_formatI]
  simpa [fitsImm12, fitsSigned] using h

theorem immS_formatS {imm : Word} (rs2 rs1 : RegIdx) (f3 : BitVec 3) (op : BitVec 7) (h : fitsImm12 imm = true) :
    immS (formatS imm rs2 rs1 f3 op) = imm := by
  rw [immS, bits_25_formatS, bits_7_formatS, extract_join (s := 0) (k := 7) (l := 5)]
  exact signExtend_of_fitsSigned h

theorem lowBit_zero {v : Word} (h : v.getLsbD 0 = false) : v.extractLsb' 0 1 = 0#1 := by
  ext i hi
  obtain rfl : i = 0 := by omega
  simpa using h

theorem immB_formatB {imm : Word} (rs2 rs1 : RegIdx) (f3 : BitVec 3) (op : BitVec 7) (h : fitsBranch imm = true) :
    immB (formatB imm rs2 rs1 f3 op) = imm := by
  simp only [fitsBranch, Bool.and_eq_true, Bool.not_eq_true'] at h
  rw [immB, bits_31_formatB, bits_7_formatB, bits_25_formatB, bits_8_formatB, ← lowBit_zero h.2,
    extract_join (s := 11) (k := 1) (l := 1), extract_join (s := 5) (k := 2) (l := 6),
    extract_join (s := 1) (k := 8) (l := 4), extract_join (s := 0) (k := 12) (l := 1)]
  exact signExtend_of_fitsSigned h.1

theorem immJ_formatJ {imm : Word} (rd : RegIdx) (op : BitVec 7) (h : fitsJump imm = true) :
    immJ (formatJ imm rd op) = imm := by
  simp only [fitsJump, Bool.and_eq_true, Bool.not_eq_true'] at h
  rw [immJ, bits_31_formatJ, bits_12_formatJ, bits_20_formatJ, bits_21_formatJ, ← lowBit_zero h.2,
    extract_join (s := 12) (k := 1) (l := 8), extract_join (s := 11) (k := 9) (l := 1),
    extract_join (s := 1) (k := 10) (l := 10), extract_join (s := 0) (k := 20) (l := 1)]
  exact signExtend_of_fitsSigned h.1

theorem immU_formatU {imm : Word} (rd : RegIdx) (op : BitVec 7) (h : fitsUpper imm = true) :
    immU (formatU imm rd op) = imm := by
  have h0 : imm.extractLsb' 0 12 = 0#12 := by simpa [fitsUpper, extract_zero] using h
  rw [immU, bits_12_formatU, ← h0, extract_join (s := 0) (k := 20) (l := 12)]
  exact extract_all imm

end Sys2Proof
end

