-- ==== Sys2Proof/Laws/State.lean ====
section
/-! SUPPORT. One lemma per field per update of the state, so that no later proof unfolds a record update. -/

namespace Sys2Proof.Machine

variable (s : State) (r : RegIdx) (v t : Word) (k : FaultKind) (a : Option AccessKind)

@[simp] theorem writeReg_mem : (s.writeReg r v).mem = s.mem := rfl
@[simp] theorem writeReg_status : (s.writeReg r v).status = s.status := rfl
@[simp] theorem writeReg_result : (s.writeReg r v).result = s.result := rfl
@[simp] theorem writeReg_bridge : (s.writeReg r v).bridge = s.bridge := rfl
@[simp] theorem writeReg_shadow : (s.writeReg r v).shadow = s.shadow := rfl
@[simp] theorem writeReg_inputs : (s.writeReg r v).inputs = s.inputs := rfl
@[simp] theorem writeReg_cpu : (s.writeReg r v).cpu = s.cpu.setReg r v := rfl

@[simp] theorem setPc_mem : (s.setPc t).mem = s.mem := rfl
@[simp] theorem setPc_status : (s.setPc t).status = s.status := rfl
@[simp] theorem setPc_result : (s.setPc t).result = s.result := rfl
@[simp] theorem setPc_bridge : (s.setPc t).bridge = s.bridge := rfl
@[simp] theorem setPc_shadow : (s.setPc t).shadow = s.shadow := rfl
@[simp] theorem setPc_inputs : (s.setPc t).inputs = s.inputs := rfl
@[simp] theorem setPc_pc : (s.setPc t).cpu.pc = t := rfl
@[simp] theorem setPc_mode : (s.setPc t).cpu.mode = s.cpu.mode := rfl
@[simp] theorem setPc_readReg : (s.setPc t).readReg r = s.readReg r := rfl

@[simp] theorem setMem_cpu (m : Memory) : (s.setMem m).cpu = s.cpu := rfl
@[simp] theorem setMem_mem (m : Memory) : (s.setMem m).mem = m := rfl
@[simp] theorem setMem_status (m : Memory) : (s.setMem m).status = s.status := rfl
@[simp] theorem setMem_result (m : Memory) : (s.setMem m).result = s.result := rfl
@[simp] theorem setMem_bridge (m : Memory) : (s.setMem m).bridge = s.bridge := rfl
@[simp] theorem setMem_shadow (m : Memory) : (s.setMem m).shadow = s.shadow := rfl
@[simp] theorem setMem_inputs (m : Memory) : (s.setMem m).inputs = s.inputs := rfl
@[simp] theorem setMem_readReg (m : Memory) : (s.setMem m).readReg r = s.readReg r := rfl

theorem nextPc_eq : s.nextPc = s.cpu.pc + 4#32 := rfl

@[simp] theorem advance_mem : s.advance.mem = s.mem := rfl
@[simp] theorem advance_status : s.advance.status = s.status := rfl
@[simp] theorem advance_result : s.advance.result = s.result := rfl
@[simp] theorem advance_bridge : s.advance.bridge = s.bridge := rfl
@[simp] theorem advance_shadow : s.advance.shadow = s.shadow := rfl
@[simp] theorem advance_inputs : s.advance.inputs = s.inputs := rfl
@[simp] theorem advance_pc : s.advance.cpu.pc = s.cpu.pc + 4#32 := rfl
@[simp] theorem advance_mode : s.advance.cpu.mode = s.cpu.mode := rfl
@[simp] theorem advance_readReg : s.advance.readReg r = s.readReg r := rfl

@[simp] theorem raise_cpu : (raise k v a s).cpu = s.cpu := rfl
@[simp] theorem raise_mem : (raise k v a s).mem = s.mem := rfl
@[simp] theorem raise_status : (raise k v a s).status = .aborted := rfl
@[simp] theorem raise_result : (raise k v a s).result = some (.aborted k v s.cpu.pc a) := rfl
@[simp] theorem raise_bridge : (raise k v a s).bridge = s.bridge := rfl
@[simp] theorem raise_shadow : (raise k v a s).shadow = s.shadow := rfl
@[simp] theorem raise_inputs : (raise k v a s).inputs = s.inputs := rfl

@[simp] theorem halt_mem : (halt s).mem = s.mem := rfl
@[simp] theorem halt_status : (halt s).status = .halted := rfl
@[simp] theorem halt_result : (halt s).result = some (.halted (s.readReg 10)) := rfl
@[simp] theorem halt_bridge : (halt s).bridge = s.bridge := rfl
@[simp] theorem halt_shadow : (halt s).shadow = s.shadow := rfl
@[simp] theorem halt_inputs : (halt s).inputs = s.inputs := rfl
@[simp] theorem halt_pc : (halt s).cpu.pc = s.cpu.pc + 4#32 := rfl
@[simp] theorem halt_mode : (halt s).cpu.mode = s.cpu.mode := rfl
@[simp] theorem halt_readReg : (halt s).readReg r = s.readReg r := rfl

@[simp] theorem capture_cpu : (capture s).cpu = s.cpu := rfl
@[simp] theorem capture_mem : (capture s).mem = s.mem := rfl
@[simp] theorem capture_status : (capture s).status = s.status := rfl
@[simp] theorem capture_result : (capture s).result = s.result := rfl
@[simp] theorem capture_bridge : (capture s).bridge = .delegating := rfl
@[simp] theorem capture_shadow : (capture s).shadow = s.cpu := rfl
@[simp] theorem capture_inputs : (capture s).inputs = s.inputs := rfl

@[simp] theorem restore_cpu : (restore s).cpu = s.shadow := rfl
@[simp] theorem restore_mem : (restore s).mem = s.mem := rfl
@[simp] theorem restore_status : (restore s).status = s.status := rfl
@[simp] theorem restore_result : (restore s).result = s.result := rfl
@[simp] theorem restore_bridge : (restore s).bridge = .idle := rfl
@[simp] theorem restore_shadow : (restore s).shadow = s.shadow := rfl
@[simp] theorem restore_inputs : (restore s).inputs = s.inputs := rfl

@[simp] theorem afterSample_cpu : s.afterSample.cpu = s.cpu := rfl
@[simp] theorem afterSample_mem : s.afterSample.mem = s.mem := rfl
@[simp] theorem afterSample_status : s.afterSample.status = s.status := rfl
@[simp] theorem afterSample_result : s.afterSample.result = s.result := rfl
@[simp] theorem afterSample_bridge : s.afterSample.bridge = s.bridge := rfl
@[simp] theorem afterSample_shadow : s.afterSample.shadow = s.shadow := rfl
@[simp] theorem afterSample_haltWord : s.afterSample.inputs.haltWord = s.inputs.haltWord := rfl
@[simp] theorem afterSample_loads : s.afterSample.inputs.loads = s.inputs.loads := rfl
@[simp] theorem afterSample_boundaries : s.afterSample.inputs.boundaries = s.inputs.boundaries.tail := rfl

end Sys2Proof.Machine
end

