-- ==== Sys2Proof/Laws/Memory.lean ====
section
/-! SUPPORT. Memory: every operation keeps the canonical form and stays in the window, a read after a write, and one
lemma for each of the validator, `memRead` and `memWrite` that says all it can do. -/

namespace Sys2Proof.Machine

open Config

theorem Memory.read_entry_self (a : Nat) (v : Byte) (rest : Memory) (h : Memory.read rest a = unlistedByte) :
    Memory.read (Memory.entry a v rest) a = v := by
  unfold Memory.entry
  split
  · rw [h]; exact (by assumption : v = unlistedByte).symm
  · simp [Memory.read]

theorem Memory.read_entry_other {a b : Nat} (v : Byte) (rest : Memory) (h : b ≠ a) :
    Memory.read (Memory.entry a v rest) b = Memory.read rest b := by
  unfold Memory.entry
  split
  · rfl
  · simp [Memory.read, h.symm]

/-- An address below every entry reads as unlisted. -/
theorem Memory.read_unlisted {a : Nat} : ∀ {m : Memory}, (∀ c ∈ m, a < c.1) → Memory.read m a = unlistedByte
  | [], _ => rfl
  | c :: rest, h => by
    have hc := h c (by simp)
    have hr := Memory.read_unlisted (m := rest) fun d hd => h d (by simp [hd])
    simp [Memory.read, hr, Nat.ne_of_gt hc]

/-- A write leaves every other address alone. -/
theorem Memory.read_write_other {a b : Nat} (v : Byte) (h : b ≠ a) :
    ∀ m : Memory, Memory.read (Memory.write m a v) b = Memory.read m b
  | [] => Memory.read_entry_other v [] h
  | c :: rest => by
    have ih := Memory.read_write_other v h rest
    by_cases hlt : a < c.1
    · simp [Memory.write, hlt, Memory.read_entry_other v _ h]
    · by_cases heq : a = c.1
      · subst heq
        simp [Memory.write, Memory.read_entry_other v rest h, Memory.read, Ne.symm h]
      · simp [Memory.write, hlt, heq, Memory.read, ih]

/-- A read after a write to the same address gives the value written. -/
theorem Memory.read_write_self (a : Nat) (v : Byte) :
    ∀ {m : Memory}, m.wf → Memory.read (Memory.write m a v) a = v
  | [], _ => Memory.read_entry_self a v [] rfl
  | c :: rest, h => by
    obtain ⟨hs, hn⟩ := h
    rw [List.pairwise_cons] at hs
    have hrest : Memory.wf rest := ⟨hs.2, fun d hd => hn d (by simp [hd])⟩
    by_cases hlt : a < c.1
    · simp only [Memory.write, hlt, if_true]
      refine Memory.read_entry_self a v _ (Memory.read_unlisted fun d hd => ?_)
      rcases List.mem_cons.mp hd with rfl | hd
      · exact hlt
      · exact Nat.lt_trans hlt (hs.1 d hd)
    · by_cases heq : a = c.1
      · subst heq
        simp only [Memory.write, Nat.lt_irrefl, if_false, if_true]
        exact Memory.read_entry_self c.1 v rest (Memory.read_unlisted fun d hd => hs.1 d hd)
      · simp [Memory.write, hlt, heq, Memory.read, Memory.read_write_self a v hrest, Ne.symm heq]

theorem Memory.read_write {m : Memory} (h : m.wf) (a b : Nat) (v : Byte) :
    (m.write a v).read b = if b = a then v else m.read b := by
  by_cases hb : b = a
  · subst hb; simp [Memory.read_write_self _ v h]
  · simp [hb, Memory.read_write_other v hb m]

theorem Memory.mem_entry {a : Nat} {v : Byte} {rest : Memory} {c : Host.Cell} (h : c ∈ Memory.entry a v rest) :
    c = (a, v) ∧ v ≠ unlistedByte ∨ c ∈ rest := by
  unfold Memory.entry at h
  split at h
  · exact .inr h
  · rcases List.mem_cons.mp h with rfl | h
    · exact .inl ⟨rfl, by assumption⟩
    · exact .inr h

/-- The entries after a write are the new one and old ones. -/
theorem Memory.mem_write {a : Nat} {v : Byte} {c : Host.Cell} :
    ∀ {m : Memory}, c ∈ Memory.write m a v → c = (a, v) ∧ v ≠ unlistedByte ∨ c ∈ m
  | [], h => Memory.mem_entry h
  | d :: rest, h => by
    by_cases hlt : a < d.1
    · exact Memory.mem_entry (by simpa [Memory.write, hlt] using h)
    · by_cases heq : a = d.1
      · rcases Memory.mem_entry (rest := rest) (by simpa [Memory.write, hlt, heq] using h) with ⟨rfl, hv⟩ | h
        · exact .inl ⟨by rw [heq], hv⟩
        · exact .inr (by simp [h])
      · simp only [Memory.write, hlt, heq, if_false] at h
        rcases List.mem_cons.mp h with rfl | h
        · exact .inr (by simp)
        · rcases Memory.mem_write h with h | h
          · exact .inl h
          · exact .inr (by simp [h])

theorem Memory.entry_wf {a : Nat} (v : Byte) {rest : Memory} (h : rest.wf) (hlt : ∀ c ∈ rest, a < c.1) :
    (Memory.entry a v rest).wf := by
  unfold Memory.entry
  split
  · exact h
  · refine ⟨List.pairwise_cons.mpr ⟨hlt, h.1⟩, fun c hc => ?_⟩
    rcases List.mem_cons.mp hc with rfl | hc
    · assumption
    · exact h.2 c hc

/-- A write keeps the canonical form. -/
theorem Memory.write_wf (a : Nat) (v : Byte) : ∀ {m : Memory}, m.wf → (m.write a v).wf
  | [], h => Memory.entry_wf v h (by simp)
  | c :: rest, h => by
    have hs := List.pairwise_cons.mp h.1
    have hrest : Memory.wf rest := ⟨hs.2, fun d hd => h.2 d (by simp [hd])⟩
    by_cases hlt : a < c.1
    · simp only [Memory.write, hlt, if_true]
      refine Memory.entry_wf v h fun d hd => ?_
      rcases List.mem_cons.mp hd with rfl | hd
      · exact hlt
      · exact Nat.lt_trans hlt (hs.1 d hd)
    · by_cases heq : a = c.1
      · subst heq
        simp only [Memory.write, Nat.lt_irrefl, if_false, if_true]
        exact Memory.entry_wf v hrest hs.1
      · have ih := Memory.write_wf a v hrest
        simp only [Memory.write, hlt, heq, if_false]
        refine ⟨List.pairwise_cons.mpr ⟨fun d hd => ?_, ih.1⟩, fun d hd => ?_⟩
        · rcases Memory.mem_write hd with ⟨rfl, -⟩ | hd
          · exact Nat.lt_of_le_of_ne (Nat.le_of_not_lt hlt) (Ne.symm heq)
          · exact hs.1 d hd
        · rcases List.mem_cons.mp hd with rfl | hd
          · exact h.2 _ (by simp)
          · exact ih.2 d hd

/-- A write inside the window stays inside. -/
theorem Memory.write_confined {m : Memory} {a : Nat} (v : Byte) (h : m.confined) (ha : InWindow a) :
    (m.write a v).confined := fun c hc => by
  rcases Memory.mem_write hc with ⟨rfl, -⟩ | hc
  · exact ha
  · exact h c hc

theorem Memory.writeBytes_wf : ∀ (vs : List Byte) {m : Memory} (a : Nat), m.wf → (m.writeBytes a vs).wf
  | [], _, _, h => h
  | v :: vs, _, a, h => Memory.writeBytes_wf vs (a + 1) (Memory.write_wf a v h)

theorem Memory.writeBytes_confined : ∀ (vs : List Byte) {m : Memory} (a : Nat), m.confined →
    (∀ k < vs.length, InWindow (a + k)) → (m.writeBytes a vs).confined
  | [], _, _, h, _ => h
  | v :: vs, _, a, h, hin =>
    Memory.writeBytes_confined vs (a + 1) (Memory.write_confined v h (by simpa using hin 0 (by simp)))
      fun k hk => by simpa [Nat.add_assoc, Nat.add_comm 1 k] using hin (k + 1) (by simpa using hk)

/-- Every byte after a run of writes. -/
theorem Memory.read_writeBytes (b : Nat) : ∀ (vs : List Byte) {m : Memory} (a : Nat), m.wf →
    (m.writeBytes a vs).read b = if h : a ≤ b ∧ b < a + vs.length then vs[b - a]'(by omega) else m.read b
  | [], _, a, _ => by
    have : ¬ (a ≤ b ∧ b < a + 0) := by omega
    simp only [Memory.writeBytes, List.length_nil, this, dite_false]
  | v :: vs, m, a, h => by
    rw [Memory.writeBytes, Memory.read_writeBytes b vs (a + 1) (Memory.write_wf a v h), Memory.read_write h]
    by_cases hba : b = a
    · subst hba
      have : ¬ (b + 1 ≤ b ∧ b < b + 1 + vs.length) := by omega
      simp
    · by_cases hin : a + 1 ≤ b ∧ b < a + 1 + vs.length
      · have hin' : a ≤ b ∧ b < a + (v :: vs).length := by simp; omega
        have hk : b - a = (b - (a + 1)) + 1 := by omega
        simp only [hin, hin', and_self, dite_true]
        simp [hk]
      · have hin' : ¬ (a ≤ b ∧ b < a + (v :: vs).length) := by simp; omega
        rw [dif_neg hin, dif_neg hin', if_neg hba]

/-- Outside the bytes written, a run of writes changes nothing, whatever the memory's form. -/
theorem Memory.read_writeBytes_other {b : Nat} : ∀ (vs : List Byte) (m : Memory) (a : Nat),
    ¬ (a ≤ b ∧ b < a + vs.length) → (m.writeBytes a vs).read b = m.read b
  | [], _, _, _ => rfl
  | v :: vs, m, a, h => by
    have h1 : ¬ (a + 1 ≤ b ∧ b < a + 1 + vs.length) := by simp at h; omega
    have h2 : b ≠ a := by rintro rfl; simp at h
    rw [Memory.writeBytes, Memory.read_writeBytes_other vs _ _ h1, Memory.read_write_other v h2]

/-- The image of a load event is canonical. -/
theorem Memory.ofImage_wf (image : List Host.Cell) : (Memory.ofImage image).wf := by
  unfold Memory.ofImage
  suffices ∀ m : Memory, m.wf → (image.foldl (fun m c =>
      if windowLo ≤ c.1 ∧ c.1 ≤ windowHi then m.write c.1 c.2 else m) m).wf from this [] ⟨.nil, by simp⟩
  induction image with
  | nil => exact fun _ h => h
  | cons c rest ih =>
    intro m h
    rw [List.foldl_cons]
    exact ih _ (by split; exacts [Memory.write_wf _ _ h, h])

/-- The image of a load event lies in the window. -/
theorem Memory.ofImage_confined (image : List Host.Cell) : (Memory.ofImage image).confined := by
  unfold Memory.ofImage
  suffices ∀ m : Memory, m.confined → (image.foldl (fun m c =>
      if windowLo ≤ c.1 ∧ c.1 ≤ windowHi then m.write c.1 c.2 else m) m).confined from this [] (by simp)
  induction image with
  | nil => exact fun _ h => h
  | cons c rest ih =>
    intro m h
    rw [List.foldl_cons]
    exact ih _ (by split; exacts [Memory.write_confined _ h (by assumption), h])

/-! ### The validator and the two accesses -/

/-- All the validator can answer. -/
theorem confine_cases (k : AccessKind) (a : Word) (n : AccessWidth) :
    (confine k a n = .ok () ∧ windowLo ≤ a.toNat ∧ a.toNat + n.bytes - 1 ≤ windowHi) ∨
    (confine k a n = .error ⟨k, a⟩ ∧ ¬ (windowLo ≤ a.toNat ∧ a.toNat + n.bytes - 1 ≤ windowHi)) := by
  unfold confine
  split
  · exact .inl ⟨rfl, by assumption⟩
  · exact .inr ⟨rfl, by assumption⟩

/-- All a read can answer. -/
theorem memRead_cases (k : AccessKind) (a : Word) (n : AccessWidth) (s : State) :
    (Accepted k a n ∧ memRead k a n s = .ok (s.mem.value a.toNat n)) ∨
    (confine k a n = .error ⟨k, a⟩ ∧ memRead k a n s = .error ⟨k, a⟩) := by
  rcases confine_cases k a n with ⟨h, -⟩ | ⟨h, -⟩
  · exact .inl ⟨h, by simp [memRead, h]⟩
  · exact .inr ⟨h, by simp [memRead, h]⟩

/-- All a write can answer. -/
theorem memWrite_cases (a : Word) (n : AccessWidth) (v : BitVec n.bits) (s : State) :
    (Accepted .store a n ∧
      memWrite a n v s = .ok (s.setMem (s.mem.writeBytes a.toNat (littleEndian n v)))) ∨
    (confine .store a n = .error ⟨.store, a⟩ ∧ memWrite a n v s = .error ⟨.store, a⟩) := by
  rcases confine_cases .store a n with ⟨h, -⟩ | ⟨h, -⟩
  · exact .inl ⟨h, by simp [memWrite, h]⟩
  · exact .inr ⟨h, by simp [memWrite, h]⟩

theorem accepted_iff {k : AccessKind} {a : Word} {n : AccessWidth} :
    Accepted k a n ↔ windowLo ≤ a.toNat ∧ a.toNat + n.bytes - 1 ≤ windowHi := by
  rcases confine_cases k a n with ⟨h, h'⟩ | ⟨h, h'⟩
  · simp only [Accepted, h, true_iff]; exact h'
  · simp only [Accepted, h, reduceCtorEq, false_iff]; exact h'

@[simp] theorem littleEndian_length (n : AccessWidth) (v : BitVec n.bits) : (littleEndian n v).length = n.bytes := by
  cases n <;> rfl

/-- An accepted store keeps memory canonical and in the window. -/
theorem store_keeps_memory {a : Word} {n : AccessWidth} (v : BitVec n.bits) {m : Memory} (h : Accepted .store a n)
    (hw : m.wf) (hc : m.confined) :
    (m.writeBytes a.toNat (littleEndian n v)).wf ∧ (m.writeBytes a.toNat (littleEndian n v)).confined := by
  have hin := accepted_iff.mp h
  refine ⟨Memory.writeBytes_wf _ _ hw, Memory.writeBytes_confined _ _ hc fun k hk => ?_⟩
  rw [littleEndian_length] at hk
  exact ⟨by omega, by omega⟩

/-! ### The bytes of a value -/

/-- The byte appended last is byte 0. -/
theorem byte_append_zero {n : Nat} (x : BitVec n) (y : Byte) : (x ++ y).extractLsb' 0 8 = y := by
  ext j hj
  simp [BitVec.getLsbD_append, hj]

/-- The bytes above it are those of what it was appended to. -/
theorem byte_append_succ {n : Nat} (x : BitVec n) (y : Byte) (k : Nat) :
    (x ++ y).extractLsb' (8 * k + 8) 8 = x.extractLsb' (8 * k) 8 := by
  ext j hj
  have : ¬ 8 * k + 8 + j < 8 := by omega
  simp [BitVec.getLsbD_append, this, show 8 * k + 8 + j - 8 = 8 * k + j by omega]

/-- The bytes of a value are those of the word it is widened to. -/
theorem byteOfWord_setWidth {n : Nat} (x : BitVec n) {k : Nat} (hk : k < 4) :
    byteOfWord (x.setWidth 32) k = x.extractLsb' (8 * k) 8 := by
  ext j hj
  simp [byteOfWord, BitVec.getLsbD_setWidth]; omega

/-- The low bytes of the value at an address are the bytes of its span (rule R48). -/
theorem byteOfWord_value (m : Memory) (a : Nat) (n : AccessWidth) {k : Nat} (hk : k < n.bytes) :
    byteOfWord ((m.value a n).setWidth 32) k = m.read (a + k) := by
  rw [byteOfWord_setWidth _ (by cases n <;> simp only [AccessWidth.bytes] at hk <;> omega)]
  cases n <;> simp only [AccessWidth.bytes] at hk
  · obtain rfl : k = 0 := by omega
    exact BitVec.extractLsb'_eq_self
  · obtain rfl | rfl : k = 0 ∨ k = 1 := by omega
    · exact byte_append_zero _ _
    · exact (byte_append_succ _ _ 0).trans BitVec.extractLsb'_eq_self
  · obtain rfl | rfl | rfl | rfl : k = 0 ∨ k = 1 ∨ k = 2 ∨ k = 3 := by omega
    · exact byte_append_zero _ _
    · exact (byte_append_succ _ _ 0).trans (byte_append_zero _ _)
    · exact (byte_append_succ _ _ 1).trans ((byte_append_succ _ _ 0).trans (byte_append_zero _ _))
    · exact (byte_append_succ _ _ 2).trans ((byte_append_succ _ _ 1).trans
        ((byte_append_succ _ _ 0).trans BitVec.extractLsb'_eq_self))

end Sys2Proof.Machine
end

