-- ==== Sys2Proof/Laws/Registers.lean ====
section
/-! SUPPORT. The register file: what a read gives after a write (rules R21, R22). -/

namespace Sys2Proof.Machine

@[simp] theorem GuestCpu.setReg_pc (c : GuestCpu) (r : RegIdx) (v : Word) : (c.setReg r v).pc = c.pc := by
  unfold GuestCpu.setReg; split <;> rfl

@[simp] theorem GuestCpu.setReg_mode (c : GuestCpu) (r : RegIdx) (v : Word) : (c.setReg r v).mode = c.mode := by
  unfold GuestCpu.setReg; split <;> rfl

@[simp] theorem GuestCpu.reg_zero (c : GuestCpu) : c.reg 0 = 0#32 := rfl

@[simp] theorem GuestCpu.setReg_zero (c : GuestCpu) (v : Word) : c.setReg 0 v = c := rfl

theorem GuestCpu.reg_setReg (c : GuestCpu) (r q : RegIdx) (v : Word) :
    (c.setReg r v).reg q = if q = r ∧ q ≠ 0 then v else c.reg q := by
  have zero_iff : ∀ x : RegIdx, x = 0 ↔ x.val = 0 := fun x => by rw [Fin.ext_iff]; rfl
  by_cases hr : r.val = 0
  · have h0 : r = 0 := (zero_iff r).mpr hr
    subst h0
    by_cases hq : q = 0 <;> simp [hq]
  · by_cases hq : q.val = 0
    · simp [GuestCpu.reg, (zero_iff q).mpr hq]
    · simp only [GuestCpu.reg, GuestCpu.setReg, hr, hq, dite_false, Vector.getElem_set]
      by_cases hqr : q = r
      · subst hqr; simp [zero_iff, hq]
      · have hne : ¬ (r.val - 1 = q.val - 1) := fun h => hqr (Fin.ext (by omega))
        simp [hqr, hne]

/-- Two register files that read alike are equal. -/
theorem GuestCpu.regs_ext {c d : GuestCpu} (h : ∀ r, c.reg r = d.reg r) : c.regs = d.regs := by
  refine Vector.ext fun k hk => ?_
  simpa [GuestCpu.reg] using h ⟨k + 1, by omega⟩

@[simp] theorem readReg_zero (s : State) : s.readReg 0 = 0#32 := rfl

@[simp] theorem writeReg_zero (s : State) (v : Word) : s.writeReg 0 v = s := rfl

@[simp] theorem writeReg_pc (s : State) (r : RegIdx) (v : Word) : (s.writeReg r v).cpu.pc = s.cpu.pc := by simp

@[simp] theorem writeReg_mode (s : State) (r : RegIdx) (v : Word) : (s.writeReg r v).cpu.mode = s.cpu.mode := by simp

theorem readReg_writeReg (s : State) (r q : RegIdx) (v : Word) :
    (s.writeReg r v).readReg q = if q = r ∧ q ≠ 0 then v else s.readReg q := GuestCpu.reg_setReg s.cpu r q v

end Sys2Proof.Machine
end

