-- ==== Sys2Proof/Laws/Exec.lean ====
section
/-! SUPPORT. What the shared operations of the meanings can do, said once each, and from them what ANY instruction can do. -/

namespace Sys2Proof.Machine

/-- What an instruction that raises nothing may have changed: the registers, the pc, and memory by one accepted store. -/
structure Completed (s t : State) : Prop where
  control : KeepsControl s t
  memory : t.mem = s.mem ∨
    ∃ (a : Word) (n : AccessWidth) (v : BitVec n.bits), Accepted .store a n ∧
      t.mem = s.mem.writeBytes a.toNat (littleEndian n v)

theorem keepsControl_refl (s : State) : KeepsControl s s := ⟨rfl, rfl, rfl, rfl, rfl, rfl⟩

/-- Writing a register and the pc keeps everything else. -/
theorem regResult_writeReg_setPc (s : State) (rd : RegIdx) (v t : Word) :
    RegResult rd v t s ((s.writeReg rd v).setPc t) :=
  ⟨fun q => readReg_writeReg s rd q v, rfl, fun _ => rfl, writeReg_mode s rd v, rfl, rfl, rfl, rfl, rfl⟩

/-- `x[rd] <- v; pc <- pc + 4` is what `writeReg` and `advance` do. -/
theorem regResult_writeReg_advance (s : State) (rd : RegIdx) (v : Word) :
    RegResult rd v (s.cpu.pc + 4#32) s (s.writeReg rd v).advance := by
  have h := regResult_writeReg_setPc s rd v (s.cpu.pc + 4#32)
  rwa [show (s.writeReg rd v).advance = (s.writeReg rd v).setPc (s.cpu.pc + 4#32) from by
    rw [State.advance, nextPc_eq, writeReg_pc]]

theorem pcResult_setPc (s : State) (t : Word) : PcResult t s (s.setPc t) :=
  ⟨rfl, fun _ => rfl, fun _ => rfl, rfl, rfl, rfl, rfl, rfl, rfl⟩

theorem aborts_raise (k : FaultKind) (info : Word) (a : Option AccessKind) (s : State) :
    Aborts k info a s (raise k info a s) := ⟨rfl, rfl, rfl, rfl, rfl, rfl, rfl⟩

theorem RegResult.completed {rd : RegIdx} {v p : Word} {s t : State} (h : RegResult rd v p s t)
    (hm : t.mem = s.mem) : Completed s t := ⟨h.2.2.2, .inl hm⟩

/-- All a load can do. -/
theorem loadInto_cases (n : AccessWidth) (ext : BitVec n.bits → Word) (rd rs1 : RegIdx) (imm : Word) (s : State) :
    (Accepted .load (effectiveAddress rs1 imm s) n ∧ loadInto n ext rd rs1 imm s =
      .next (s.writeReg rd (ext (s.mem.value (effectiveAddress rs1 imm s).toNat n))).advance) ∨
    (confine .load (effectiveAddress rs1 imm s) n = .error ⟨.load, effectiveAddress rs1 imm s⟩ ∧
      loadInto n ext rd rs1 imm s =
        .next (raise .outOfRangeAccess (effectiveAddress rs1 imm s) (some .load) s)) := by
  rcases memRead_cases .load (effectiveAddress rs1 imm s) n s with ⟨h, hr⟩ | ⟨h, hr⟩
  · exact .inl ⟨h, by simp only [loadInto, hr]⟩
  · exact .inr ⟨h, by simp only [loadInto, hr]; rfl⟩

/-- All a store can do. -/
theorem storeFrom_cases (n : AccessWidth) (rs1 rs2 : RegIdx) (imm : Word) (s : State) :
    (Accepted .store (effectiveAddress rs1 imm s) n ∧ storeFrom n rs1 rs2 imm s =
      .next (s.setMem (s.mem.writeBytes (effectiveAddress rs1 imm s).toNat
        (littleEndian n (storeValue n (s.readReg rs2))))).advance) ∨
    (confine .store (effectiveAddress rs1 imm s) n = .error ⟨.store, effectiveAddress rs1 imm s⟩ ∧
      storeFrom n rs1 rs2 imm s =
        .next (raise .outOfRangeAccess (effectiveAddress rs1 imm s) (some .store) s)) := by
  rcases memWrite_cases (effectiveAddress rs1 imm s) n (storeValue n (s.readReg rs2)) s with ⟨h, hr⟩ | ⟨h, hr⟩
  · exact .inl ⟨h, by simp only [storeFrom, hr]⟩
  · exact .inr ⟨h, by simp only [storeFrom, hr]; rfl⟩

/-- All a CSR instruction can do: the mode alone decides. -/
theorem csrOperation_cases (w : Word) (rd : RegIdx) (c : CsrIdx) (f : Word → Word) (s : State) :
    (s.cpu.mode = .user ∧ csrOperation w rd c f s = .next (s.writeReg rd 0#32).advance) ∨
    (s.cpu.mode = .supervisor ∧ csrOperation w rd c f s = .next (raise .illegalCsrAccess w none s)) := by
  cases h : s.cpu.mode
  · exact .inl ⟨rfl, by simp only [csrOperation, csrRead, csrWrite, h]⟩
  · exact .inr ⟨rfl, by simp only [csrOperation, csrRead, h]⟩

/-- What any instruction does: it completes, or it aborts having written nothing, exactly when it raises; it never faults
and is never refused. -/
inductive ExecEffect (i : Instr) (s : State) : Host.Outcome State Fault Refusal → Prop where
  | completes {t : State} (hn : ¬ Raises i s) (h : Completed s t) : ExecEffect i s (.next t)
  | aborts (k : FaultKind) (info : Word) (a : Option AccessKind) (hr : Raises i s)
      (hk : a ≠ none ↔ k = .outOfRangeAccess) : ExecEffect i s (.next (raise k info a s))

/-- What makes a load or store raise. -/
theorem raises_of_access {i : Instr} {s : State} {p : AccessRequest} (hp : dataAccess i s = some p) :
    Raises i s ↔ ¬ Accepted p.kind p.addr p.width := by
  cases i <;> simp_all [Raises, dataAccess, Instr.isCsr]

/-- What makes a CSR instruction raise. -/
theorem raises_of_isCsr {i : Instr} (s : State) (h : i.isCsr = true) : Raises i s ↔ s.cpu.mode = .supervisor := by
  cases i <;> simp_all [Raises, dataAccess, Instr.isCsr]

theorem writeResult_effect {i : Instr} (rd : RegIdx) (v : Word) {s : State} (h : ¬ Raises i s) :
    ExecEffect i s (writeResult rd v s) := .completes h ((regResult_writeReg_advance s rd v).completed rfl)

theorem jumpAndLink_effect {i : Instr} (rd : RegIdx) (t : Word) {s : State} (h : ¬ Raises i s) :
    ExecEffect i s (jumpAndLink rd t s) := .completes h ((regResult_writeReg_setPc s rd _ t).completed rfl)

theorem branchOn_effect {i : Instr} (c : Cond) (rs1 rs2 : RegIdx) (imm : Word) {s : State} (h : ¬ Raises i s) :
    ExecEffect i s (branchOn c rs1 rs2 imm s) := .completes h ⟨(pcResult_setPc s _).2.2.2, .inl rfl⟩

theorem loadInto_effect {i : Instr} (n : AccessWidth) (ext : BitVec n.bits → Word) (rd rs1 : RegIdx) (imm : Word)
    {s : State} (hp : dataAccess i s = some ⟨.load, effectiveAddress rs1 imm s, n, none⟩) :
    ExecEffect i s (loadInto n ext rd rs1 imm s) := by
  rcases loadInto_cases n ext rd rs1 imm s with ⟨ha, h⟩ | ⟨hr, h⟩ <;> rw [h]
  · exact .completes ((raises_of_access hp).not.mpr (not_not_intro ha))
      ((regResult_writeReg_advance s rd _).completed rfl)
  · exact .aborts _ _ _ ((raises_of_access hp).mpr (by simp [Accepted, hr])) (by simp)

theorem storeFrom_effect {i : Instr} (n : AccessWidth) (rs1 rs2 : RegIdx) (imm : Word) {s : State} {d : Option Word}
    (hp : dataAccess i s = some ⟨.store, effectiveAddress rs1 imm s, n, d⟩) :
    ExecEffect i s (storeFrom n rs1 rs2 imm s) := by
  rcases storeFrom_cases n rs1 rs2 imm s with ⟨ha, h⟩ | ⟨hr, h⟩ <;> rw [h]
  · exact .completes ((raises_of_access hp).not.mpr (not_not_intro ha))
      ⟨⟨rfl, rfl, rfl, rfl, rfl, rfl⟩, .inr ⟨_, n, _, ha, rfl⟩⟩
  · exact .aborts _ _ _ ((raises_of_access hp).mpr (by simp [Accepted, hr])) (by simp)

theorem csrOperation_effect {i : Instr} (w : Word) (rd : RegIdx) (c : CsrIdx) (f : Word → Word) {s : State}
    (hi : i.isCsr = true) : ExecEffect i s (csrOperation w rd c f s) := by
  rcases csrOperation_cases w rd c f s with ⟨hm, h⟩ | ⟨hm, h⟩ <;> rw [h]
  · exact .completes (by simp [raises_of_isCsr s hi, hm]) ((regResult_writeReg_advance s rd _).completed rfl)
  · exact .aborts _ _ _ ((raises_of_isCsr s hi).mpr hm) (by simp)

/-- An instruction that is no system instruction and makes no access raises nothing. -/
theorem not_raises {i : Instr} {s : State} (h : i.isCsr = false) (h1 : i ≠ .ecall) (h2 : i ≠ .ebreak)
    (hp : dataAccess i s = none) : ¬ Raises i s := by simp [Raises, h, h1, h2, hp]

/-- What `exec` can do, for every instruction and every state. -/
theorem exec_effect (i : Instr) (s : State) : ExecEffect i s (exec i s) := by
  cases i
  case lui | auipc | addi | slti | sltiu | xori | ori | andi | slli | srli | srai | add | sub | sll | slt | sltu | xor
      | srl | sra | or | and => exact writeResult_effect _ _ (not_raises rfl nofun nofun rfl)
  case jal | jalr => exact jumpAndLink_effect _ _ (not_raises rfl nofun nofun rfl)
  case beq | bne | blt | bge | bltu | bgeu => exact branchOn_effect _ _ _ _ (not_raises rfl nofun nofun rfl)
  case lb | lh | lw | lbu | lhu => exact loadInto_effect _ _ _ _ _ rfl
  case sb | sh | sw => exact storeFrom_effect _ _ _ _ rfl
  case fence => exact .completes (not_raises rfl nofun nofun rfl) ⟨(pcResult_setPc s _).2.2.2, .inl rfl⟩
  case ecall => exact .aborts _ _ _ (.inl rfl) (by simp)
  case ebreak => exact .aborts _ _ _ (.inr (.inl rfl)) (by simp)
  case csrrw | csrrs | csrrc | csrrwi | csrrsi | csrrci => exact csrOperation_effect _ _ _ _ rfl

end Sys2Proof.Machine
end

