-- ==== Sys2Proof/Laws/Engine.lean ====
section
/-! SUPPORT. What the parts of a transition can do, each said once: a delegation, the boundary, the parts from the fetch
on, and the transition itself. -/

namespace Sys2Proof.Machine

/-- A delegation whose handler returns leaves only the shadow behind (rules R184, R185). -/
theorem delegate_eq {s : State} (h : s.bridge = .idle) : delegate s = { s with shadow := s.cpu } := by
  cases s; cases h; rfl

/-- Any number of delegations: nothing at all, or the shadow written once. -/
theorem delegateTimes_eq (k : Nat) {s : State} (h : s.bridge = .idle) :
    delegateTimes k s = if k = 0 then s else { s with shadow := s.cpu } := by
  induction k generalizing s with
  | zero => rfl
  | succ k ih =>
    rw [delegateTimes, delegate_eq h, ih (by exact h)]
    split <;> rfl

/-- What the delegations of a boundary leave as it was: everything but the shadow. -/
structure OnlyShadow (s t : State) : Prop where
  cpu : t.cpu = s.cpu
  mem : t.mem = s.mem
  status : t.status = s.status
  result : t.result = s.result
  bridge : t.bridge = s.bridge
  inputs : t.inputs = s.inputs

theorem delegateTimes_onlyShadow (k : Nat) {s : State} (h : s.bridge = .idle) : OnlyShadow s (delegateTimes k s) := by
  rw [delegateTimes_eq k h]
  split <;> exact ⟨rfl, rfl, rfl, rfl, rfl, rfl⟩

/-- All the parts from the fetch on can do: abort on the fetch, halt, abort on the word, or execute its instruction. -/
theorem fetchExecute_cases (s : State) :
    (confine .fetch s.cpu.pc .word = .error ⟨.fetch, s.cpu.pc⟩ ∧
      fetchExecute s = .next (raise .outOfRangeAccess s.cpu.pc (some .fetch) s)) ∨
    ∃ w, Accepted .fetch s.cpu.pc .word ∧ fetchWord s = .ok w ∧
      ((w = s.inputs.haltWord ∧ fetchExecute s = .next (halt s)) ∨
       (w ≠ s.inputs.haltWord ∧ (∃ e, decode w = .error e) ∧
          fetchExecute s = .next (raise .illegalInstruction w none s)) ∨
       (w ≠ s.inputs.haltWord ∧ ∃ i, decode w = .ok i ∧ fetchExecute s = exec i s)) := by
  rcases memRead_cases .fetch s.cpu.pc .word s with ⟨h, hr⟩ | ⟨h, hr⟩
  · refine .inr ⟨_, h, hr, ?_⟩
    have hf : fetchExecute s = executeWord (s.mem.value s.cpu.pc.toNat .word) s := by
      simp only [fetchExecute, fetchWord, hr]
    rw [hf]
    by_cases hw : s.mem.value s.cpu.pc.toNat .word = s.inputs.haltWord
    · exact .inl ⟨hw, by simp only [executeWord, hw, if_true]⟩
    · refine .inr ?_
      cases hd : decode (s.mem.value s.cpu.pc.toNat .word) with
      | error e => exact .inl ⟨hw, ⟨e, rfl⟩, by simp only [executeWord, hw, if_false, hd]⟩
      | ok i => exact .inr ⟨hw, i, rfl, by simp only [executeWord, hw, if_false, hd]⟩
  · exact .inl ⟨h, by simp only [fetchExecute, fetchWord, hr]; rfl⟩

/-- All the boundary can do, from an idle bridge. -/
theorem boundary_idle {s : State} (h : s.bridge = .idle) : boundary s = headOfStep s.sample s.afterSample := by
  simp [boundary, h]

/-- All the boundary can do, while a handler is out. -/
theorem boundary_delegating {s : State} (h : s.bridge = .delegating) :
    boundary s = handlerOut s.sample s.afterSample := by simp [boundary, h]

/-- The poll ends the transition, or goes on with only the shadow written. -/
theorem poll_cases (b : Boundary) {s : State} (h : s.bridge = .idle) :
    ∃ t, OnlyShadow s t ∧ ((b.handlerOut = true ∧ poll b s = .ends (capture t)) ∨
      (b.handlerOut = false ∧ poll b s = .fetches t)) := by
  refine ⟨_, delegateTimes_onlyShadow b.delegations h, ?_⟩
  cases hb : b.handlerOut
  · exact .inr ⟨rfl, by simp [poll, hb]⟩
  · exact .inl ⟨rfl, by simp [poll, hb]⟩

theorem step_running {s : State} (h : s.status = .running) : step s = runningStep s := by simp [step, runStep, h]

theorem step_terminal {s : State} (h : s.status ≠ .running) : step s = .next (terminalStep s) := by
  cases hs : s.status <;> simp_all [step, runStep]

/-! ### The boundary and the running transition, whole -/

/-- All the boundary of a transition can do. -/
theorem boundary_cases (s : State) :
    (∃ a, s.bridge = .idle ∧ s.sample.abortReq = some a ∧ boundary s = .ends (raise a.kind a.info none s.afterSample)) ∨
    (∃ t, s.bridge = .idle ∧ s.sample.abortReq = none ∧ OnlyShadow s.afterSample t ∧
      ((s.sample.handlerOut = true ∧ boundary s = .ends (capture t)) ∨
       (s.sample.handlerOut = false ∧ boundary s = .fetches t))) ∨
    (s.bridge = .delegating ∧ s.sample.delegDone = false ∧ boundary s = .ends s.afterSample) ∨
    (∃ t, s.bridge = .delegating ∧ s.sample.delegDone = true ∧ OnlyShadow (restore s.afterSample) t ∧
      ((s.sample.handlerOut = true ∧ boundary s = .ends (capture t)) ∨
       (s.sample.handlerOut = false ∧ boundary s = .fetches t))) := by
  cases hb : s.bridge
  · rw [boundary_idle hb]
    cases ha : s.sample.abortReq with
    | some a => exact .inl ⟨a, rfl, rfl, by simp [headOfStep, ha]⟩
    | none =>
      obtain ⟨t, ht, h⟩ := poll_cases s.sample (s := s.afterSample) hb
      exact .inr (.inl ⟨t, rfl, rfl, ht, by simpa [headOfStep, ha] using h⟩)
  · rw [boundary_delegating hb]
    cases hd : s.sample.delegDone
    · exact .inr (.inr (.inl ⟨rfl, rfl, by simp [handlerOut, hd]⟩))
    · obtain ⟨t, ht, h⟩ := poll_cases s.sample (s := restore s.afterSample) rfl
      exact .inr (.inr (.inr ⟨t, rfl, rfl, ht, by simpa [handlerOut, hd] using h⟩))

/-- What the state at the fetch has of the state the transition began in. -/
structure AtFetch (s u : State) : Prop where
  status : u.status = .running
  bridge : u.bridge = .idle
  result : u.result = s.result
  mem : u.mem = s.mem
  inputs : u.inputs = s.afterSample.inputs
  cpu_idle : s.bridge = .idle → u.cpu = s.cpu
  cpu_delegating : s.bridge = .delegating → u.cpu = s.shadow
  no_abort : ¬ (s.bridge = .idle ∧ s.sample.abortReq ≠ none)

theorem ReachesFetch.atFetch {s u : State} (h : ReachesFetch s u) : AtFetch s u := by
  obtain ⟨hs, hb⟩ := h
  rcases boundary_cases s with ⟨a, -, -, e⟩ | ⟨t, hi, ha, ht, ⟨-, e⟩ | ⟨-, e⟩⟩ | ⟨-, -, e⟩ |
      ⟨t, hd, -, ht, ⟨-, e⟩ | ⟨-, e⟩⟩ <;> rw [e] at hb <;> cases hb
  · exact ⟨ht.status.trans hs, ht.bridge.trans hi, ht.result, ht.mem, ht.inputs, fun _ => ht.cpu,
      fun h => by simp [hi] at h, by simp [ha]⟩
  · exact ⟨ht.status.trans hs, ht.bridge, ht.result, ht.mem, ht.inputs, fun h => by simp [hd] at h, fun _ => ht.cpu,
      by simp [hd]⟩

theorem ReachesFetch.step_eq {s u : State} (h : ReachesFetch s u) : step s = fetchExecute u := by
  rw [step_running h.1, runningStep, h.2]

/-- A transition that reaches its fetch drives on the memory port what the parts from the fetch on drive. -/
theorem ReachesFetch.memoryPort_eq {s u : State} (h : ReachesFetch s u) : memoryPort s = fetchAccesses u := by
  simp only [memoryPort, h.1, h.2]

/-- An access the validator accepts stands on the port, with memory's answer. -/
theorem driven_of_accepted {r : AccessRequest} (s : State) (h : Accepted r.kind r.addr r.width) :
    driven r s = [r.answered s.mem] := by
  rw [Accepted] at h
  simp only [driven, h]

/-- The request of an access on the port is the one that was made. -/
@[simp] theorem answered_toAccessRequest (r : AccessRequest) (m : Memory) : (r.answered m).toAccessRequest = r := rfl

/-- The read data of an access answered from memory. -/
theorem answered_readsFrom (r : AccessRequest) (m : Memory) : ReadsFrom m (r.answered m) := by
  refine ⟨fun h => ⟨(m.value r.addr.toNat r.width).setWidth 32, ?_, fun k hk => byteOfWord_value m _ _ hk⟩, fun h => ?_⟩
  · cases hk : r.kind <;> simp_all [AccessRequest.answered, AccessRequest.readData]
  · simp_all [AccessRequest.answered, AccessRequest.readData]

/-- The word a transition fetches is the read data of its fetch on the port. -/
theorem fetchRequest_answered {s : State} {w : Word} (h : fetchWord s = .ok w) :
    (fetchRequest s).answered s.mem = FetchOnPort s w := by
  rcases memRead_cases .fetch s.cpu.pc .word s with ⟨-, e⟩ | ⟨-, e⟩ <;> rw [fetchWord, e] at h <;> cases h
  simp [fetchRequest, AccessRequest.answered, AccessRequest.readData, FetchOnPort]

/-- All a transition of a running nucleus can do: an injected abort, a handler that is out, or the parts from the fetch
on. -/
theorem running_cases {s : State} (hs : s.status = .running) :
    (∃ a, s.bridge = .idle ∧ s.sample.abortReq = some a ∧ step s = .next (raise a.kind a.info none s.afterSample)) ∨
    (s.bridge = .delegating ∧ step s = .next s.afterSample) ∨
    (∃ u, (s.bridge = .idle ∧ OnlyShadow s.afterSample u ∨
        s.bridge = .delegating ∧ OnlyShadow (restore s.afterSample) u) ∧
      (s.bridge = .idle → s.sample.abortReq = none) ∧ step s = .next (capture u)) ∨
    (∃ u, ReachesFetch s u) := by
  rw [step_running hs, runningStep]
  rcases boundary_cases s with ⟨a, hi, ha, e⟩ | ⟨t, hi, ha, ht, ⟨-, e⟩ | ⟨-, e⟩⟩ | ⟨hd, -, e⟩ |
      ⟨t, hd, -, ht, ⟨-, e⟩ | ⟨-, e⟩⟩ <;> rw [e]
  · exact .inl ⟨a, hi, ha, rfl⟩
  · exact .inr (.inr (.inl ⟨t, .inl ⟨hi, ht⟩, fun _ => ha, rfl⟩))
  · exact .inr (.inr (.inr ⟨t, hs, e⟩))
  · exact .inr (.inl ⟨hd, rfl⟩)
  · exact .inr (.inr (.inl ⟨t, .inr ⟨hd, ht⟩, fun h => by simp [hd] at h, rfl⟩))
  · exact .inr (.inr (.inr ⟨t, hs, e⟩))

/-! ### Runs -/

/-- One transition more at the front of a run, for any machine. -/
theorem run_succ_next (M : Host.Core) (k : Nat) {s t : M.State} (h : M.step s = .next t) :
    M.run (k + 1) s = M.run k t := by simp only [Host.Core.run, h]

/-- The same for this machine, in the terms of its own state and step. -/
theorem core_run_succ (k : Nat) {s t : State} (h : step s = .next t) : core.run (k + 1) s = core.run k t :=
  run_succ_next core k h

end Sys2Proof.Machine
end

