-- ==== Sys2Proof/Laws/PerInstr.lean ====
section
/-! SUPPORT. The family EncodingRow: the word of an instruction is a word of the instruction's own row of the opcode table
(rule R70), whatever its operands; one lemma per constructor. -/

namespace Sys2Proof.Laws.EncodingRow

/-- The word that `encode` makes of the instruction matches the row of its mnemonic. -/
def Statement (i : Instr) : Prop :=
  ∃ row ∈ opcodeTable, row.mnemonic = i.mnemonic ∧ row.isRowOf (encode i) = true

/-- A row of the table whose pattern the word has under its mask. -/
theorem of_row {i : Instr} {m : Mnemonic} {p c : Word} (hm : m = i.mnemonic)
    (hr : (⟨m, p, c⟩ : OpcodeRow) ∈ opcodeTable) (h : encode i &&& c = p) : Statement i :=
  ⟨⟨m, p, c⟩, hr, hm, beq_iff_eq.mpr h⟩

end Sys2Proof.Laws.EncodingRow

namespace Sys2Proof

theorem Laws.EncodingRow.lui (rd : RegIdx) (imm : Word) : Laws.EncodingRow.Statement (.lui rd imm) :=
  Laws.EncodingRow.of_row (m := .lui) (p := 0x00000037) (c := 0x0000007F) rfl (by decide) <| by
    simp [masked_iff, encode, bits_0_formatU]

theorem Laws.EncodingRow.auipc (rd : RegIdx) (imm : Word) : Laws.EncodingRow.Statement (.auipc rd imm) :=
  Laws.EncodingRow.of_row (m := .auipc) (p := 0x00000017) (c := 0x0000007F) rfl (by decide) <| by
    simp [masked_iff, encode, bits_0_formatU]

theorem Laws.EncodingRow.addi (rd rs1 : RegIdx) (imm : Word) : Laws.EncodingRow.Statement (.addi rd rs1 imm) :=
  Laws.EncodingRow.of_row (m := .addi) (p := 0x00000013) (c := 0x0000707F) rfl (by decide) <| by
    simp [masked_iff, encode, bits_0_formatI, bits_12_formatI]

theorem Laws.EncodingRow.slti (rd rs1 : RegIdx) (imm : Word) : Laws.EncodingRow.Statement (.slti rd rs1 imm) :=
  Laws.EncodingRow.of_row (m := .slti) (p := 0x00002013) (c := 0x0000707F) rfl (by decide) <| by
    simp [masked_iff, encode, bits_0_formatI, bits_12_formatI]

theorem Laws.EncodingRow.sltiu (rd rs1 : RegIdx) (imm : Word) : Laws.EncodingRow.Statement (.sltiu rd rs1 imm) :=
  Laws.EncodingRow.of_row (m := .sltiu) (p := 0x00003013) (c := 0x0000707F) rfl (by decide) <| by
    simp [masked_iff, encode, bits_0_formatI, bits_12_formatI]

theorem Laws.EncodingRow.xori (rd rs1 : RegIdx) (imm : Word) : Laws.EncodingRow.Statement (.xori rd rs1 imm) :=
  Laws.EncodingRow.of_row (m := .xori) (p := 0x00004013) (c := 0x0000707F) rfl (by decide) <| by
    simp [masked_iff, encode, bits_0_formatI, bits_12_formatI]

theorem Laws.EncodingRow.ori (rd rs1 : RegIdx) (imm : Word) : Laws.EncodingRow.Statement (.ori rd rs1 imm) :=
  Laws.EncodingRow.of_row (m := .ori) (p := 0x00006013) (c := 0x0000707F) rfl (by decide) <| by
    simp [masked_iff, encode, bits_0_formatI, bits_12_formatI]

theorem Laws.EncodingRow.andi (rd rs1 : RegIdx) (imm : Word) : Laws.EncodingRow.Statement (.andi rd rs1 imm) :=
  Laws.EncodingRow.of_row (m := .andi) (p := 0x00007013) (c := 0x0000707F) rfl (by decide) <| by
    simp [masked_iff, encode, bits_0_formatI, bits_12_formatI]

theorem Laws.EncodingRow.slli (rd rs1 : RegIdx) (shamt : BitVec 5) : Laws.EncodingRow.Statement (.slli rd rs1 shamt) :=
  Laws.EncodingRow.of_row (m := .slli) (p := 0x00001013) (c := 0xFE00707F) rfl (by decide) <| by
    simp [masked_iff, encode, bits_0_formatShift, bits_12_formatShift, bits_25_formatShift]

theorem Laws.EncodingRow.srli (rd rs1 : RegIdx) (shamt : BitVec 5) : Laws.EncodingRow.Statement (.srli rd rs1 shamt) :=
  Laws.EncodingRow.of_row (m := .srli) (p := 0x00005013) (c := 0xFE00707F) rfl (by decide) <| by
    simp [masked_iff, encode, bits_0_formatShift, bits_12_formatShift, bits_25_formatShift]

theorem Laws.EncodingRow.srai (rd rs1 : RegIdx) (shamt : BitVec 5) : Laws.EncodingRow.Statement (.srai rd rs1 shamt) :=
  Laws.EncodingRow.of_row (m := .srai) (p := 0x40005013) (c := 0xFE00707F) rfl (by decide) <| by
    simp [masked_iff, encode, bits_0_formatShift, bits_12_formatShift, bits_25_formatShift]

theorem Laws.EncodingRow.add (rd rs1 rs2 : RegIdx) : Laws.EncodingRow.Statement (.add rd rs1 rs2) :=
  Laws.EncodingRow.of_row (m := .add) (p := 0x00000033) (c := 0xFE00707F) rfl (by decide) <| by
    simp [masked_iff, encode, bits_0_formatR, bits_12_formatR, bits_25_formatR]

theorem Laws.EncodingRow.sub (rd rs1 rs2 : RegIdx) : Laws.EncodingRow.Statement (.sub rd rs1 rs2) :=
  Laws.EncodingRow.of_row (m := .sub) (p := 0x40000033) (c := 0xFE00707F) rfl (by decide) <| by
    simp [masked_iff, encode, bits_0_formatR, bits_12_formatR, bits_25_formatR]

theorem Laws.EncodingRow.sll (rd rs1 rs2 : RegIdx) : Laws.EncodingRow.Statement (.sll rd rs1 rs2) :=
  Laws.EncodingRow.of_row (m := .sll) (p := 0x00001033) (c := 0xFE00707F) rfl (by decide) <| by
    simp [masked_iff, encode, bits_0_formatR, bits_12_formatR, bits_25_formatR]

theorem Laws.EncodingRow.slt (rd rs1 rs2 : RegIdx) : Laws.EncodingRow.Statement (.slt rd rs1 rs2) :=
  Laws.EncodingRow.of_row (m := .slt) (p := 0x00002033) (c := 0xFE00707F) rfl (by decide) <| by
    simp [masked_iff, encode, bits_0_formatR, bits_12_formatR, bits_25_formatR]

theorem Laws.EncodingRow.sltu (rd rs1 rs2 : RegIdx) : Laws.EncodingRow.Statement (.sltu rd rs1 rs2) :=
  Laws.EncodingRow.of_row (m := .sltu) (p := 0x00003033) (c := 0xFE00707F) rfl (by decide) <| by
    simp [masked_iff, encode, bits_0_formatR, bits_12_formatR, bits_25_formatR]

theorem Laws.EncodingRow.xor (rd rs1 rs2 : RegIdx) : Laws.EncodingRow.Statement (.xor rd rs1 rs2) :=
  Laws.EncodingRow.of_row (m := .xor) (p := 0x00004033) (c := 0xFE00707F) rfl (by decide) <| by
    simp [masked_iff, encode, bits_0_formatR, bits_12_formatR, bits_25_formatR]

theorem Laws.EncodingRow.srl (rd rs1 rs2 : RegIdx) : Laws.EncodingRow.Statement (.srl rd rs1 rs2) :=
  Laws.EncodingRow.of_row (m := .srl) (p := 0x00005033) (c := 0xFE00707F) rfl (by decide) <| by
    simp [masked_iff, encode, bits_0_formatR, bits_12_formatR, bits_25_formatR]

theorem Laws.EncodingRow.sra (rd rs1 rs2 : RegIdx) : Laws.EncodingRow.Statement (.sra rd rs1 rs2) :=
  Laws.EncodingRow.of_row (m := .sra) (p := 0x40005033) (c := 0xFE00707F) rfl (by decide) <| by
    simp [masked_iff, encode, bits_0_formatR, bits_12_formatR, bits_25_formatR]

theorem Laws.EncodingRow.or (rd rs1 rs2 : RegIdx) : Laws.EncodingRow.Statement (.or rd rs1 rs2) :=
  Laws.EncodingRow.of_row (m := .or) (p := 0x00006033) (c := 0xFE00707F) rfl (by decide) <| by
    simp [masked_iff, encode, bits_0_formatR, bits_12_formatR, bits_25_formatR]

theorem Laws.EncodingRow.and (rd rs1 rs2 : RegIdx) : Laws.EncodingRow.Statement (.and rd rs1 rs2) :=
  Laws.EncodingRow.of_row (m := .and) (p := 0x00007033) (c := 0xFE00707F) rfl (by decide) <| by
    simp [masked_iff, encode, bits_0_formatR, bits_12_formatR, bits_25_formatR]

theorem Laws.EncodingRow.jal (rd : RegIdx) (imm : Word) : Laws.EncodingRow.Statement (.jal rd imm) :=
  Laws.EncodingRow.of_row (m := .jal) (p := 0x0000006F) (c := 0x0000007F) rfl (by decide) <| by
    simp [masked_iff, encode, bits_0_formatJ]

theorem Laws.EncodingRow.jalr (rd rs1 : RegIdx) (imm : Word) : Laws.EncodingRow.Statement (.jalr rd rs1 imm) :=
  Laws.EncodingRow.of_row (m := .jalr) (p := 0x00000067) (c := 0x0000707F) rfl (by decide) <| by
    simp [masked_iff, encode, bits_0_formatI, bits_12_formatI]

theorem Laws.EncodingRow.beq (rs1 rs2 : RegIdx) (imm : Word) : Laws.EncodingRow.Statement (.beq rs1 rs2 imm) :=
  Laws.EncodingRow.of_row (m := .beq) (p := 0x00000063) (c := 0x0000707F) rfl (by decide) <| by
    simp [masked_iff, encode, bits_0_formatB, bits_12_formatB]

theorem Laws.EncodingRow.bne (rs1 rs2 : RegIdx) (imm : Word) : Laws.EncodingRow.Statement (.bne rs1 rs2 imm) :=
  Laws.EncodingRow.of_row (m := .bne) (p := 0x00001063) (c := 0x0000707F) rfl (by decide) <| by
    simp [masked_iff, encode, bits_0_formatB, bits_12_formatB]

theorem Laws.EncodingRow.blt (rs1 rs2 : RegIdx) (imm : Word) : Laws.EncodingRow.Statement (.blt rs1 rs2 imm) :=
  Laws.EncodingRow.of_row (m := .blt) (p := 0x00004063) (c := 0x0000707F) rfl (by decide) <| by
    simp [masked_iff, encode, bits_0_formatB, bits_12_formatB]

theorem Laws.EncodingRow.bge (rs1 rs2 : RegIdx) (imm : Word) : Laws.EncodingRow.Statement (.bge rs1 rs2 imm) :=
  Laws.EncodingRow.of_row (m := .bge) (p := 0x00005063) (c := 0x0000707F) rfl (by decide) <| by
    simp [masked_iff, encode, bits_0_formatB, bits_12_formatB]

theorem Laws.EncodingRow.bltu (rs1 rs2 : RegIdx) (imm : Word) : Laws.EncodingRow.Statement (.bltu rs1 rs2 imm) :=
  Laws.EncodingRow.of_row (m := .bltu) (p := 0x00006063) (c := 0x0000707F) rfl (by decide) <| by
    simp [masked_iff, encode, bits_0_formatB, bits_12_formatB]

theorem Laws.EncodingRow.bgeu (rs1 rs2 : RegIdx) (imm : Word) : Laws.EncodingRow.Statement (.bgeu rs1 rs2 imm) :=
  Laws.EncodingRow.of_row (m := .bgeu) (p := 0x00007063) (c := 0x0000707F) rfl (by decide) <| by
    simp [masked_iff, encode, bits_0_formatB, bits_12_formatB]

theorem Laws.EncodingRow.lb (rd rs1 : RegIdx) (imm : Word) : Laws.EncodingRow.Statement (.lb rd rs1 imm) :=
  Laws.EncodingRow.of_row (m := .lb) (p := 0x00000003) (c := 0x0000707F) rfl (by decide) <| by
    simp [masked_iff, encode, bits_0_formatI, bits_12_formatI]

theorem Laws.EncodingRow.lh (rd rs1 : RegIdx) (imm : Word) : Laws.EncodingRow.Statement (.lh rd rs1 imm) :=
  Laws.EncodingRow.of_row (m := .lh) (p := 0x00001003) (c := 0x0000707F) rfl (by decide) <| by
    simp [masked_iff, encode, bits_0_formatI, bits_12_formatI]

theorem Laws.EncodingRow.lw (rd rs1 : RegIdx) (imm : Word) : Laws.EncodingRow.Statement (.lw rd rs1 imm) :=
  Laws.EncodingRow.of_row (m := .lw) (p := 0x00002003) (c := 0x0000707F) rfl (by decide) <| by
    simp [masked_iff, encode, bits_0_formatI, bits_12_formatI]

theorem Laws.EncodingRow.lbu (rd rs1 : RegIdx) (imm : Word) : Laws.EncodingRow.Statement (.lbu rd rs1 imm) :=
  Laws.EncodingRow.of_row (m := .lbu) (p := 0x00004003) (c := 0x0000707F) rfl (by decide) <| by
    simp [masked_iff, encode, bits_0_formatI, bits_12_formatI]

theorem Laws.EncodingRow.lhu (rd rs1 : RegIdx) (imm : Word) : Laws.EncodingRow.Statement (.lhu rd rs1 imm) :=
  Laws.EncodingRow.of_row (m := .lhu) (p := 0x00005003) (c := 0x0000707F) rfl (by decide) <| by
    simp [masked_iff, encode, bits_0_formatI, bits_12_formatI]

theorem Laws.EncodingRow.sb (rs1 rs2 : RegIdx) (imm : Word) : Laws.EncodingRow.Statement (.sb rs1 rs2 imm) :=
  Laws.EncodingRow.of_row (m := .sb) (p := 0x00000023) (c := 0x0000707F) rfl (by decide) <| by
    simp [masked_iff, encode, bits_0_formatS, bits_12_formatS]

theorem Laws.EncodingRow.sh (rs1 rs2 : RegIdx) (imm : Word) : Laws.EncodingRow.Statement (.sh rs1 rs2 imm) :=
  Laws.EncodingRow.of_row (m := .sh) (p := 0x00001023) (c := 0x0000707F) rfl (by decide) <| by
    simp [masked_iff, encode, bits_0_formatS, bits_12_formatS]

theorem Laws.EncodingRow.sw (rs1 rs2 : RegIdx) (imm : Word) : Laws.EncodingRow.Statement (.sw rs1 rs2 imm) :=
  Laws.EncodingRow.of_row (m := .sw) (p := 0x00002023) (c := 0x0000707F) rfl (by decide) <| by
    simp [masked_iff, encode, bits_0_formatS, bits_12_formatS]

theorem Laws.EncodingRow.fence (fm pred succ : BitVec 4) (rs1 rd : RegIdx) : Laws.EncodingRow.Statement (.fence fm pred succ rs1 rd) :=
  Laws.EncodingRow.of_row (m := .fence) (p := 0x0000000F) (c := 0x0000707F) rfl (by decide) <| by
    simp [masked_iff, encode, bits_0_formatI, bits_12_formatI]

theorem Laws.EncodingRow.ecall : Laws.EncodingRow.Statement (.ecall) :=
  Laws.EncodingRow.of_row (m := .ecall) (p := 0x00000073) (c := 0xFFFFFFFF) rfl (by decide) <| by decide

theorem Laws.EncodingRow.ebreak : Laws.EncodingRow.Statement (.ebreak) :=
  Laws.EncodingRow.of_row (m := .ebreak) (p := 0x00100073) (c := 0xFFFFFFFF) rfl (by decide) <| by decide

theorem Laws.EncodingRow.csrrw (rd : RegIdx) (csr : CsrIdx) (rs1 : RegIdx) : Laws.EncodingRow.Statement (.csrrw rd csr rs1) :=
  Laws.EncodingRow.of_row (m := .csrrw) (p := 0x00001073) (c := 0x0000707F) rfl (by decide) <| by
    simp [masked_iff, encode, bits_0_formatI, bits_12_formatI]

theorem Laws.EncodingRow.csrrs (rd : RegIdx) (csr : CsrIdx) (rs1 : RegIdx) : Laws.EncodingRow.Statement (.csrrs rd csr rs1) :=
  Laws.EncodingRow.of_row (m := .csrrs) (p := 0x00002073) (c := 0x0000707F) rfl (by decide) <| by
    simp [masked_iff, encode, bits_0_formatI, bits_12_formatI]

theorem Laws.EncodingRow.csrrc (rd : RegIdx) (csr : CsrIdx) (rs1 : RegIdx) : Laws.EncodingRow.Statement (.csrrc rd csr rs1) :=
  Laws.EncodingRow.of_row (m := .csrrc) (p := 0x00003073) (c := 0x0000707F) rfl (by decide) <| by
    simp [masked_iff, encode, bits_0_formatI, bits_12_formatI]

theorem Laws.EncodingRow.csrrwi (rd : RegIdx) (csr : CsrIdx) (uimm : Word) : Laws.EncodingRow.Statement (.csrrwi rd csr uimm) :=
  Laws.EncodingRow.of_row (m := .csrrwi) (p := 0x00005073) (c := 0x0000707F) rfl (by decide) <| by
    simp [masked_iff, encode, bits_0_formatI, bits_12_formatI]

theorem Laws.EncodingRow.csrrsi (rd : RegIdx) (csr : CsrIdx) (uimm : Word) : Laws.EncodingRow.Statement (.csrrsi rd csr uimm) :=
  Laws.EncodingRow.of_row (m := .csrrsi) (p := 0x00006073) (c := 0x0000707F) rfl (by decide) <| by
    simp [masked_iff, encode, bits_0_formatI, bits_12_formatI]

theorem Laws.EncodingRow.csrrci (rd : RegIdx) (csr : CsrIdx) (uimm : Word) : Laws.EncodingRow.Statement (.csrrci rd csr uimm) :=
  Laws.EncodingRow.of_row (m := .csrrci) (p := 0x00007073) (c := 0x0000707F) rfl (by decide) <| by
    simp [masked_iff, encode, bits_0_formatI, bits_12_formatI]

end Sys2Proof
end

