-- ==== Sys2Proof/Tests/Slice0.lean ====
section
/-! SUPPORT. The model's own tests. Words and expected values come from spec/95_test_vectors.md (its section is named at each
group) or from a numbered rule. Then a witness for each statement that has hypotheses, at boundary values. -/

namespace Sys2Proof.Tests

open Sys2Proof.Machine

/-! ### Helpers -/

/-- The reset launch with `x5`, `x6` and the word at the pc set. -/
def ready (w : Nat) (x5 x6 : Word) : State := ((State.reset.writeReg 5 x5).writeReg 6 x6).withFetchWord 32 w

/-- The same at another pc. -/
def readyAt (pc : Word) (w : Nat) (x5 x6 : Word) : State :=
  (((State.reset.setPc pc).writeReg 5 x5).writeReg 6 x6).withFetchWord 32 w

/-- The outcome is a next state of which `p` holds. -/
def gives (o : Host.Outcome State Fault Refusal) (p : State → Bool) : Bool :=
  match o with
  | .next t => p t
  | .fault _ => false
  | .refused _ => false

/-- What `gives` says, as a proposition. -/
theorem next_of_gives {o : Host.Outcome State Fault Refusal} {p : State → Bool} (h : gives o p = true) :
    ∃ t, o = .next t ∧ p t = true := by
  cases o with
  | next t => exact ⟨t, rfl, h⟩
  | fault r => cases r
  | refused r => simp [gives] at h

/-- The outcome is a next state. -/
theorem next_of_gives_true {o : Host.Outcome State Fault Refusal} (h : gives o (fun _ => true) = true) :
    ∃ t, o = .next t := (next_of_gives h).imp fun _ h => h.1

/-- The outcome is a next state with this run status. -/
theorem next_of_gives_status {o : Host.Outcome State Fault Refusal} {r : RunStatus}
    (h : gives o (fun t => t.status == r) = true) : ∃ t, o = .next t ∧ t.status = r :=
  (next_of_gives h).imp fun _ h => ⟨h.1, by simpa using h.2⟩

/-- One step of `ready w x5 x6` leaves `v` in `x[rd]` and the pc moved on by 4. -/
def stepGives (w : Nat) (x5 x6 : Word) (rd : RegIdx) (v : Word) : Bool :=
  gives (step (ready w x5 x6)) fun t => t.readReg rd == v && t.cpu.pc == 0x00020004#32 && t.status == .running

/-- One step from `readyAt pc w x5 x6` ends at the pc `target`. -/
def stepGoesTo (pc : Word) (w : Nat) (x5 x6 target : Word) : Bool :=
  gives (step (readyAt pc w x5 x6)) fun t => t.cpu.pc == target && t.status == .running

/-- One step from `s` ends Aborted with this result, the pc where it was and memory as it was. -/
def stepAborts (s : State) (k : FaultKind) (info : Word) (a : Option AccessKind) : Bool :=
  gives (step s) fun t => t.result == some (.aborted k info s.cpu.pc a) && t.cpu == s.cpu && t.mem == s.mem

/-- `ready` in supervisor mode. -/
def supervisor (w : Nat) : State := (ready w 0 0).withMode .supervisor

/-- `ready` with one boundary sample to come. -/
def sampled (w : Nat) (b : Boundary) : State := (ready w 7 8).withBoundaries [b]

/-! ### WellFormed: an ill-formed term for each check, and the values at its edges -/

theorem test_wf_imm12 : (Instr.addi 1 2 0x800#32).wf = false ∧ (Instr.sw 1 2 0xFFFFF7FF#32).wf = false ∧
    (Instr.lb 1 2 0x7FF#32).wf = true ∧ (Instr.jalr 1 2 0xFFFFF800#32).wf = true := by decide

theorem test_wf_branch : (Instr.beq 1 2 0x1000#32).wf = false ∧ (Instr.bgeu 1 2 3#32).wf = false ∧
    (Instr.bne 1 2 0xFFE#32).wf = true ∧ (Instr.blt 1 2 0xFFFFF000#32).wf = true := by decide

theorem test_wf_jump : (Instr.jal 1 0x100000#32).wf = false ∧ (Instr.jal 1 1#32).wf = false ∧
    (Instr.jal 1 0xFFFFE#32).wf = true ∧ (Instr.jal 1 0xFFF00000#32).wf = true := by decide

theorem test_wf_upper : (Instr.lui 1 0x1800#32).wf = false ∧ (Instr.auipc 1 0xFFFFF000#32).wf = true := by decide

theorem test_wf_uimm : (Instr.csrrwi 1 0 32#32).wf = false ∧ (Instr.csrrci 1 0 31#32).wf = true := by decide

/-! ### Decoding: a word for every constructor (95 section 2.1) -/

theorem test_decode_upper : decode 0x123452B7#32 = .ok (.lui 5 0x12345000#32) ∧
    decode 0x00001297#32 = .ok (.auipc 5 0x00001000#32) := by decide

theorem test_decode_jumps : decode 0x008000EF#32 = .ok (.jal 1 8#32) ∧
    decode 0xFFD280E7#32 = .ok (.jalr 1 5 0xFFFFFFFD#32) := by decide

theorem test_decode_branches : decode 0x00628463#32 = .ok (.beq 5 6 8#32) ∧
    decode 0xFE629CE3#32 = .ok (.bne 5 6 0xFFFFFFF8#32) ∧ decode 0x0062C663#32 = .ok (.blt 5 6 12#32) ∧
    decode 0x0062D663#32 = .ok (.bge 5 6 12#32) ∧ decode 0x0062E663#32 = .ok (.bltu 5 6 12#32) ∧
    decode 0x0062F663#32 = .ok (.bgeu 5 6 12#32) := by decide

theorem test_decode_loads : decode 0x00028303#32 = .ok (.lb 6 5 0#32) ∧ decode 0x00229303#32 = .ok (.lh 6 5 2#32) ∧
    decode 0xFFC2A303#32 = .ok (.lw 6 5 0xFFFFFFFC#32) ∧ decode 0x0032C303#32 = .ok (.lbu 6 5 3#32) ∧
    decode 0x0012D303#32 = .ok (.lhu 6 5 1#32) := by decide

theorem test_decode_stores : decode 0x00628023#32 = .ok (.sb 5 6 0#32) ∧ decode 0x00629123#32 = .ok (.sh 5 6 2#32) ∧
    decode 0xFE62AE23#32 = .ok (.sw 5 6 0xFFFFFFFC#32) := by decide

theorem test_decode_opImm : decode 0xFFF00293#32 = .ok (.addi 5 0 0xFFFFFFFF#32) ∧
    decode 0x0002A313#32 = .ok (.slti 6 5 0#32) ∧ decode 0xFFF2B313#32 = .ok (.sltiu 6 5 0xFFFFFFFF#32) ∧
    decode 0xFFF2C313#32 = .ok (.xori 6 5 0xFFFFFFFF#32) ∧ decode 0x0F02E313#32 = .ok (.ori 6 5 0xF0#32) ∧
    decode 0x0FF2F313#32 = .ok (.andi 6 5 0xFF#32) ∧ decode 0x00429313#32 = .ok (.slli 6 5 4#5) ∧
    decode 0x0042D313#32 = .ok (.srli 6 5 4#5) ∧ decode 0x4042D313#32 = .ok (.srai 6 5 4#5) := by decide

theorem test_decode_op : decode 0x006283B3#32 = .ok (.add 7 5 6) ∧ decode 0x406283B3#32 = .ok (.sub 7 5 6) ∧
    decode 0x006293B3#32 = .ok (.sll 7 5 6) ∧ decode 0x0062A3B3#32 = .ok (.slt 7 5 6) ∧
    decode 0x0062B3B3#32 = .ok (.sltu 7 5 6) ∧ decode 0x0062C3B3#32 = .ok (.xor 7 5 6) ∧
    decode 0x0062D3B3#32 = .ok (.srl 7 5 6) ∧ decode 0x4062D3B3#32 = .ok (.sra 7 5 6) ∧
    decode 0x0062E3B3#32 = .ok (.or 7 5 6) ∧ decode 0x0062F3B3#32 = .ok (.and 7 5 6) := by decide

theorem test_decode_system : decode 0x0FF0000F#32 = .ok (.fence 0#4 15#4 15#4 0 0) ∧
    decode 0xFFFF800F#32 = .ok (.fence 15#4 15#4 15#4 31 0) ∧ decode 0x00000073#32 = .ok .ecall ∧
    decode 0x00100073#32 = .ok .ebreak := by decide

theorem test_decode_csr : decode 0x34029073#32 = .ok (.csrrw 0 0x340#12 5) ∧
    decode 0x34002373#32 = .ok (.csrrs 6 0x340#12 0) ∧ decode 0x3002B373#32 = .ok (.csrrc 6 0x300#12 5) ∧
    decode 0x340FD373#32 = .ok (.csrrwi 6 0x340#12 31#32) ∧ decode 0x30046073#32 = .ok (.csrrsi 0 0x300#12 8#32) ∧
    decode 0x30047373#32 = .ok (.csrrci 6 0x300#12 8#32) := by decide

/-- Each bit of a scattered immediate (95 section 2.1, the bit tables and the extremes). -/
theorem test_immediate_bits : immS 0x000000A3#32 = 1#32 ∧ immS 0x02000023#32 = 32#32 ∧ immS 0x8062A023#32 = 0xFFFFF800#32 ∧
    immB 0x00000163#32 = 2#32 ∧ immB 0x02000063#32 = 32#32 ∧ immB 0x000000E3#32 = 2048#32 ∧
    immB 0x80000063#32 = 0xFFFFF000#32 ∧ immJ 0x0020006F#32 = 2#32 ∧ immJ 0x0010006F#32 = 2048#32 ∧
    immJ 0x0000106F#32 = 4096#32 ∧ immJ 0x0008006F#32 = 524288#32 ∧ immJ 0x8000006F#32 = 0xFFF00000#32 ∧
    immI 0x7FF28313#32 = 0x7FF#32 ∧ immU 0xFFFFF2B7#32 = 0xFFFFF000#32 := by decide

/-! ### Illegal words, one class each (95 section 2.2) -/

theorem test_illegal_length : decode 0x00000000#32 = .error .notThirtyTwoBit ∧
    decode 0x00001001#32 = .error .notThirtyTwoBit ∧ decode 0x00000002#32 = .error .notThirtyTwoBit := by decide

theorem test_illegal_opcode : decode 0xFFFFFFFF#32 = .error .majorOpcode ∧ decode 0x0000000B#32 = .error .majorOpcode ∧
    decode 0x0000002F#32 = .error .majorOpcode ∧ decode 0x0000003B#32 = .error .majorOpcode := by decide

theorem test_illegal_functs : decode 0x02B50533#32 = .error .opFunct7 ∧ decode 0x4062A3B3#32 = .error .opFunct7 ∧
    decode 0x00001067#32 = .error .jalrFunct3 ∧ decode 0x00003063#32 = .error .branchFunct3 ∧
    decode 0x00006003#32 = .error .loadFunct3 ∧ decode 0x00003023#32 = .error .storeFunct3 ∧
    decode 0x02001013#32 = .error .opImmFunct7 ∧ decode 0x20005013#32 = .error .opImmFunct7 := by decide

theorem test_illegal_system : decode 0x0000100F#32 = .error .miscMemFunct3 ∧ decode 0x00004073#32 = .error .systemFunct3 ∧
    decode 0x30200073#32 = .error .systemWord ∧ decode 0x10500073#32 = .error .systemWord ∧
    decode 0x000000F3#32 = .error .systemWord ∧ decode 0x00108073#32 = .error .systemWord := by decide

/-- Legal words that look illegal (95 section 2.2). -/
theorem test_legal_lookalikes : decode 0x00000003#32 = .ok (.lb 0 0 0#32) ∧ decode 0x0000000F#32 = .ok (.fence 0 0 0 0 0) ∧
    decode 0x00005073#32 = .ok (.csrrwi 0 0 0#32) := by decide

theorem test_decodeTableWord : decodeTableWord 32 0x00A00293 = some (.addi 5 0 10#32) ∧
    decodeTableWord 32 0 = none := by decide

theorem test_opcodeTable_rows : opcodeTable.length = 46 := by decide

/-! ### Integer computational (95 sections 2.3 and 2.4) -/

theorem test_lui : stepGives 0x123452B7 0 0 5 0x12345000 = true := by decide
theorem test_lui_x0 : stepGives 0x12345037 0 0 0 0 = true := by decide
theorem test_auipc : gives (step (readyAt 0x00020004#32 0xFFFFF297 0 0)) (fun t => t.readReg 5 == 0x0001F004#32) = true := by
  decide
theorem test_addi_wraps : stepGives 0x00128313 0xFFFFFFFF 0 6 0 = true := by decide
theorem test_addi_same_register : stepGives 0x00128293 0x29 0 5 0x2A = true := by decide
theorem test_slti : stepGives 0xFFF2A313 0x80000000 0 6 1 = true := by decide
theorem test_sltiu_sign_extends : stepGives 0xFFF2B313 0xFFFFFFFE 0 6 1 = true := by decide
theorem test_sltiu_equal : stepGives 0xFFF2B313 0xFFFFFFFF 7 6 0 = true := by decide
theorem test_xori : stepGives 0xFFF2C313 0x0000FF00 0 6 0xFFFF00FF = true := by decide
theorem test_ori : stepGives 0x8002E313 0x7FF 0 6 0xFFFFFFFF = true := by decide
theorem test_andi : stepGives 0x0FF2F313 0x12345678 0 6 0x78 = true := by decide
theorem test_slli : stepGives 0x00429313 0xF0000001 0 6 0x10 = true := by decide
theorem test_srli : stepGives 0x0042D313 0x80000010 0 6 0x08000001 = true := by decide
theorem test_srai : stepGives 0x4042D313 0x80000010 0 6 0xF8000001 = true := by decide
theorem test_add_overflows : stepGives 0x006283B3 0x7FFFFFFF 1 7 0x80000000 = true := by decide
theorem test_sub_borrows : stepGives 0x406283B3 0 1 7 0xFFFFFFFF = true := by decide
theorem test_sll_amount_33 : stepGives 0x006293B3 1 33 7 2 = true := by decide
theorem test_slt : stepGives 0x0062A3B3 0x80000000 0x7FFFFFFF 7 1 = true := by decide
theorem test_sltu : stepGives 0x0062B3B3 0x80000000 0x7FFFFFFF 7 0 = true := by decide
theorem test_xor : stepGives 0x0062C3B3 0xFF00FF00 0x0FF00FF0 7 0xF0F0F0F0 = true := by decide
theorem test_srl : stepGives 0x0062D3B3 0x80000000 31 7 1 = true := by decide
theorem test_sra : stepGives 0x4062D3B3 0x80000000 31 7 0xFFFFFFFF = true := by decide
theorem test_or : stepGives 0x0062E3B3 0xFF00FF00 0x0FF00FF0 7 0xFFF0FFF0 = true := by decide
theorem test_and : stepGives 0x0062F3B3 0xFF00FF00 0x0FF00FF0 7 0x0F000F00 = true := by decide

/-! ### Control transfer (rules R122 to R129) -/

theorem test_jal : gives (step (ready 0x008000EF 0 0)) (fun t => t.readReg 1 == 0x00020004#32 &&
    t.cpu.pc == 0x00020008#32) = true := by decide
theorem test_jalr_clears_bit_0 : gives (step (readyAt 0x00020010#32 0xFFD280E7 0x00020104 0)) (fun t =>
    t.readReg 1 == 0x00020014#32 && t.cpu.pc == 0x00020100#32) = true := by decide
/-- `jalr x5, 4(x5)`: the target comes from the old `x5`. -/
theorem test_jalr_old_base : gives (step (ready 0x004282E7 0x00020104 0)) (fun t =>
    t.readReg 5 == 0x00020004#32 && t.cpu.pc == 0x00020108#32) = true := by decide
theorem test_beq : stepGoesTo 0x00020000#32 0x00628463 7 7 0x00020008#32 = true ∧
    stepGoesTo 0x00020000#32 0x00628463 7 8 0x00020004#32 = true := by decide
theorem test_bne : stepGoesTo 0x00020010#32 0xFE629CE3 1 0 0x00020008#32 = true ∧
    stepGoesTo 0x00020010#32 0xFE629CE3 1 1 0x00020014#32 = true := by decide
theorem test_blt : stepGoesTo 0x00020000#32 0x0062C663 0xFFFFFFFF 0 0x0002000C#32 = true := by decide
theorem test_bge : stepGoesTo 0x00020000#32 0x0062D663 0xFFFFFFFF 0 0x00020004#32 = true := by decide
theorem test_bltu : stepGoesTo 0x00020000#32 0x0062E663 0 0xFFFFFFFF 0x0002000C#32 = true := by decide
theorem test_bgeu : stepGoesTo 0x00020000#32 0x0062F663 0xFFFFFFFF 0 0x0002000C#32 = true := by decide

/-! ### Loads and stores (rules R134 to R142) -/

/-- The bytes `80 56 34 92` at 0x00030000. -/
def withData (w : Nat) (x5 : Word) : State :=
  (State.reset.setMem (Memory.writeBytes [] 0x00030000 [0x80#8, 0x56#8, 0x34#8, 0x92#8])).writeReg 5 x5
    |>.withFetchWord 32 w

def loads (w : Nat) (x5 v : Word) : Bool := gives (step (withData w x5)) fun t => t.readReg 6 == v

theorem test_lb : loads 0x00028303 0x00030000 0xFFFFFF80 = true := by decide
theorem test_lh : loads 0x00229303 0x00030000 0xFFFF9234 = true := by decide
theorem test_lw : loads 0xFFC2A303 0x00030004 0x92345680 = true := by decide
theorem test_lbu : loads 0x0032C303 0x00030000 0x92 = true := by decide
theorem test_lhu_odd : loads 0x0012D303 0x00030000 0x3456 = true := by decide

def stores (w : Nat) (x5 : Word) (m : Memory) : Bool :=
  gives (step (ready w x5 0x12345678)) fun t => t.mem == Memory.ofImage ((ready w x5 0).mem ++ m)

theorem test_sb : stores 0x00628023 0x00030000 [(0x00030000, 0x78#8)] = true := by decide
theorem test_sh : stores 0x00629123 0x00030000 [(0x00030002, 0x78#8), (0x00030003, 0x56#8)] = true := by decide
theorem test_sw : stores 0xFE62AE23 0x00030004
    [(0x00030000, 0x78#8), (0x00030001, 0x56#8), (0x00030002, 0x34#8), (0x00030003, 0x12#8)] = true := by decide

/-- Scenario B, and the last bytes of the window (95 sections 1.2 and 2.6). -/
theorem test_store_aborts : stepAborts (ready 0x40002023 0 0) .outOfRangeAccess 0x00000400 (some .store) = true ∧
    stepAborts (ready 0x0062A023 0x00FFFFFD 1) .outOfRangeAccess 0x00FFFFFD (some .store) = true := by decide
theorem test_load_aborts_into_x0 : stepAborts (ready 0x0002A003 0x0001FFFD 0) .outOfRangeAccess 0x0001FFFD (some .load)
    = true := by decide
theorem test_fetch_aborts : stepAborts (State.reset.setPc 0x00FFFFFD#32) .outOfRangeAccess 0x00FFFFFD (some .fetch) = true ∧
    stepAborts (State.reset.setPc 0x01000000#32) .outOfRangeAccess 0x01000000 (some .fetch) = true := by decide

/-! ### FENCE, ECALL, EBREAK, the halt word (rules R146 to R149) -/

theorem test_fence : stepGoesTo 0x00020000#32 0x8330000F 0 0 0x00020004#32 = true := by decide
theorem test_ecall : stepAborts (ready 0x00000073 0 0) .illegalInstruction 0x00000073 none = true := by decide
/-- `withFetchWord` moves the halt word away from EBREAK, so that it runs (log 12). -/
theorem test_ebreak : stepAborts (ready 0x00100073 0 0) .illegalInstruction 0x00100073 none = true := by decide
theorem test_illegal : stepAborts (ready 0x0000007F 0 0) .illegalInstruction 0x0000007F none = true := by decide

/-- A state whose fetched word is the halt word: `x10` is 42. -/
def atHalt : State :=
  { (State.reset.writeReg 10 42#32).withFetchWord 32 0x00000013 with
    inputs := { haltWord := 0x00000013#32, boundaries := [], loads := [] } }

/-- A halt word that spells NOP halts, does not run, and moves the pc (rules R83, R177). -/
theorem test_halt : gives (step atHalt) (fun t => t.result == some (.halted 42#32) && t.cpu.pc == 0x00020004#32) = true := by
  decide

/-! ### CSR (95 section 2.8) -/

theorem test_csrrw : stepGives 0x34029073 5 7 6 7 = true := by decide
theorem test_csrrs : stepGives 0x34002373 0 0xDEADBEEF 6 0 = true := by decide
theorem test_csrrc : stepGives 0x3002B373 5 7 6 0 = true := by decide
theorem test_csrrwi : stepGives 0x340FD373 5 7 6 0 = true := by decide
theorem test_csrrsi : stepGives 0x30046073 5 7 6 7 = true := by decide
theorem test_csrrci : stepGives 0x30047373 5 7 6 0 = true := by decide
theorem test_csr_supervisor : stepAborts (supervisor 0x34029073) .illegalCsrAccess 0x34029073 none = true ∧
    stepAborts (supervisor 0x30047373) .illegalCsrAccess 0x30047373 none = true := by decide

/-! ### Boundaries, load event, ports (rules R184, R187, R200, R33) -/

def injects : Boundary := { Boundary.quiet with abortReq := some ⟨.outOfRangeAccess, 9#32⟩, delegations := 1 }
def delegatesTwice : Boundary := { Boundary.quiet with delegations := 2 }
def handsOver : Boundary := { Boundary.quiet with delegations := 1, handlerOut := true }
def returns : Boundary := { Boundary.quiet with delegDone := true }

theorem test_injected_abort : stepAborts (sampled 0x00128293 injects) .outOfRangeAccess 9 none = true ∧
    memoryPort (sampled 0x00128293 injects) = [] := by decide
theorem test_delegation : gives (step (sampled 0x00128293 delegatesTwice)) (fun t => t.readReg 5 == 8#32 &&
    t.shadow.reg 5 == 7#32 && t.bridge == .idle) = true := by decide
theorem test_handler_out : gives (step (sampled 0x00128293 handsOver)) (fun t => t.readReg 5 == 7#32 &&
    delegReq t && t.shadow == t.cpu) = true := by decide

/-- The state with the handler out and its return to come. -/
def handlerReturns : State := capture (sampled 0x00128293 returns)

theorem test_handler_returns : gives (step handlerReturns) (fun t => t.readReg 5 == 8#32 && t.bridge == .idle) = true := by
  decide

def launch : Launch :=
  { entryPc := 0x00020010#32, initX := Vector.replicate 31 3#32, initMode := .supervisor, haltWord := 5#32,
    image := [(0x00020010, 0x13#8), (0x10, 1#8), (0x00020010, 0x73#8)] }

def halted : State :=
  { State.reset with
    status := .halted, result := some (.halted 0#32)
    inputs := { haltWord := 0x00100073#32, boundaries := [injects], loads := [launch] } }

/-- The latch of a rejected store at the pc of the reset launch. -/
def aborted : State :=
  { State.reset with status := .aborted, result := some (.aborted .outOfRangeAccess 0x00000400#32 0x00020000#32 (some .store)) }

theorem test_load_event : gives (step halted) (fun t => t.readReg 31 == 3#32 && t.cpu.pc == 0x00020010#32 &&
    t.cpu.mode == .supervisor && t.mem == [(0x00020010, 0x73#8)] && t.inputs.haltWord == 5#32) = true := by decide

theorem test_ports : memoryPort (ready 0xFE62AE23 0x00030004 0x12345678) =
      [⟨⟨.fetch, 0x00020000#32, .word, none⟩, some 0xFE62AE23#32⟩,
       ⟨⟨.store, 0x00030000#32, .word, some 0x12345678#32⟩, none⟩] ∧
    memoryPort (ready 0x0002A303 0x00020000 0) =
      [⟨⟨.fetch, 0x00020000#32, .word, none⟩, some 0x0002A303#32⟩,
       ⟨⟨.load, 0x00020000#32, .word, none⟩, some 0x0002A303#32⟩] ∧
    resultPorts halted = ⟨1#2, some 0#32, none, none, none, none⟩ ∧
    resultPorts aborted = ⟨2#2, none, some 1#2, some 0x00000400#32, some 0x00020000#32, some 2#2⟩ := by decide

/-- Memory stays canonical: a byte written back to what an unlisted address reads as is no entry. -/
theorem test_memory_canonical : Memory.write [(1, 1#8), (3, 3#8)] 2 2#8 = [(1, 1#8), (2, 2#8), (3, 3#8)] ∧
    Memory.write [(1, 1#8), (3, 3#8)] 1 0#8 = [(3, 3#8)] ∧ Memory.write [] 5 0#8 = [] := by decide

/-- The launch of State.reset, with nothing placed, fetches the all-zero word and aborts. -/
theorem test_reset_runs : stepAborts State.reset .illegalInstruction 0 none = true := by decide

/-! ### Witnesses: states and operands that meet the hypotheses of the statements, at boundary values -/

/-- The words have this opcode and, in order, these `funct3`. -/
def haveFields (opcode : BitVec 7) (ws : List (Word × BitVec 3)) : Bool :=
  ws.all fun p => opcodeOf p.1 == opcode && funct3Of p.1 == p.2

theorem witness_DecodeInvertsEncode : (Instr.jal 31 0xFFF00000#32).wf = true ∧ (Instr.bgeu 31 0 0xFFE#32).wf = true ∧
    (Instr.sw 31 31 0xFFFFF800#32).wf = true ∧ (Instr.fence 15 15 15 31 31).wf = true := by decide

theorem witness_EncodeInvertsDecode : decode 0x7E000FE3#32 = .ok (.beq 0 0 0xFFE#32) := by decide

theorem witness_DecodeFollowsOpcodeTable : decode 0x4042D313#32 = .ok (.srai 6 5 4#5) ∧
    (∀ row ∈ opcodeTable, row.isRowOf 0x00004073#32 = false) := by decide

theorem witness_NoWordMatchesTwoRows : (⟨.ecall, 0x00000073, 0xFFFFFFFF⟩ : OpcodeRow) ∈ opcodeTable ∧
    (⟨.ecall, 0x00000073, 0xFFFFFFFF⟩ : OpcodeRow).isRowOf 0x00000073#32 = true := by decide

theorem witness_BytesDecodeLittleEndian : (Instr.addi 5 0 10#32).wf = true ∧
    ([0x93#8, 0x02#8, 0xA0#8] : List Byte).length < 4 := by decide

theorem witness_IllegalWordsByClass : (∀ row ∈ opcodeTable, row.isRowOf 0xFFFFFFFF#32 = false) ∧
    Fetches (ready 0x00004073 0 0) (ready 0x00004073 0 0) 0x00004073#32 ∧
    0x00004073#32 ≠ (ready 0x00004073 0 0).inputs.haltWord ∧ decode 0x00004073#32 = .error .systemFunct3 := by
  unfold Fetches ReachesFetch; decide

theorem witness_LogicUnitIsBitwise : 31 < 32 := by decide

/-- For each width of load, the first and last rejected address beside the window. -/
theorem witness_RegisterZeroIsHardwired : ¬ Accepted .load (effectiveAddress 5 0#32 (ready 0 0x0001FFFF 0)) .byte ∧
    ¬ Accepted .load (effectiveAddress 5 0#32 (ready 0 0x00FFFFFF 0)) .half ∧
    ¬ Accepted .load (effectiveAddress 5 0#32 (ready 0 0x00FFFFFD 0)) .word ∧
    (supervisor 0).cpu.mode = .supervisor := by unfold Accepted; decide

theorem witness_ValidatorAcceptsTheWindow : ¬ Accepted .load 0x0001FFFF#32 .byte ∧ Accepted .load 0x00020000#32 .byte ∧
    Accepted .fetch 0x00FFFFFC#32 .word ∧ ¬ Accepted .fetch 0x00FFFFFD#32 .word ∧
    ¬ Accepted .store 0xFFFFFFFE#32 .word := by unfold Accepted; decide

theorem witness_ReadsTakeTheSpanLittleEndian : Accepted .load 0x00FFFFFE#32 .half ∧
    ¬ Accepted .load 0x00FFFFFF#32 .half := by unfold Accepted; decide

theorem witness_WritesAreAllOrNothing : (ready 0x13 0 0).mem.wf ∧ Accepted .store 0x00FFFFFC#32 .word ∧
    ¬ Accepted .store 0x00FFFFFD#32 .word := by unfold Accepted; decide

theorem witness_MixedWidthsSeeTheSameBytes : (ready 0x13 0 0).mem.wf ∧
    ∃ t, memWrite 0x00FFFFFC#32 .word 0x11223344#32 (ready 0x13 0 0) = .ok t := ⟨by decide, _, rfl⟩

theorem witness_UpperImmediatesCompute : opcodeOf 0x123452B7#32 = 0b0110111#7 ∧ opcodeOf 0x00001297#32 = 0b0010111#7 := by
  decide

theorem witness_RegisterImmediatesCompute : haveFields 0b0010011#7 [(0xFFF00293, 0), (0x0002A313, 2), (0xFFF2B313, 3),
    (0xFFF2C313, 4), (0x0F02E313, 6), (0x0FF2F313, 7)] = true := by decide

theorem witness_ShiftImmediatesCompute : opcodeOf 0x4042D313#32 = 0b0010011#7 ∧ funct3Of 0x4042D313#32 = 0b101#3 ∧
    funct7Of 0x4042D313#32 = 0b0100000#7 ∧ funct3Of 0x0042D313#32 = 0b101#3 ∧ funct7Of 0x0042D313#32 = 0#7 ∧
    funct3Of 0x00429313#32 = 0b001#3 ∧ funct7Of 0x00429313#32 = 0#7 ∧ opcodeOf 0x02001013#32 = 0b0010011#7 ∧
    funct3Of 0x02001013#32 = 0b001#3 ∧ funct7Of 0x02001013#32 ≠ 0#7 := by decide

theorem witness_RegisterRegistersCompute : haveFields 0b0110011#7 [(0x006283B3, 0), (0x006293B3, 1), (0x0062A3B3, 2),
      (0x0062B3B3, 3), (0x0062C3B3, 4), (0x0062D3B3, 5), (0x0062E3B3, 6), (0x0062F3B3, 7)] = true ∧
    funct7Of 0x0062F3B3#32 = 0b0000000#7 ∧ haveFields 0b0110011#7 [(0x406283B3, 0), (0x4062D3B3, 5)] = true ∧
    funct7Of 0x406283B3#32 = 0b0100000#7 ∧ funct7Of 0x4062D3B3#32 = 0b0100000#7 := by decide

theorem witness_JumpsLinkAndTransfer : opcodeOf 0x008000EF#32 = 0b1101111#7 ∧ opcodeOf 0xFFD280E7#32 = 0b1100111#7 ∧
    funct3Of 0xFFD280E7#32 = 0b000#3 ∧ opcodeOf 0x00001067#32 = 0b1100111#7 ∧ funct3Of 0x00001067#32 ≠ 0b000#3 := by
  decide

theorem witness_BranchesTestAndTransfer : haveFields 0b1100011#7 [(0x00628463, 0), (0xFE629CE3, 1), (0x0062C663, 4),
      (0x0062D663, 5), (0x0062E663, 6), (0x0062F663, 7)] = true ∧
    ((ready 0x13 0x80000000 0x7FFFFFFF).readReg 5).toInt < ((ready 0x13 0x80000000 0x7FFFFFFF).readReg 6).toInt ∧
    ¬ ((ready 0x13 0x80000000 0x7FFFFFFF).readReg 5).toNat < ((ready 0x13 0x80000000 0x7FFFFFFF).readReg 6).toNat ∧
    (ready 0x13 7 7).readReg 5 = (ready 0x13 7 7).readReg 6 := by decide

theorem witness_OutOfWindowTargetFaultsAtNextFetch : Undisturbed (State.reset.setPc 0x01000000#32) ∧
    ¬ Accepted .fetch (State.reset.setPc 0x01000000#32).cpu.pc .word ∧
    Undisturbed (State.reset.setPc 0x00FFFFFE#32) ∧
    ¬ Accepted .fetch (State.reset.setPc 0x00FFFFFE#32).cpu.pc .word := by unfold Accepted Undisturbed; decide

/-- The invariant of a running state of these tests. -/
theorem inv_ready (w : Nat) (h : (ready w 7 8).mem.wf) (hc : (ready w 7 8).mem.confined) : (ready w 7 8).Inv :=
  ⟨h, hc, trivial, fun h => absurd rfl h, fun h => nomatch h⟩

/-- A canonical memory in the window, a running state with an even pc, and steps that answer next. -/
theorem witness_EvenPcStaysEven : (Instr.jalr 1 5 0xFFFFFFFD#32).wf = true ∧
    (∃ t, exec (.jalr 1 5 0xFFFFFFFD#32) (ready 0x13 7 8) = .next t) ∧ (ready 0x13 7 8).Inv ∧
    (ready 0x13 7 8).status = .running ∧ (ready 0x13 7 8).cpu.pc.getLsbD 0 = false ∧
    ∃ t, step (ready 0x13 7 8) = .next t :=
  ⟨by decide, ⟨_, rfl⟩, inv_ready 0x13 (by decide) (by decide), rfl, by decide, next_of_gives_true (by decide)⟩

theorem witness_LoadsReadAndExtend : haveFields 0b0000011#7 [(0x00028303, 0), (0x00229303, 1), (0xFFC2A303, 2),
      (0x0032C303, 4), (0x0012D303, 5)] = true ∧
    Accepted .load (alu .add ((ready 0x13 0x00FFFFFF 0).readReg 5) 0#32) .byte ∧
    ¬ Accepted .load (alu .add ((ready 0x13 0x00FFFFFF 0).readReg 5) 0#32) .half ∧
    Accepted .load (alu .add ((ready 0x13 0x00FFFFFF 0).readReg 5) 0xFFFFFFFD#32) .word := by unfold Accepted; decide

theorem witness_StoresWriteTheirBytes : haveFields 0b0100011#7 [(0x00628023, 0), (0x00629123, 1), (0xFE62AE23, 2)] = true ∧
    (ready 0x13 0x00FFFFFC 0).mem.wf ∧ Accepted .store (alu .add ((ready 0x13 0x00FFFFFC 0).readReg 5) 0#32) .word ∧
    ¬ Accepted .store (alu .add ((ready 0x13 0x00FFFFFC 0).readReg 5) 1#32) .word := by unfold Accepted; decide

theorem witness_RejectedAccessAborts : ReachesFetch (State.reset.setPc 0x0001FFFD#32) (State.reset.setPc 0x0001FFFD#32) ∧
    ¬ Accepted .fetch (State.reset.setPc 0x0001FFFD#32).cpu.pc .word ∧
    Fetches (ready 0x40002023 0 0) (ready 0x40002023 0 0) 0x40002023#32 ∧
    0x40002023#32 ≠ (ready 0x40002023 0 0).inputs.haltWord ∧ decode 0x40002023#32 = .ok (.sw 0 0 0x400#32) ∧
    dataAccess (.sw 0 0 0x400#32) (ready 0x40002023 0 0) = some ⟨.store, 0x400#32, .word, some 0#32⟩ ∧
    ¬ Accepted .store 0x400#32 .word ∧
    dataAccess (.lh 6 5 0#32) (ready 0x13 0x00020001 0) = some ⟨.load, 0x00020001#32, .half, none⟩ ∧
    Accepted .load 0x00020001#32 .half := by unfold Fetches ReachesFetch Accepted; decide

theorem witness_AbsoluteAccessAborts : fitsImm12 0x7FF#32 = true ∧ fitsImm12 0xFFFFF800#32 = true := by decide

theorem witness_StoredCodeIsFetched : (ready 0x13 0x00020004 0x13).mem.wf ∧
    Accepted .store (effectiveAddress 5 0#32 (ready 0x13 0x00020004 0x13)) .word ∧
    ∃ t, exec (.sw 5 6 0#32) (ready 0x13 0x00020004 0x13) = .next t ∧ t.cpu.pc = 0x00020004#32 ∧
      effectiveAddress 5 0#32 (ready 0x13 0x00020004 0x13) = 0x00020004#32 :=
  ⟨by decide, by unfold Accepted; decide, _, rfl, by decide, by decide⟩

theorem witness_FenceOnlyAdvances : opcodeOf 0x0FF0000F#32 = 0b0001111#7 ∧ funct3Of 0x0FF0000F#32 = 0b000#3 ∧
    opcodeOf 0x0000100F#32 = 0b0001111#7 ∧ funct3Of 0x0000100F#32 ≠ 0b000#3 := by decide

theorem witness_EcallAndEbreakAbort : Fetches (ready 0x00000073 0 0) (ready 0x00000073 0 0) 0x00000073#32 ∧
    0x00000073#32 ≠ (ready 0x00000073 0 0).inputs.haltWord ∧
    Fetches (ready 0x00100073 0 0) (ready 0x00100073 0 0) 0x00100073#32 ∧
    0x00100073#32 ≠ (ready 0x00100073 0 0).inputs.haltWord := by unfold Fetches ReachesFetch; decide

theorem witness_CsrInstructionsAreStubs : haveFields 0b1110011#7 [(0x34029073, 1), (0x34002373, 2), (0x3002B373, 3),
      (0x340FD373, 5), (0x30046073, 6), (0x30047373, 7)] = true ∧ (ready 0x13 0 0).cpu.mode = .user ∧
    (supervisor 0x13).cpu.mode = .supervisor := by decide

theorem witness_CsrUnitFollowsTheMode : decode 0x34029073#32 = .ok (.csrrw 0 0x340#12 5) ∧
    (Instr.csrrw 0 0x340#12 5).isCsr = true ∧ (supervisor 0x34029073).cpu.mode = .supervisor := by decide

theorem witness_CsrWriteThenReadYieldsZero : (ready 0x13 0 0).cpu.mode = .user ∧
    (∃ t, exec (.csrrw 0 0xFFF#12 5) (ready 0x13 0 0) = .next t) ∧ (Instr.csrrci 31 0 31#32).isCsr = true ∧
    (supervisor 0x13).cpu.mode = .supervisor ∧ ∃ t, exec (.csrrci 31 0 31#32) (supervisor 0x13) = .next t :=
  ⟨rfl, ⟨_, rfl⟩, rfl, rfl, ⟨_, rfl⟩⟩

theorem witness_IllegalInstructionCauses : Fetches (ready 0xFFFFFFFF 0 0) (ready 0xFFFFFFFF 0 0) 0xFFFFFFFF#32 ∧
    0xFFFFFFFF#32 ≠ (ready 0xFFFFFFFF 0 0).inputs.haltWord := by unfold Fetches ReachesFetch; decide

theorem witness_IllegalCsrAccessCauses : Fetches (supervisor 0x34029073) (supervisor 0x34029073) 0x34029073#32 ∧
    0x34029073#32 ≠ (supervisor 0x34029073).inputs.haltWord := by unfold Fetches ReachesFetch; decide

theorem witness_OutOfRangeAccessCauses : ReachesFetch (ready 0x40002023 0 0) (ready 0x40002023 0 0) := by
  unfold ReachesFetch; decide

theorem witness_FetchGoesThroughTheValidator : ReachesFetch (ready 0x13 0 0) (ready 0x13 0 0) ∧
    Accepted .fetch (ready 0x13 0 0).cpu.pc .word ∧
    ReachesFetch (State.reset.setPc 0xFFFFFFFE#32) (State.reset.setPc 0xFFFFFFFE#32) ∧
    ¬ Accepted .fetch (State.reset.setPc 0xFFFFFFFE#32).cpu.pc .word := by unfold ReachesFetch Accepted; decide

theorem witness_HaltWordHalts : Fetches atHalt atHalt atHalt.inputs.haltWord := by unfold Fetches ReachesFetch; decide

theorem witness_AbortsArePrecise : (ready 0 7 8).Inv ∧ (ready 0 7 8).status = .running ∧
    ∃ t, step (ready 0 7 8) = .next t ∧ t.status = .aborted :=
  ⟨inv_ready 0 (by decide) (by decide), rfl, next_of_gives_status (by decide)⟩

/-- A step that halts, one that aborts by injection and one that aborts on its word; a terminal state with no load to
come, and one with a load. -/
theorem witness_RunStatusTransitions : (∃ t, step atHalt = .next t ∧ t.status = .halted) ∧
    (∃ t, step (sampled 0x13 injects) = .next t ∧ t.status = .aborted) ∧
    (∃ t, step (ready 0 7 8) = .next t ∧ t.status = .aborted) ∧
    ({ halted with inputs := { haltWord := 0#32, boundaries := [], loads := [] } } : State).inputs.loads = [] ∧
    halted.status ≠ .running ∧ halted.inputs.loads = launch :: [] :=
  ⟨next_of_gives_status (by decide), next_of_gives_status (by decide), next_of_gives_status (by decide), rfl, by decide, rfl⟩

theorem witness_TerminalStatesAreFinal : ∃ s : State, s.status ≠ .running ∧ s.inputs.loads = [] ∧
    s.inputs.boundaries = [injects] :=
  ⟨{ halted with inputs := { haltWord := 0#32, boundaries := [injects], loads := [] } }, by decide, rfl, rfl⟩

theorem witness_InjectedAbortEndsTheRun : (sampled 0x13 injects).status = .running ∧
    (sampled 0x13 injects).bridge = .idle ∧ (sampled 0x13 injects).sample.abortReq = some ⟨.outOfRangeAccess, 9#32⟩ := by
  decide

theorem witness_DelegationCapturesAndRestores : (sampled 0x13 handsOver).status = .running ∧
    (sampled 0x13 handsOver).bridge = .idle ∧ (sampled 0x13 handsOver).sample.abortReq = none ∧
    (sampled 0x13 handsOver).sample.handlerOut = true ∧ handlerReturns.bridge = .delegating ∧
    handlerReturns.status = .running ∧ handlerReturns.sample.delegDone = true ∧ handlerReturns.sample.handlerOut = false ∧
    (capture (sampled 0x13 handsOver)).bridge = .delegating ∧ (capture (sampled 0x13 handsOver)).sample.delegDone = false ∧
    (capture (sampled 0x13 { returns with handlerOut := true })).sample.handlerOut = true := by decide

theorem witness_InterruptsAreTransparent : (ready 0x13 0 0).bridge = .idle ∧
    OnlyDelegates [delegatesTwice, Boundary.quiet, { delegatesTwice with delegDone := true }] := by
  unfold OnlyDelegates; decide

theorem witness_ModeIsConstant : (ready 0x30200073 7 8).Inv ∧ (ready 0x30200073 7 8).status = .running ∧
    ∃ t, step (ready 0x30200073 7 8) = .next t :=
  ⟨inv_ready 0x30200073 (by decide) (by decide), rfl, next_of_gives_true (by decide)⟩

theorem witness_ModeMattersOnlyToCsr : Instr.ecall.isCsr = false := by decide

theorem witness_EveryTransitionKeepsInv : (ready 0x00628023 7 8).Inv ∧ ∃ t, step (ready 0x00628023 7 8) = .next t :=
  ⟨inv_ready 0x00628023 (by decide) (by decide), next_of_gives_true (by decide)⟩

theorem witness_LoadEventStartsARun : halted.status ≠ .running ∧ halted.inputs.loads = launch :: [] ∧
    launch.image = [(0x00020010, 0x13#8), (0x10, 1#8)] ++ (0x00020010, 0x73#8) :: [] ∧ InWindow 0x00020010 := by
  unfold InWindow; decide

/-- Two memories that agree in the window and differ outside it, at an address beside it. -/
theorem witness_GuestIsConfinedToTheWindow : (ready 0x13 0 0).status = .running ∧ (ready 0x13 0 0).mem.wf ∧
    Memory.wf ((0x0001FFFF, 9#8) :: (ready 0x13 0 0).mem) ∧
    (∀ a, InWindow a → Memory.read ((0x0001FFFF, 9#8) :: (ready 0x13 0 0).mem) a = (ready 0x13 0 0).mem.read a) ∧
    ∃ t, step (ready 0x13 0 0) = .next t := by
  refine ⟨rfl, by decide, by decide, fun a h => ?_, next_of_gives_true (by decide)⟩
  have : (0x0001FFFF : Nat) ≠ a := fun h' => by subst h'; exact absurd h (by unfold InWindow; decide)
  simp [Memory.read, this]

theorem witness_MemoryPortStaysInTheWindow : (⟨⟨.fetch, 0x00020000#32, .word, none⟩, some 0x13#32⟩ : PortAccess) ∈
    memoryPort (ready 0x13 0 0) := by decide

/-- SB at the last byte of the window and LW at its last word, which are accepted, beside fetches that are. -/
theorem witness_OneFetchThenAtMostOneDataAccess : dataAccess (.sb 5 6 0#32) (ready 0x13 0x00030000 0x1FF) =
      some ⟨.store, 0x00030000#32, .byte, some 0xFF#32⟩ ∧
    Fetches (ready 0x00628023 0x00FFFFFF 0x1FF) (ready 0x00628023 0x00FFFFFF 0x1FF) 0x00628023#32 ∧
    Accepted .fetch (ready 0x00628023 0x00FFFFFF 0x1FF).cpu.pc .word ∧
    0x00628023#32 ≠ (ready 0x00628023 0x00FFFFFF 0x1FF).inputs.haltWord ∧ decode 0x00628023#32 = .ok (.sb 5 6 0#32) ∧
    dataAccess (.sb 5 6 0#32) (ready 0x00628023 0x00FFFFFF 0x1FF) =
      some ⟨.store, 0x00FFFFFF#32, .byte, some 0xFF#32⟩ ∧
    Accepted .store 0x00FFFFFF#32 .byte ∧
    Fetches (ready 0x0002A303 0x00FFFFFC 0) (ready 0x0002A303 0x00FFFFFC 0) 0x0002A303#32 ∧
    0x0002A303#32 ≠ (ready 0x0002A303 0x00FFFFFC 0).inputs.haltWord ∧ decode 0x0002A303#32 = .ok (.lw 6 5 0#32) ∧
    dataAccess (.lw 6 5 0#32) (ready 0x0002A303 0x00FFFFFC 0) = some ⟨.load, 0x00FFFFFC#32, .word, none⟩ ∧
    Accepted .load 0x00FFFFFC#32 .word := by unfold Fetches ReachesFetch Accepted; decide

theorem witness_StepRunsTheDecodedInstruction : Fetches (ready 0x13 0 0) (ready 0x13 0 0) 0x13#32 ∧
    0x13#32 ≠ (ready 0x13 0 0).inputs.haltWord ∧ decode 0x13#32 = .ok (.addi 0 0 0#32) ∧ Undisturbed (ready 0x13 0 0) ∧
    ReachesFetch (sampled 0x13 delegatesTwice)
      (delegateTimes 2 (sampled 0x13 delegatesTwice).afterSample) := by
  unfold Fetches Undisturbed ReachesFetch; decide

/-- The word is the halt word of the state before, and the pc is the last that is accepted. -/
theorem witness_WithFetchWordRunsTheInstruction : State.reset.mem.wf ∧
    Accepted .fetch (State.reset.setPc 0x00FFFFFC#32).cpu.pc .word ∧ decode State.reset.inputs.haltWord = .ok .ebreak := by
  unfold Accepted; decide

/-- A state of each status that meets the invariant; a transition that aborts on its fetch, one whose abort, of kind 1, is
injected. -/
theorem witness_ResultPortsFollowTheLatch : ((ready 0 7 8).Inv ∧ (ready 0 7 8).status = .running) ∧
    (halted.Inv ∧ halted.status = .halted) ∧ (aborted.Inv ∧ aborted.status = .aborted) ∧
    (∃ t, step (State.reset.setPc 0x0001FFFF#32) = .next t ∧ t.status = .aborted) ∧
    (∃ t, step (sampled 0x13 injects) = .next t ∧ t.status = .aborted) :=
  ⟨⟨inv_ready 0 (by decide) (by decide), rfl⟩, ⟨⟨by decide, by decide, rfl, by decide, by decide⟩, rfl⟩,
    ⟨⟨by decide, by decide, ⟨rfl, fun _ => rfl⟩, by decide, by decide⟩, rfl⟩, next_of_gives_status (by decide),
    next_of_gives_status (by decide)⟩

end Sys2Proof.Tests
end

section
/-! PROOFS of the statements about the whole state: the machine's invariant, the mode, `x0`, and what the memory port and
the result ports carry. -/

namespace Sys2Proof.Machine

/-! ### The latch, by run status -/

theorem latchAgrees_running {s : State} (h : s.status = .running) : LatchAgrees s ↔ s.result = none := by
  unfold LatchAgrees
  rw [h]
  cases s.result <;> simp

theorem latchAgrees_halted {s : State} (h : s.status = .halted) :
    LatchAgrees s ↔ s.result = some (.halted (s.readReg 10)) := by
  unfold LatchAgrees
  rw [h]
  rcases s.result with _ | _ | _ <;> simp

theorem latchAgrees_aborted {s : State} (h : s.status = .aborted) :
    LatchAgrees s ↔ ∃ kind info access, s.result = some (.aborted kind info s.cpu.pc access) ∧
      (access ≠ none → kind = .outOfRangeAccess) := by
  unfold LatchAgrees
  rw [h]
  rcases s.result with _ | _ | ⟨kind, info, pc, access⟩
  · simp
  · simp
  · constructor
    · rintro ⟨rfl, hk⟩
      exact ⟨kind, info, access, rfl, hk⟩
    · rintro ⟨_, _, _, e, hk⟩
      cases e
      exact ⟨rfl, hk⟩

/-! ### States that meet the invariant -/

/-- Memory is canonical and lies in the window: what the invariant says of memory. -/
def MemoryOk (m : Memory) : Prop := m.wf ∧ m.confined

theorem State.Inv.memoryOk {s : State} (h : s.Inv) : MemoryOk s.mem := ⟨h.memCanonical, h.memConfined⟩

theorem State.Inv.result_none {s : State} (h : s.Inv) (hs : s.status = .running) : s.result = none :=
  (latchAgrees_running hs).mp h.latch

theorem inv_of_running {s : State} (hm : MemoryOk s.mem) (hs : s.status = .running) (hr : s.result = none)
    (hsh : s.bridge = .delegating → s.shadow = s.cpu) : s.Inv :=
  ⟨hm.1, hm.2, (latchAgrees_running hs).mpr hr, fun h => absurd hs h, hsh⟩

theorem inv_raise {s : State} {k : FaultKind} {a : Option AccessKind} (info : Word) (hm : MemoryOk s.mem)
    (hb : s.bridge = .idle) (hk : a ≠ none → k = .outOfRangeAccess) : (raise k info a s).Inv :=
  ⟨hm.1, hm.2, (latchAgrees_aborted rfl).mpr ⟨k, info, a, rfl, hk⟩, fun _ => hb, fun h => by simp [hb] at h⟩

theorem inv_halt {s : State} (hm : MemoryOk s.mem) (hb : s.bridge = .idle) : (halt s).Inv :=
  ⟨hm.1, hm.2, (latchAgrees_halted rfl).mpr rfl, fun _ => hb, fun h => by simp [hb] at h⟩

theorem inv_loadEvent (l : Launch) (s : State) : (loadEvent l s).Inv :=
  inv_of_running ⟨Memory.ofImage_wf l.image, Memory.ofImage_confined l.image⟩ rfl rfl nofun

theorem inv_reset : State.reset.Inv := inv_of_running ⟨⟨.nil, nofun⟩, nofun⟩ rfl rfl nofun

/-- In a terminal state the run stays as it was or a load event starts the next. -/
theorem terminalStep_keeps_inv {s : State} (h : s.Inv) : (terminalStep s).Inv := by
  unfold terminalStep
  split
  · exact h
  · exact inv_loadEvent _ _

/-- An instruction that raises nothing writes memory by an accepted store alone. -/
theorem Completed.memoryOk {s t : State} (h : Completed s t) (hm : MemoryOk s.mem) : MemoryOk t.mem := by
  rcases h.memory with e | ⟨a, n, v, ha, e⟩ <;> rw [e]
  · exact hm
  · exact store_keeps_memory v ha hm.1 hm.2

/-! ### From the fetch on -/

/-- How the parts of a step from the fetch on end: the run halts, it aborts, with an access kind exactly for
OutOfRangeAccess, or an instruction completes. -/
inductive FetchEffect (u : State) : State → Prop where
  | halts : FetchEffect u (halt u)
  | aborts (k : FaultKind) (info : Word) (a : Option AccessKind) (hk : a ≠ none ↔ k = .outOfRangeAccess) :
      FetchEffect u (raise k info a u)
  | completes {t : State} (h : Completed u t) : FetchEffect u t

theorem fetchEffect_of_exec {i : Instr} {u t : State} (h : exec i u = .next t) : FetchEffect u t := by
  have he := exec_effect i u
  rw [h] at he
  cases he with
  | completes _ hc => exact .completes hc
  | aborts k info a _ hk => exact .aborts k info a hk

theorem fetchExecute_effect {u t : State} (h : fetchExecute u = .next t) : FetchEffect u t := by
  rcases fetchExecute_cases u with ⟨-, e⟩ | ⟨w, -, -, ⟨-, e⟩ | ⟨-, -, e⟩ | ⟨-, i, -, e⟩⟩ <;> rw [e] at h
  · cases h; exact .aborts _ _ _ (by simp)
  · cases h; exact .halts
  · cases h; exact .aborts _ _ _ (by simp)
  · exact fetchEffect_of_exec h

theorem ReachesFetch.effect {s u t : State} (hu : ReachesFetch s u) (h : step s = .next t) : FetchEffect u t :=
  fetchExecute_effect (hu.step_eq ▸ h)

theorem FetchEffect.mode {u t : State} (h : FetchEffect u t) : t.cpu.mode = u.cpu.mode := by
  cases h with
  | halts => rfl
  | aborts => rfl
  | completes hc => exact hc.control.1

theorem FetchEffect.inv {u t : State} (h : FetchEffect u t) (hu : u.Inv) (hs : u.status = .running)
    (hb : u.bridge = .idle) : t.Inv := by
  cases h with
  | halts => exact inv_halt hu.memoryOk hb
  | aborts k info a hk => exact inv_raise info hu.memoryOk hb hk.mp
  | completes hc =>
    obtain ⟨-, hst, hr, hbr, -, -⟩ := hc.control
    exact inv_of_running (hc.memoryOk hu.memoryOk) (hst.trans hs) (hr.trans (hu.result_none hs))
      fun h => by simp [hbr, hb] at h

/-! ### The boundary, in a state that meets the invariant -/

/-- The poll leaves the guest as the transition found it: what a restore writes is the shadow, which is the Guest CPU
State already. -/
theorem sameGuestView_at_poll {s u : State} (hi : s.Inv) (hu : s.bridge = .idle ∧ OnlyShadow s.afterSample u ∨
    s.bridge = .delegating ∧ OnlyShadow (restore s.afterSample) u) : SameGuestView s u := by
  rcases hu with ⟨-, hu⟩ | ⟨hd, hu⟩
  · exact ⟨hu.cpu, hu.mem, hu.status, hu.result⟩
  · exact ⟨hu.cpu.trans (hi.shadowHeld hd), hu.mem, hu.status, hu.result⟩

/-- A handler that is still out when the transition ends leaves the shadow equal to the Guest CPU State. -/
theorem inv_capture {s u : State} (hi : s.Inv) (hs : s.status = .running) (hu : SameGuestView s u) :
    (capture u).Inv := by
  obtain ⟨-, hm, hst, hr⟩ := hu
  have hmem : MemoryOk u.mem := hm ▸ hi.memoryOk
  exact inv_of_running (s := capture u) hmem (hst.trans hs) (hr.trans (hi.result_none hs)) fun _ => rfl

theorem ReachesFetch.inv {s u : State} (hu : ReachesFetch s u) (hi : s.Inv) : u.Inv := by
  have hf := hu.atFetch
  exact inv_of_running (hf.mem ▸ hi.memoryOk) hf.status (hf.result.trans (hi.result_none hu.1))
    fun h => by simp [hf.bridge] at h

theorem ReachesFetch.cpu_eq {s u : State} (hu : ReachesFetch s u) (hi : s.Inv) : u.cpu = s.cpu := by
  have hf := hu.atFetch
  cases hb : s.bridge with
  | idle => exact hf.cpu_idle hb
  | delegating => exact (hf.cpu_delegating hb).trans (hi.shadowHeld hb)

theorem running_keeps_inv {s t : State} (hi : s.Inv) (hs : s.status = .running) (h : step s = .next t) : t.Inv := by
  rcases running_cases hs with ⟨a, hb, -, e⟩ | ⟨-, e⟩ | ⟨u, hu, -, e⟩ | ⟨u, hu⟩
  · cases e.symm.trans h
    exact inv_raise a.info hi.memoryOk hb nofun
  · cases e.symm.trans h
    exact inv_of_running hi.memoryOk hs (hi.result_none hs) hi.shadowHeld
  · cases e.symm.trans h
    exact inv_capture hi hs (sameGuestView_at_poll hi hu)
  · exact (hu.effect h).inv (hu.inv hi) hu.atFetch.status hu.atFetch.bridge

theorem running_keeps_mode {s t : State} (hi : s.Inv) (hs : s.status = .running) (h : step s = .next t) :
    t.cpu.mode = s.cpu.mode := by
  rcases running_cases hs with ⟨a, -, -, e⟩ | ⟨-, e⟩ | ⟨u, hu, -, e⟩ | ⟨u, hu⟩
  · cases e.symm.trans h
    rfl
  · cases e.symm.trans h
    rfl
  · cases e.symm.trans h
    rw [capture_cpu, (sameGuestView_at_poll hi hu).1]
  · rw [(hu.effect h).mode, hu.cpu_eq hi]

/-! ### Rejected loads and intercepted CSR instructions -/

theorem loadInto_aborts (n : AccessWidth) (ext : BitVec n.bits → Word) (rd rs1 : RegIdx) (imm : Word) (s : State)
    (h : ¬ Accepted .load (effectiveAddress rs1 imm s) n) : ∃ t, loadInto n ext rd rs1 imm s = .next t ∧
      Aborts .outOfRangeAccess (effectiveAddress rs1 imm s) (some .load) s t := by
  rcases loadInto_cases n ext rd rs1 imm s with ⟨ha, -⟩ | ⟨-, e⟩
  · exact absurd ha h
  · exact ⟨_, e, aborts_raise _ _ _ s⟩

theorem csrOperation_aborts (w : Word) (rd : RegIdx) (c : CsrIdx) (f : Word → Word) {s : State}
    (h : s.cpu.mode = .supervisor) :
    ∃ t, csrOperation w rd c f s = .next t ∧ Aborts .illegalCsrAccess w none s t := by
  rcases csrOperation_cases w rd c f s with ⟨hu, -⟩ | ⟨-, e⟩
  · simp [hu] at h
  · exact ⟨_, e, aborts_raise _ _ _ s⟩

/-! ### The memory port -/

/-- The validator stands before the port. -/
theorem accepted_of_mem_driven {r : AccessRequest} {s : State} {p : PortAccess} (h : p ∈ driven r s) :
    Accepted p.kind p.addr p.width := by
  rcases confine_cases r.kind r.addr r.width with ⟨e, -⟩ | ⟨e, -⟩ <;> simp only [driven, e] at h
  · cases List.mem_singleton.mp h
    exact e
  · cases h

theorem accepted_of_mem_wordAccesses {w : Word} {s : State} {p : PortAccess} (h : p ∈ wordAccesses w s) :
    Accepted p.kind p.addr p.width := by
  unfold wordAccesses at h
  split at h
  · cases h
  · split at h
    · split at h
      · exact accepted_of_mem_driven h
      · cases h
    · cases h

theorem accepted_of_mem_fetchAccesses {s : State} {p : PortAccess} (h : p ∈ fetchAccesses s) :
    Accepted p.kind p.addr p.width := by
  rcases memRead_cases .fetch s.cpu.pc .word s with ⟨ha, e⟩ | ⟨-, e⟩ <;> simp only [fetchAccesses, fetchWord, e] at h
  · rcases List.mem_cons.mp h with rfl | h
    · exact ha
    · exact accepted_of_mem_wordAccesses h
  · cases h

theorem accepted_of_mem_memoryPort {s : State} {p : PortAccess} (h : p ∈ memoryPort s) :
    Accepted p.kind p.addr p.width := by
  unfold memoryPort at h
  split at h
  · split at h
    · exact accepted_of_mem_fetchAccesses h
    · cases h
  · cases h
  · cases h

/-- Every byte of an accepted span lies in the window. -/
theorem inWindow_of_accepted {k : AccessKind} {addr : Word} {n : AccessWidth} (h : Accepted k addr n) {a : Nat}
    (hlo : addr.toNat ≤ a) (hhi : a < addr.toNat + n.bytes) : InWindow a := by
  obtain ⟨h1, h2⟩ := accepted_iff.mp h
  exact ⟨by omega, by omega⟩

/-! ### The result ports -/

theorem resultPorts_none {s : State} (h : s.result = none) :
    resultPorts s = ⟨s.status.code, none, none, none, none, none⟩ := by simp only [resultPorts, h]

theorem resultPorts_halted {s : State} {code : Word} (h : s.result = some (.halted code)) :
    resultPorts s = ⟨s.status.code, some code, none, none, none, none⟩ := by simp only [resultPorts, h]

theorem resultPorts_aborted {s : State} {k : FaultKind} {info pc : Word} {a : Option AccessKind}
    (h : s.result = some (.aborted k info pc a)) : resultPorts s =
      ⟨s.status.code, none, some k.code, some info, some pc, a.map AccessKind.code⟩ := by simp only [resultPorts, h]

/-- An access kind is on the port exactly when the latch holds one. -/
theorem faultAccess_raise_ne_none (k : FaultKind) (info : Word) (a : Option AccessKind) (s : State) :
    (resultPorts (raise k info a s)).faultAccess ≠ none ↔ a ≠ none := by
  rw [resultPorts_aborted (raise_result ..)]
  exact Option.map_eq_none_iff.not

theorem FaultKind.code_eq_one_iff (k : FaultKind) : k.code = 1#2 ↔ k = .outOfRangeAccess := by
  cases k <;> decide

theorem faultKind_raise_eq_one (k : FaultKind) (info : Word) (a : Option AccessKind) (s : State) :
    (resultPorts (raise k info a s)).faultKind = some 1#2 ↔ k = .outOfRangeAccess := by
  rw [resultPorts_aborted (raise_result ..), Option.some_inj, FaultKind.code_eq_one_iff]

theorem resultPorts_of_aborted {s : State} (hi : s.Inv) (hs : s.status = .aborted) :
    ∃ kind info access, s.result = some (.aborted kind info s.cpu.pc access) ∧
      resultPorts s = ⟨2#2, none, some kind.code, some info, some s.cpu.pc, access.map AccessKind.code⟩ ∧
      (access ≠ none → (resultPorts s).faultKind = some 1#2) := by
  obtain ⟨k, info, a, hr, hk⟩ := (latchAgrees_aborted hs).mp hi.latch
  have hp := resultPorts_aborted hr
  rw [hs] at hp
  refine ⟨k, info, a, hr, hp, fun ha => ?_⟩
  rw [hp, hk ha]
  rfl

/-- Among the aborts a transition can make, an injected one alone has no access kind beside OutOfRangeAccess. -/
theorem faultAccess_valid_iff {s t : State} (hs : s.status = .running) (h : step s = .next t)
    (ht : t.status = .aborted) : (resultPorts t).faultAccess ≠ none ↔
      (resultPorts t).faultKind = some 1#2 ∧ ¬ (s.bridge = .idle ∧ s.sample.abortReq ≠ none) := by
  rcases running_cases hs with ⟨a, hb, ha, e⟩ | ⟨-, e⟩ | ⟨u, hu, -, e⟩ | ⟨u, hu⟩
  · cases e.symm.trans h
    simp [faultAccess_raise_ne_none, hb, ha]
  · cases e.symm.trans h
    simp [hs] at ht
  · cases e.symm.trans h
    rcases hu with ⟨-, hu⟩ | ⟨-, hu⟩ <;> simp [hu.status, hs] at ht
  · have hf := hu.atFetch
    cases hu.effect h with
    | halts => simp at ht
    | aborts k info a hk =>
      rw [faultAccess_raise_ne_none, faultKind_raise_eq_one, hk]
      exact (and_iff_left hf.no_abort).symm
    | completes hc =>
      obtain ⟨-, hst, -⟩ := hc.control
      simp [hst, hf.status] at ht

end Sys2Proof.Machine

open Sys2Proof Sys2Proof.Machine

/-- Settles O50: in a terminal state the run stays or a load starts the next; a running nucleus takes one of the four
transitions of `running_cases`. -/
theorem everyTransitionKeepsInv : Obligations.EveryTransitionKeepsInv := by
  intro s t hi h
  by_cases hs : s.status = .running
  · exact running_keeps_inv hi hs h
  · cases (step_terminal hs).symm.trans h
    exact terminalStep_keeps_inv hi

/-- Settles O12: `x0` has no storage, and a load or a CSR instruction decides to abort before it writes `rd`. -/
theorem registerZeroIsHardwired : Obligations.RegisterZeroIsHardwired := by
  refine ⟨fun s => ⟨readReg_zero s, GuestCpu.reg_zero s.cpu⟩, writeReg_zero, fun s rs1 imm => ?_,
    fun s csr rs1 uimm hm => ?_⟩
  · simp only [List.forall_mem_cons, List.not_mem_nil, false_implies, implies_true, and_true]
    refine ⟨?_, ?_, ?_, ?_, ?_⟩ <;> exact loadInto_aborts _ _ _ _ _ s
  · simp only [List.forall_mem_cons, List.not_mem_nil, false_implies, implies_true, and_true]
    refine ⟨?_, ?_, ?_, ?_, ?_, ?_⟩ <;> exact csrOperation_aborts _ _ _ _ hm

/-- Settles O48: only a restore writes the mode flag, and the shadow it restores is the Guest CPU State. -/
theorem modeIsConstant : Obligations.ModeIsConstant := fun _ _ => running_keeps_mode

/-- Settles O55: what is on the port has been accepted by the validator. -/
theorem memoryPortStaysInTheWindow : Obligations.MemoryPortStaysInTheWindow :=
  fun _ _ hp _ => inWindow_of_accepted (accepted_of_mem_memoryPort hp)

/-- Settles O59: the latch of each status, read off the invariant, and the aborts of a running nucleus. -/
theorem resultPortsFollowTheLatch : Obligations.ResultPortsFollowTheLatch := by
  refine ⟨fun s hi => ⟨fun hs => ?_, fun hs => ?_, resultPorts_of_aborted hi⟩, ⟨rfl, rfl, rfl⟩, ⟨rfl, rfl, rfl⟩,
    fun _ _ => faultAccess_valid_iff⟩
  · rw [resultPorts_none (hi.result_none hs), hs]
    rfl
  · rw [resultPorts_halted ((latchAgrees_halted hs).mp hi.latch), hs]
    rfl

/-- Settles O51: the reset launch is Running with an empty memory, nothing latched and the bridge idle. -/
theorem resetMeetsInv : Obligations.ResetMeetsInv := inv_reset

/-- Settles O52: each value is the one the reset launch is written with. -/
theorem resetHoldsTheGivenValues : Obligations.ResetHoldsTheGivenValues :=
  ⟨readReg_zero State.reset, rfl, rfl, rfl, rfl⟩

end

section
/-! PROOFS of the statements about guest memory: the bytes of a value, the accesses accepted and rejected, and the
confinement of a transition to the window. -/

namespace Sys2Proof.Machine

/-! ### Bytes and values of memory -/

/-- The bytes of an `8n`-bit value determine it. -/
theorem value_ext {n : AccessWidth} {x y : BitVec n.bits}
    (h : ∀ j < n.bytes, x.extractLsb' (8 * j) 8 = y.extractLsb' (8 * j) 8) : x = y := by
  refine BitVec.eq_of_getLsbD_eq fun i hi => ?_
  have hj : i / 8 < n.bytes := by cases n <;> simp only [AccessWidth.bits, AccessWidth.bytes] at hi ⊢ <;> omega
  have hb := congrArg (BitVec.getLsbD · (i % 8)) (h (i / 8) hj)
  simpa [Nat.mod_lt, Nat.div_add_mod] using hb

/-- Byte `j` of the value at an address is the byte of its span (rule R49). -/
theorem byte_value (m : Memory) (a : Nat) {n : AccessWidth} {j : Nat} (hj : j < n.bytes) :
    (m.value a n).extractLsb' (8 * j) 8 = m.read (a + j) := by
  rw [← byteOfWord_setWidth _ (by cases n <;> simp only [AccessWidth.bytes] at hj <;> omega)]
  exact byteOfWord_value m a n hj

/-- The value at an address depends on the bytes of its span alone. -/
theorem value_congr {m m' : Memory} {a : Nat} {n : AccessWidth} (h : ∀ j < n.bytes, m'.read (a + j) = m.read (a + j)) :
    m'.value a n = m.value a n :=
  value_ext fun j hj => by rw [byte_value m' a hj, byte_value m a hj, h j hj]

/-- Entry `k` of the bytes of a value is its bits `8k + 7` to `8k` (rule R50). -/
theorem littleEndian_getElem {n : AccessWidth} (v : BitVec n.bits) {k : Nat} (hk : k < (littleEndian n v).length) :
    (littleEndian n v)[k] = v.extractLsb' (8 * k) 8 := by
  rw [littleEndian_length] at hk
  cases n <;> simp only [AccessWidth.bytes] at hk
  · obtain rfl : k = 0 := by omega
    exact BitVec.extractLsb'_eq_self.symm
  · obtain rfl | rfl : k = 0 ∨ k = 1 := by omega
    all_goals rfl
  · obtain rfl | rfl | rfl | rfl : k = 0 ∨ k = 1 ∨ k = 2 ∨ k = 3 := by omega
    all_goals rfl

/-- Every byte after the bytes of a value are written at an address. -/
theorem read_writeBytes_littleEndian {m : Memory} (hm : m.wf) (a b : Nat) {n : AccessWidth} (v : BitVec n.bits) :
    (m.writeBytes a (littleEndian n v)).read b =
      if a ≤ b ∧ b < a + n.bytes then v.extractLsb' (8 * (b - a)) 8 else m.read b := by
  rw [Memory.read_writeBytes b _ a hm]
  simp only [littleEndian_length, littleEndian_getElem, dite_eq_ite]

/-- An accepted store changes no byte outside the window (rule R41). -/
theorem read_store_outside {m : Memory} {a : Word} {n : AccessWidth} (v : BitVec n.bits) (ha : Accepted .store a n)
    {b : Nat} (hb : ¬ InWindow b) : (m.writeBytes a.toNat (littleEndian n v)).read b = m.read b := by
  refine Memory.read_writeBytes_other _ m _ fun h => hb ?_
  rw [littleEndian_length] at h
  exact inWindow_of_accepted ha h.1 h.2

/-! ### The accesses, accepted and rejected -/

theorem not_accepted_of_error {k : AccessKind} {a : Word} {n : AccessWidth} {r : Rejection}
    (h : confine k a n = .error r) : ¬ Accepted k a n := by simp [Accepted, h]

section
variable {k : AccessKind} {a : Word} {n : AccessWidth} {s : State}

theorem memRead_of_accepted (h : Accepted k a n) : memRead k a n s = .ok (s.mem.value a.toNat n) := by
  rcases memRead_cases k a n s with ⟨-, e⟩ | ⟨hr, -⟩
  · exact e
  · exact absurd h (not_accepted_of_error hr)

theorem memRead_of_rejected (h : ¬ Accepted k a n) : memRead k a n s = .error ⟨k, a⟩ := by
  rcases memRead_cases k a n s with ⟨ha, -⟩ | ⟨-, e⟩
  · exact absurd ha h
  · exact e

theorem memWrite_of_accepted {v : BitVec n.bits} (h : Accepted .store a n) :
    memWrite a n v s = .ok (s.setMem (s.mem.writeBytes a.toNat (littleEndian n v))) := by
  rcases memWrite_cases a n v s with ⟨-, e⟩ | ⟨hr, -⟩
  · exact e
  · exact absurd h (not_accepted_of_error hr)

theorem memWrite_of_rejected {v : BitVec n.bits} (h : ¬ Accepted .store a n) :
    memWrite a n v s = .error ⟨.store, a⟩ := by
  rcases memWrite_cases a n v s with ⟨ha, -⟩ | ⟨-, e⟩
  · exact absurd ha h
  · exact e

end

@[simp] theorem effectiveAddress_setMem (rs1 : RegIdx) (imm : Word) (s : State) (m : Memory) :
    effectiveAddress rs1 imm (s.setMem m) = effectiveAddress rs1 imm s := rfl

/-! ### Confinement: the same transition from two memories that agree in the window -/

/-- The memories hold the same bytes in the window. -/
def AgreeInWindow (m m' : Memory) : Prop := ∀ a, InWindow a → m'.read a = m.read a

/-- The memories hold the same bytes outside the window. -/
def AgreeOutside (m m' : Memory) : Prop := ∀ a, ¬ InWindow a → m'.read a = m.read a

/-- Two outcomes, from memory `m₀` and from memory `m`, that differ in memory alone: each left its own bytes outside the
window as they were, and the window's bytes agree. -/
inductive ConfinedPair (m₀ m : Memory) :
    Host.Outcome State Fault Refusal → Host.Outcome State Fault Refusal → Prop where
  | intro (t : State) (m' : Memory) (h₀ : AgreeOutside m₀ t.mem) (hm : AgreeOutside m m')
      (hw : AgreeInWindow t.mem m') : ConfinedPair m₀ m (.next t) (.next (t.setMem m'))

section
variable {s : State} {m : Memory} (hm : AgreeInWindow s.mem m)
include hm

/-- What leaves memory as it was is confined. -/
theorem confinedPair_of_mem_eq {t : State} (ht : t.mem = s.mem) : ConfinedPair s.mem m (.next t) (.next (t.setMem m)) :=
  .intro t m (fun _ _ => by rw [ht]) (fun _ _ => rfl) (ht ▸ hm)

/-- An accepted access reads the same value from either memory. -/
theorem value_eq_of_accepted {k : AccessKind} {a : Word} {n : AccessWidth} (ha : Accepted k a n) :
    m.value a.toNat n = s.mem.value a.toNat n :=
  value_congr fun j hj => hm _ (inWindow_of_accepted ha (by omega) (by omega))

theorem memRead_setMem (k : AccessKind) (a : Word) (n : AccessWidth) :
    memRead k a n (s.setMem m) = memRead k a n s := by
  rcases memRead_cases k a n s with ⟨ha, e⟩ | ⟨hr, e⟩
  · rw [e, memRead_of_accepted ha]
    exact congrArg Except.ok (value_eq_of_accepted hm ha)
  · rw [e, memRead_of_rejected (not_accepted_of_error hr)]

theorem confinedPair_loadInto (n : AccessWidth) (ext : BitVec n.bits → Word) (rd rs1 : RegIdx) (imm : Word) :
    ConfinedPair s.mem m (loadInto n ext rd rs1 imm s) (loadInto n ext rd rs1 imm (s.setMem m)) := by
  unfold loadInto
  rw [effectiveAddress_setMem, memRead_setMem hm]
  split
  · exact confinedPair_of_mem_eq hm (t := (s.writeReg rd _).advance) rfl
  · exact confinedPair_of_mem_eq hm (t := raiseRejection _ s) rfl

theorem confinedPair_csrOperation (w : Word) (rd : RegIdx) (c : CsrIdx) (f : Word → Word) :
    ConfinedPair s.mem m (csrOperation w rd c f s) (csrOperation w rd c f (s.setMem m)) := by
  rcases csrOperation_cases w rd c f s with ⟨hu, e⟩ | ⟨hu, e⟩ <;>
    rcases csrOperation_cases w rd c f (s.setMem m) with ⟨hu', e'⟩ | ⟨hu', e'⟩
  · rw [e, e']
    exact confinedPair_of_mem_eq hm (t := (s.writeReg rd 0#32).advance) rfl
  · cases hu.symm.trans hu'
  · cases hu.symm.trans hu'
  · rw [e, e']
    exact confinedPair_of_mem_eq hm (t := raise _ _ _ s) rfl

/-- The same accepted store into two memories that agree in the window. -/
theorem agreeInWindow_store (hs : s.mem.wf) (hw : m.wf) (a : Nat) {n : AccessWidth} (v : BitVec n.bits) :
    AgreeInWindow (s.mem.writeBytes a (littleEndian n v)) (m.writeBytes a (littleEndian n v)) := fun b hb => by
  rw [read_writeBytes_littleEndian hs, read_writeBytes_littleEndian hw, hm b hb]

theorem confinedPair_storeFrom (hs : s.mem.wf) (hw : m.wf) (n : AccessWidth) (rs1 rs2 : RegIdx) (imm : Word) :
    ConfinedPair s.mem m (storeFrom n rs1 rs2 imm s) (storeFrom n rs1 rs2 imm (s.setMem m)) := by
  unfold storeFrom
  rw [effectiveAddress_setMem, setMem_readReg]
  by_cases ha : Accepted .store (effectiveAddress rs1 imm s) n
  · rw [memWrite_of_accepted ha, memWrite_of_accepted ha]
    exact .intro _ _ (fun _ => read_store_outside _ ha) (fun _ => read_store_outside _ ha)
      (agreeInWindow_store hm hs hw _ _)
  · rw [memWrite_of_rejected ha, memWrite_of_rejected ha]
    exact confinedPair_of_mem_eq hm (t := raiseRejection _ s) rfl

theorem confinedPair_exec (hs : s.mem.wf) (hw : m.wf) (i : Instr) :
    ConfinedPair s.mem m (exec i s) (exec i (s.setMem m)) := by
  cases i
  case lui | auipc | addi | slti | sltiu | xori | ori | andi | slli | srli | srai | add | sub | sll | slt | sltu | xor
      | srl | sra | or | and => exact confinedPair_of_mem_eq hm (t := (s.writeReg _ _).advance) rfl
  case lb | lh | lw | lbu | lhu => exact confinedPair_loadInto hm _ _ _ _ _
  case sb | sh | sw => exact confinedPair_storeFrom hm hs hw _ _ _ _
  case csrrw | csrrs | csrrc | csrrwi | csrrsi | csrrci => exact confinedPair_csrOperation hm _ _ _ _
  case jal | jalr => exact confinedPair_of_mem_eq hm (t := (s.writeReg _ _).setPc _) rfl
  case beq | bne | blt | bge | bltu | bgeu => exact confinedPair_of_mem_eq hm (t := s.setPc _) rfl
  case fence => exact confinedPair_of_mem_eq hm (t := s.advance) rfl
  case ecall | ebreak => exact confinedPair_of_mem_eq hm (t := raise _ _ _ s) rfl

theorem confinedPair_executeWord (hs : s.mem.wf) (hw : m.wf) (w : Word) :
    ConfinedPair s.mem m (executeWord w s) (executeWord w (s.setMem m)) := by
  unfold executeWord
  rw [setMem_inputs]
  by_cases hh : w = s.inputs.haltWord
  · rw [if_pos hh, if_pos hh]
    exact confinedPair_of_mem_eq hm (t := halt s) rfl
  · rw [if_neg hh, if_neg hh]
    split
    · exact confinedPair_exec hm hs hw _
    · exact confinedPair_of_mem_eq hm (t := raise _ _ _ s) rfl

theorem fetchWord_setMem : fetchWord (s.setMem m) = fetchWord s := memRead_setMem hm .fetch s.cpu.pc .word

theorem confinedPair_fetchExecute (hs : s.mem.wf) (hw : m.wf) :
    ConfinedPair s.mem m (fetchExecute s) (fetchExecute (s.setMem m)) := by
  unfold fetchExecute
  rw [fetchWord_setMem hm]
  split
  · exact confinedPair_executeWord hm hs hw _
  · exact confinedPair_of_mem_eq hm (t := raiseRejection _ s) rfl

end

/-! ### The boundary reads and writes no memory -/

/-- The exit with another memory. -/
def BoundaryExit.setMem (m : Memory) : BoundaryExit → BoundaryExit
  | .fetches s => .fetches (s.setMem m)
  | .ends s => .ends (s.setMem m)

theorem delegateTimes_setMem (m : Memory) (k : Nat) (s : State) :
    delegateTimes k (s.setMem m) = (delegateTimes k s).setMem m := by
  induction k generalizing s with
  | zero => rfl
  | succ k ih => exact ih (delegate s)

theorem poll_setMem (m : Memory) (b : Boundary) (s : State) : poll b (s.setMem m) = (poll b s).setMem m := by
  unfold poll
  rw [delegateTimes_setMem]
  split <;> rfl

theorem headOfStep_setMem (m : Memory) (b : Boundary) (s : State) :
    headOfStep b (s.setMem m) = (headOfStep b s).setMem m := by
  unfold headOfStep
  split
  · rfl
  · exact poll_setMem m b s

theorem handlerOut_setMem (m : Memory) (b : Boundary) (s : State) :
    handlerOut b (s.setMem m) = (handlerOut b s).setMem m := by
  unfold handlerOut
  split
  · exact poll_setMem m b (restore s)
  · rfl

theorem boundary_setMem (m : Memory) (s : State) : boundary (s.setMem m) = (boundary s).setMem m := by
  cases h : s.bridge with
  | idle => rw [boundary_idle h, boundary_idle (s := s.setMem m) h]; exact headOfStep_setMem m s.sample s.afterSample
  | delegating =>
    rw [boundary_delegating h, boundary_delegating (s := s.setMem m) h]
    exact handlerOut_setMem m s.sample s.afterSample

theorem mem_of_boundary_ends {s t : State} (h : boundary s = .ends t) : t.mem = s.mem := by
  rcases boundary_cases s with ⟨a, -, -, e⟩ | ⟨u, -, -, hu, ⟨-, e⟩ | ⟨-, e⟩⟩ | ⟨-, -, e⟩ |
      ⟨u, -, -, hu, ⟨-, e⟩ | ⟨-, e⟩⟩ <;> cases e.symm.trans h
  · rfl
  · exact hu.mem
  · rfl
  · exact hu.mem

/-- A running transition, from two memories that agree in the window. -/
theorem confinedPair_step {s : State} {m : Memory} (hr : s.status = .running) (hm : AgreeInWindow s.mem m)
    (hs : s.mem.wf) (hw : m.wf) : ConfinedPair s.mem m (step s) (step (s.setMem m)) := by
  rw [step_running hr, step_running (s := s.setMem m) hr, runningStep, runningStep, boundary_setMem]
  cases hb : boundary s with
  | fetches u =>
    have hu : u.mem = s.mem := (show ReachesFetch s u from ⟨hr, hb⟩).atFetch.mem
    rw [← hu] at hm hs ⊢
    exact confinedPair_fetchExecute hm hs hw
  | ends t => exact confinedPair_of_mem_eq hm (mem_of_boundary_ends hb)

end Sys2Proof.Machine

open Sys2Proof Sys2Proof.Machine

/-- Settles O54: a transition does the same from either memory, since each of its accesses has been accepted and so lies
in the window. -/
theorem guestIsConfinedToTheWindow : Obligations.GuestIsConfinedToTheWindow := by
  intro s t m hr hs hw hm h
  have hp := confinedPair_step hr hm hs hw
  rw [h] at hp
  generalize step (s.setMem m) = o at hp ⊢
  cases hp with
  | intro _ m' h₀ h' hin => exact ⟨h₀, _, rfl, rfl, rfl, rfl, rfl, rfl, rfl, hin, h'⟩

end
section
/-! PROOFS of the statements about the accesses: what a read and a write give, the byte order across widths, and the
aborts of rejected accesses. -/

namespace Sys2Proof.Machine

/-! ### The byte order across widths -/

/-- The address `k` bytes into an accepted word does not wrap around. -/
theorem toNat_add_of_accepted {kind : AccessKind} {a : Word} (h : Accepted kind a .word) {k : Nat} (hk : k < 4) :
    (a + BitVec.ofNat 32 k).toNat = a.toNat + k := by
  obtain ⟨-, hhi⟩ := accepted_iff.mp h
  simp only [AccessWidth.bytes, Config.windowHi] at hhi
  rw [BitVec.toNat_add, BitVec.toNat_ofNat]
  omega

/-- An access within an accepted word is accepted, whatever its kind and width. -/
theorem accepted_within_word {kind kind' : AccessKind} {a : Word} (h : Accepted kind a .word) {n : AccessWidth}
    {k : Nat} (hk : k + n.bytes ≤ 4) : Accepted kind' (a + BitVec.ofNat 32 k) n := by
  have hn : 0 < n.bytes := by cases n <;> decide
  obtain ⟨hlo, hhi⟩ := accepted_iff.mp h
  rw [accepted_iff, toNat_add_of_accepted h (by omega)]
  simp only [AccessWidth.bytes] at hhi
  omega

/-- Every access within a stored word reads its part of the word (rule R48). -/
theorem memRead_of_stored_word {a v : Word} {s t : State} (hm : s.mem.wf) (h : memWrite a .word v s = .ok t)
    (kind : AccessKind) (n : AccessWidth) {k : Nat} (hk : k + n.bytes ≤ 4) :
    memRead kind (a + BitVec.ofNat 32 k) n t = .ok (v.extractLsb' (8 * k) n.bits) := by
  have hn : 0 < n.bytes := by cases n <;> decide
  rcases memWrite_cases a .word v s with ⟨ha, e⟩ | ⟨-, e⟩ <;> cases e.symm.trans h
  rw [memRead_of_accepted (accepted_within_word ha hk), toNat_add_of_accepted ha (by omega)]
  refine congrArg Except.ok (value_ext fun j hj => ?_)
  have hin : a.toNat ≤ a.toNat + k + j ∧ a.toNat + k + j < a.toNat + AccessWidth.word.bytes :=
    ⟨by omega, show _ < a.toNat + 4 by omega⟩
  have hbits : 8 * j + 8 ≤ n.bits := by cases n <;> simp only [AccessWidth.bytes, AccessWidth.bits] at hj ⊢ <;> omega
  rw [byte_value _ _ hj, setMem_mem, read_writeBytes_littleEndian hm, if_pos hin, extract_extract v hbits]
  congr 1
  omega

theorem memRead_congr_mem {s t : State} (h : t.mem = s.mem) (k : AccessKind) (a : Word) (n : AccessWidth) :
    memRead k a n t = memRead k a n s := by simp only [memRead, h]

/-! ### Instructions whose access is rejected -/

theorem storeFrom_aborts (n : AccessWidth) (rs1 rs2 : RegIdx) (imm : Word) (s : State)
    (h : ¬ Accepted .store (effectiveAddress rs1 imm s) n) : ∃ t, storeFrom n rs1 rs2 imm s = .next t ∧
      Aborts .outOfRangeAccess (effectiveAddress rs1 imm s) (some .store) s t := by
  rcases storeFrom_cases n rs1 rs2 imm s with ⟨ha, -⟩ | ⟨-, e⟩
  · exact absurd ha h
  · exact ⟨_, e, aborts_raise _ _ _ s⟩

/-- A load or store whose access is rejected aborts at the access's first byte, with its kind (rule R142). -/
theorem exec_aborts_of_rejected {i : Instr} {s : State} {p : AccessRequest} (hp : dataAccess i s = some p)
    (h : ¬ Accepted p.kind p.addr p.width) :
    ∃ t, exec i s = .next t ∧ Aborts .outOfRangeAccess p.addr (some p.kind) s t := by
  cases i <;> cases hp
  case lb | lh | lw | lbu | lhu => exact loadInto_aborts _ _ _ _ _ s h
  case sb | sh | sw => exact storeFrom_aborts _ _ _ _ s h

/-- A load or store whose access is accepted raises nothing (rule R142). -/
theorem exec_completes_of_accepted {i : Instr} {s : State} {p : AccessRequest} (hp : dataAccess i s = some p)
    (h : Accepted p.kind p.addr p.width) : ∃ t, exec i s = .next t ∧ KeepsControl s t := by
  have he := exec_effect i s
  generalize exec i s = o at he ⊢
  cases he with
  | completes _ hc => exact ⟨_, rfl, hc.control⟩
  | aborts _ _ _ hr _ => exact absurd h ((raises_of_access hp).mp hr)

theorem fetchExecute_aborts_of_rejected {u : State} (h : ¬ Accepted .fetch u.cpu.pc .word) :
    ∃ t, fetchExecute u = .next t ∧ Aborts .outOfRangeAccess u.cpu.pc (some .fetch) u t := by
  rcases fetchExecute_cases u with ⟨-, e⟩ | ⟨w, ha, -⟩
  · exact ⟨_, e, aborts_raise _ _ _ u⟩
  · exact absurd ha h

/-- A transition that fetches the word of an instruction, not the halt word, executes the instruction (rule R86). -/
theorem Fetches.step_eq_exec {s u : State} {w : Word} {i : Instr} (hu : Fetches s u w) (hw : w ≠ u.inputs.haltWord)
    (hi : decode w = .ok i) : step s = exec i u := by
  rw [hu.1.step_eq]
  simp only [fetchExecute, hu.2, executeWord, if_neg hw, hi]

end Sys2Proof.Machine

open Sys2Proof Sys2Proof.Machine

/-- Settles O14: `accepted_iff`, with the width in bytes and the bounds of the window put in. -/
theorem validatorAcceptsTheWindow : Obligations.ValidatorAcceptsTheWindow := by
  intro k a
  have bounds : ∀ n, Accepted k a n ↔ 0x00020000 ≤ a.toNat ∧ a.toNat + n.bytes - 1 ≤ 0x00FFFFFF :=
    fun n => accepted_iff
  refine ⟨fun n => accepted_iff, ?_, ?_, ?_, fun n h => ?_⟩
  · rw [bounds, AccessWidth.bytes]; omega
  · rw [bounds, AccessWidth.bytes]; omega
  · rw [bounds, AccessWidth.bytes]; omega
  · rcases confine_cases k a n with ⟨ha, -⟩ | ⟨e, -⟩
    · exact absurd ha h
    · exact e

/-- Settles O15: an accepted read answers the value at the address, whose bytes are those of the span. -/
theorem readsTakeTheSpanLittleEndian : Obligations.ReadsTakeTheSpanLittleEndian :=
  fun _ a _ s => ⟨fun h => ⟨_, memRead_of_accepted h, fun _ => byte_value s.mem a.toNat⟩, memRead_of_rejected⟩

/-- Settles O16: an accepted write writes the little-endian bytes of the value, and memory alone. -/
theorem writesAreAllOrNothing : Obligations.WritesAreAllOrNothing :=
  fun a _ v _ hm => ⟨fun h => ⟨_, memWrite_of_accepted h, fun b => read_writeBytes_littleEndian hm a.toNat b v, rfl⟩,
    memWrite_of_rejected⟩

/-- Settles O17: each access reads its part of the stored word. -/
theorem mixedWidthsSeeTheSameBytes : Obligations.MixedWidthsSeeTheSameBytes := by
  intro a v s t hm h
  have read := memRead_of_stored_word hm h
  refine ⟨?_, ?_, ?_, read .load .half (k := 2) (by decide), fun k hk => read .load .byte (Nat.succ_le_of_lt hk)⟩
  · simpa using read .load .word (k := 0) (by decide)
  · simpa using read .fetch .word (k := 0) (by decide)
  · simpa using read .load .half (k := 0) (by decide)

/-- Settles O30: SW is `memWrite` of the whole register, and the fetch reads the word back. -/
theorem storedCodeIsFetched : Obligations.StoredCodeIsFetched := by
  intro s t u rs1 rs2 imm hm ha h hmem hpc
  rcases storeFrom_cases .word rs1 rs2 imm s with ⟨-, e⟩ | ⟨hr, -⟩
  · cases e.symm.trans h
    have hw := memWrite_of_accepted (s := s) (v := storeValue .word (s.readReg rs2)) ha
    rw [fetchWord, hpc, memRead_congr_mem (s := s.setMem _) hmem]
    simpa [storeValue] using memRead_of_stored_word hm hw .fetch .word (k := 0) (by decide)
  · exact absurd ha (not_accepted_of_error hr)

/-- Settles O28: the aborts of a rejected fetch and of a rejected data access, and what an accepted one keeps. -/
theorem rejectedAccessAborts : Obligations.RejectedAccessAborts := by
  refine ⟨fun s u hu h => ?_, fun s u w i p hu hw hi hp h => ?_, fun i s p => exec_completes_of_accepted⟩
  · rw [hu.step_eq]
    exact fetchExecute_aborts_of_rejected h
  · rw [hu.step_eq_exec hw hi]
    exact exec_aborts_of_rejected hp h

end
section
/-! PROOFS of the statements about an instruction's bytes: the fields of each format, the decoder after the encoder, and
the four bytes of a word. -/

namespace Sys2Proof

/-! ### The fields of each format -/

section
variable (f7 op : BitVec 7) (f3 : BitVec 3) (rs2 rs1 rd : RegIdx) (imm12 : BitVec 12) (r b : BitVec 5) (imm : Word)

@[simp] theorem opcodeOf_formatR : opcodeOf (formatR f7 rs2 rs1 f3 rd op) = op := bits_0_formatR ..
@[simp] theorem rdOf_formatR : rdOf (formatR f7 rs2 rs1 f3 rd op) = rd := congrArg BitVec.toFin (bits_7_formatR ..)
@[simp] theorem funct3Of_formatR : funct3Of (formatR f7 rs2 rs1 f3 rd op) = f3 := bits_12_formatR ..
@[simp] theorem rs1Of_formatR : rs1Of (formatR f7 rs2 rs1 f3 rd op) = rs1 := congrArg BitVec.toFin (bits_15_formatR ..)
@[simp] theorem rs2Of_formatR : rs2Of (formatR f7 rs2 rs1 f3 rd op) = rs2 := congrArg BitVec.toFin (bits_20_formatR ..)
@[simp] theorem funct7Of_formatR : funct7Of (formatR f7 rs2 rs1 f3 rd op) = f7 := bits_25_formatR ..

@[simp] theorem opcodeOf_formatI : opcodeOf (formatI imm12 r f3 rd op) = op := bits_0_formatI ..
@[simp] theorem rdOf_formatI : rdOf (formatI imm12 r f3 rd op) = rd := congrArg BitVec.toFin (bits_7_formatI ..)
@[simp] theorem funct3Of_formatI : funct3Of (formatI imm12 r f3 rd op) = f3 := bits_12_formatI ..
@[simp] theorem rs1Of_formatI : rs1Of (formatI imm12 r f3 rd op) = r.toFin := congrArg BitVec.toFin (bits_15_formatI ..)
@[simp] theorem csrOf_formatI : csrOf (formatI imm12 r f3 rd op) = imm12 := bits_20_formatI ..
@[simp] theorem uimmOf_formatI : uimmOf (formatI imm12 r f3 rd op) = r.setWidth 32 :=
  congrArg (BitVec.setWidth 32) (bits_15_formatI ..)

@[simp] theorem opcodeOf_formatShift : opcodeOf (formatShift f7 b rs1 f3 rd op) = op := bits_0_formatShift ..
@[simp] theorem rdOf_formatShift : rdOf (formatShift f7 b rs1 f3 rd op) = rd :=
  congrArg BitVec.toFin (bits_7_formatShift ..)
@[simp] theorem funct3Of_formatShift : funct3Of (formatShift f7 b rs1 f3 rd op) = f3 := bits_12_formatShift ..
@[simp] theorem rs1Of_formatShift : rs1Of (formatShift f7 b rs1 f3 rd op) = rs1 :=
  congrArg BitVec.toFin (bits_15_formatShift ..)
@[simp] theorem shamtOf_formatShift : shamtOf (formatShift f7 b rs1 f3 rd op) = b := bits_20_formatShift ..
@[simp] theorem funct7Of_formatShift : funct7Of (formatShift f7 b rs1 f3 rd op) = f7 := bits_25_formatShift ..

@[simp] theorem opcodeOf_formatS : opcodeOf (formatS imm rs2 rs1 f3 op) = op := bits_0_formatS ..
@[simp] theorem funct3Of_formatS : funct3Of (formatS imm rs2 rs1 f3 op) = f3 := bits_12_formatS ..
@[simp] theorem rs1Of_formatS : rs1Of (formatS imm rs2 rs1 f3 op) = rs1 := congrArg BitVec.toFin (bits_15_formatS ..)
@[simp] theorem rs2Of_formatS : rs2Of (formatS imm rs2 rs1 f3 op) = rs2 := congrArg BitVec.toFin (bits_20_formatS ..)

@[simp] theorem opcodeOf_formatB : opcodeOf (formatB imm rs2 rs1 f3 op) = op := bits_0_formatB ..
@[simp] theorem funct3Of_formatB : funct3Of (formatB imm rs2 rs1 f3 op) = f3 := bits_12_formatB ..
@[simp] theorem rs1Of_formatB : rs1Of (formatB imm rs2 rs1 f3 op) = rs1 := congrArg BitVec.toFin (bits_15_formatB ..)
@[simp] theorem rs2Of_formatB : rs2Of (formatB imm rs2 rs1 f3 op) = rs2 := congrArg BitVec.toFin (bits_20_formatB ..)

@[simp] theorem opcodeOf_formatU : opcodeOf (formatU imm rd op) = op := bits_0_formatU ..
@[simp] theorem rdOf_formatU : rdOf (formatU imm rd op) = rd := congrArg BitVec.toFin (bits_7_formatU ..)

@[simp] theorem opcodeOf_formatJ : opcodeOf (formatJ imm rd op) = op := bits_0_formatJ ..
@[simp] theorem rdOf_formatJ : rdOf (formatJ imm rd op) = rd := congrArg BitVec.toFin (bits_7_formatJ ..)

/-- The three fields of FENCE's immediate. -/
theorem fence_fields (fm pred succ : BitVec 4) :
    (formatI (fm ++ pred ++ succ) r f3 rd op).extractLsb' 28 4 = fm ∧
    (formatI (fm ++ pred ++ succ) r f3 rd op).extractLsb' 24 4 = pred ∧
    (formatI (fm ++ pred ++ succ) r f3 rd op).extractLsb' 20 4 = succ := by
  have slice : ∀ k, k + 4 ≤ 12 → (formatI (fm ++ pred ++ succ) r f3 rd op).extractLsb' (20 + k) 4 =
      (fm ++ pred ++ succ).extractLsb' k 4 := fun k hk => by
    rw [← extract_extract _ hk, bits_20_formatI]
  refine ⟨(slice 8 (by decide)).trans ?_, (slice 4 (by decide)).trans ?_, (slice 0 (by decide)).trans ?_⟩
  · rw [extract_high (by decide), extract_high (by decide)]; exact extract_all fm
  · rw [extract_high (by decide), extract_low (by decide)]; exact extract_all pred
  · rw [extract_low (by decide)]; exact extract_all succ

end

/-! ### The decoder after the encoder -/

theorem decode_encode {i : Instr} (h : i.wf = true) : decode (encode i) = .ok i := by
  cases i
  case lui | auipc => simp [encode, decode, immU_formatU _ _ h]
  case jal => simp [encode, decode, immJ_formatJ _ _ h]
  case jalr => simp [encode, decode, decodeJalr, immI_formatI _ _ _ _ h]
  case beq | bne | blt | bge | bltu | bgeu => simp [encode, decode, decodeBranch, immB_formatB _ _ _ _ h]
  case lb | lh | lw | lbu | lhu => simp [encode, decode, decodeLoad, immI_formatI _ _ _ _ h]
  case sb | sh | sw => simp [encode, decode, decodeStore, immS_formatS _ _ _ _ h]
  case addi | slti | sltiu | xori | ori | andi => simp [encode, decode, decodeOpImm, immI_formatI _ _ _ _ h]
  case slli | srli | srai => simp [encode, decode, decodeOpImm]
  case add | sub | sll | slt | sltu | xor | srl | sra | or | and => simp [encode, decode, decodeOp]
  case fence => simp [encode, decode, decodeMiscMem, fence_fields]
  case ecall | ebreak => rfl
  case csrrw | csrrs | csrrc => simp [encode, decode, decodeSystem]
  case csrrwi | csrrsi | csrrci => simpa [encode, decode, decodeSystem] using beq_iff_eq.mp h

/-- The four bytes of a word, lowest first, are the word's (rule R48). -/
theorem wordOfBytes_byteOf (w : Word) : wordOfBytes (byteOf w 0) (byteOf w 1) (byteOf w 2) (byteOf w 3) = w := by
  unfold wordOfBytes byteOf
  rw [extract_join (s := 16) (k := 8) (l := 8), extract_join (s := 8) (k := 16) (l := 8),
    extract_join (s := 0) (k := 24) (l := 8)]
  exact extract_all w

/-- `decodeBytes` takes the four bytes of a word. -/
theorem decodeBytes_bytesOfWord (w : Word) (rest : List Byte) :
    decodeBytes (bytesOfWord w ++ rest) = (decode w).map (·, rest) := by
  simp only [bytesOfWord, List.cons_append, List.nil_append, decodeBytes, wordOfBytes_byteOf]

theorem decodeBytes_of_short {bs : List Byte} (h : bs.length < 4) : decodeBytes bs = .error .truncated := by
  rcases bs with _ | ⟨_, _ | ⟨_, _ | ⟨_, _ | ⟨_, _⟩⟩⟩⟩
  case cons.cons.cons.cons => simp only [List.length_cons] at h; omega
  all_goals rfl

end Sys2Proof

open Sys2Proof

/-- Settles O6: the four bytes make the encoded word again, which decodes to its instruction. -/
theorem bytesDecodeLittleEndian : Obligations.BytesDecodeLittleEndian :=
  ⟨fun i rest h => by rw [decodeBytes_bytesOfWord, decode_encode h]; rfl, fun _ => decodeBytes_of_short⟩

end
section
/-! PROOFS of the statements about bit 0 of the pc: what the decoder gives is well formed, so a transfer's offset is
even, and only JALR clears the bit. -/

namespace Sys2Proof

/-! ### What the decoder gives is well formed -/

theorem fitsSigned_signExtend {n : Nat} (hn : n ≤ 32) (x : BitVec n) : fitsSigned n (x.signExtend 32) = true := by
  have hx : (x.signExtend 32).setWidth n = x := by
    ext i hi
    simp [BitVec.getElem_signExtend, hi, show i < 32 by omega]
  rw [fitsSigned, hx, beq_self_eq_true]

theorem fitsImm12_immI (w : Word) : fitsImm12 (immI w) = true := fitsSigned_signExtend (by decide) _

theorem fitsImm12_immS (w : Word) : fitsImm12 (immS w) = true := fitsSigned_signExtend (by decide) _

theorem bit0_signExtend_append {n : Nat} (x : BitVec n) : ((x ++ 0#1).signExtend 32).getLsbD 0 = false := by
  rw [BitVec.getLsbD_signExtend, BitVec.getLsbD_append]
  simp

theorem fitsBranch_immB (w : Word) : fitsBranch (immB w) = true := by
  rw [fitsBranch, immB, fitsSigned_signExtend (by decide), bit0_signExtend_append]; rfl

theorem fitsJump_immJ (w : Word) : fitsJump (immJ w) = true := by
  rw [fitsJump, immJ, fitsSigned_signExtend (by decide), bit0_signExtend_append]; rfl

theorem fitsUpper_immU (w : Word) : fitsUpper (immU w) = true := by
  rw [fitsUpper, immU, ← extract_zero, extract_low (by decide), extract_all, beq_self_eq_true]

theorem fitsUimm_uimmOf (w : Word) : fitsUimm (uimmOf w) = true := by
  simp [fitsUimm, uimmOf]

section
variable {w : Word} {i : Instr}

theorem wf_of_decodeJalr (h : decodeJalr w = .ok i) : i.wf = true := by
  unfold decodeJalr at h
  split_ifs at h; cases h
  exact fitsImm12_immI w

theorem wf_of_decodeBranch (h : decodeBranch w = .ok i) : i.wf = true := by
  unfold decodeBranch at h
  split_ifs at h <;> cases h <;> exact fitsBranch_immB w

theorem wf_of_decodeLoad (h : decodeLoad w = .ok i) : i.wf = true := by
  unfold decodeLoad at h
  split_ifs at h <;> cases h <;> exact fitsImm12_immI w

theorem wf_of_decodeStore (h : decodeStore w = .ok i) : i.wf = true := by
  unfold decodeStore at h
  split_ifs at h <;> cases h <;> exact fitsImm12_immS w

theorem wf_of_decodeOpImm (h : decodeOpImm w = .ok i) : i.wf = true := by
  unfold decodeOpImm at h
  split_ifs at h <;> cases h
  iterate 6 · exact fitsImm12_immI w
  all_goals rfl

theorem wf_of_decodeOp (h : decodeOp w = .ok i) : i.wf = true := by
  unfold decodeOp at h
  split_ifs at h <;> cases h <;> rfl

theorem wf_of_decodeMiscMem (h : decodeMiscMem w = .ok i) : i.wf = true := by
  unfold decodeMiscMem at h
  split_ifs at h; cases h
  rfl

theorem wf_of_decodeSystem (h : decodeSystem w = .ok i) : i.wf = true := by
  unfold decodeSystem at h
  split_ifs at h <;> cases h
  iterate 5 · rfl
  all_goals exact fitsUimm_uimmOf w

theorem wf_of_ite {c : Prop} [Decidable c] {x y : Except Illegal Instr} (hx : x = .ok i → i.wf = true)
    (hy : y = .ok i → i.wf = true) (h : (if c then x else y) = .ok i) : i.wf = true := by
  by_cases hc : c
  · exact hx (by rwa [if_pos hc] at h)
  · exact hy (by rwa [if_neg hc] at h)

/-- A word that decodes gives a well-formed instruction, opcode by opcode. -/
theorem wf_of_decode : decode w = .ok i → i.wf = true := by
  unfold decode
  refine wf_of_ite ?_ <| wf_of_ite ?_ <| wf_of_ite ?_ <| wf_of_ite wf_of_decodeJalr <| wf_of_ite wf_of_decodeBranch <|
    wf_of_ite wf_of_decodeLoad <| wf_of_ite wf_of_decodeStore <| wf_of_ite wf_of_decodeOpImm <|
    wf_of_ite wf_of_decodeOp <| wf_of_ite wf_of_decodeMiscMem <| wf_of_ite wf_of_decodeSystem <| wf_of_ite nofun nofun
  · rintro ⟨⟩; exact fitsUpper_immU w
  · rintro ⟨⟩; exact fitsUpper_immU w
  · rintro ⟨⟩; exact fitsJump_immJ w

end

end Sys2Proof

namespace Sys2Proof.Machine

/-! ### Bit 0 of the pc -/

theorem bit0_add (a b : Word) : (a + b).getLsbD 0 = (a.getLsbD 0 ^^ b.getLsbD 0) := by
  rw [BitVec.getLsbD_add (by decide)]
  simp

theorem bit0_add_of_even {a b : Word} (h : b.getLsbD 0 = false) : (a + b).getLsbD 0 = a.getLsbD 0 := by
  rw [bit0_add, h, Bool.xor_false]

theorem bit0_add_four (a : Word) : (a + 4#32).getLsbD 0 = a.getLsbD 0 := bit0_add_of_even rfl

/-- Every state the outcome can go on to has bit 0 of the pc as in `s`. -/
def KeepsBit0 (s : State) (o : Host.Outcome State Fault Refusal) : Prop :=
  ∀ t, o = .next t → t.cpu.pc.getLsbD 0 = s.cpu.pc.getLsbD 0

section
variable {s : State}

theorem keepsBit0_next {t : State} (h : t.cpu.pc.getLsbD 0 = s.cpu.pc.getLsbD 0) : KeepsBit0 s (.next t) := by
  rintro _ ⟨⟩
  exact h

theorem keepsBit0_writeResult (rd : RegIdx) (v : Word) : KeepsBit0 s (writeResult rd v s) :=
  keepsBit0_next (by rw [advance_pc, writeReg_pc, bit0_add_four])

theorem keepsBit0_jumpAndLink {imm : Word} (rd : RegIdx) (h : imm.getLsbD 0 = false) :
    KeepsBit0 s (jumpAndLink rd (pcRelative imm s) s) := keepsBit0_next (bit0_add_of_even h)

theorem keepsBit0_branchOn {imm : Word} (c : Cond) (rs1 rs2 : RegIdx) (h : imm.getLsbD 0 = false) :
    KeepsBit0 s (branchOn c rs1 rs2 imm s) := by
  refine keepsBit0_next ?_
  rw [setPc_pc, branchPc]
  split
  · exact bit0_add_of_even h
  · exact bit0_add_four _

theorem keepsBit0_loadInto (n : AccessWidth) (ext : BitVec n.bits → Word) (rd rs1 : RegIdx) (imm : Word) :
    KeepsBit0 s (loadInto n ext rd rs1 imm s) := by
  rcases loadInto_cases n ext rd rs1 imm s with ⟨-, e⟩ | ⟨-, e⟩ <;> rw [e]
  · exact keepsBit0_writeResult rd _
  · exact keepsBit0_next rfl

theorem keepsBit0_storeFrom (n : AccessWidth) (rs1 rs2 : RegIdx) (imm : Word) :
    KeepsBit0 s (storeFrom n rs1 rs2 imm s) := by
  rcases storeFrom_cases n rs1 rs2 imm s with ⟨-, e⟩ | ⟨-, e⟩ <;> rw [e]
  · exact keepsBit0_next (bit0_add_four _)
  · exact keepsBit0_next rfl

theorem keepsBit0_csrOperation (w : Word) (rd : RegIdx) (c : CsrIdx) (f : Word → Word) :
    KeepsBit0 s (csrOperation w rd c f s) := by
  rcases csrOperation_cases w rd c f s with ⟨-, e⟩ | ⟨-, e⟩ <;> rw [e]
  · exact keepsBit0_writeResult rd _
  · exact keepsBit0_next rfl

theorem bit0_of_fitsBranch {imm : Word} (h : fitsBranch imm = true) : imm.getLsbD 0 = false := by
  simp only [fitsBranch, Bool.and_eq_true, Bool.not_eq_true'] at h
  exact h.2

theorem bit0_of_fitsJump {imm : Word} (h : fitsJump imm = true) : imm.getLsbD 0 = false := by
  simp only [fitsJump, Bool.and_eq_true, Bool.not_eq_true'] at h
  exact h.2

/-- Every well-formed instruction but JALR keeps the bit (rule R52). -/
theorem keepsBit0_exec {i : Instr} (hw : i.wf = true) (hj : i.mnemonic ≠ .jalr) : KeepsBit0 s (exec i s) := by
  cases i
  case lui | auipc | addi | slti | sltiu | xori | ori | andi | slli | srli | srai | add | sub | sll | slt | sltu | xor
      | srl | sra | or | and => exact keepsBit0_writeResult _ _
  case jalr => exact absurd rfl hj
  case jal => exact keepsBit0_jumpAndLink _ (bit0_of_fitsJump hw)
  case beq | bne | blt | bge | bltu | bgeu => exact keepsBit0_branchOn _ _ _ (bit0_of_fitsBranch hw)
  case lb | lh | lw | lbu | lhu => exact keepsBit0_loadInto _ _ _ _ _
  case sb | sh | sw => exact keepsBit0_storeFrom _ _ _ _
  case fence => exact keepsBit0_next (bit0_add_four _)
  case ecall | ebreak => exact keepsBit0_next rfl
  case csrrw | csrrs | csrrc | csrrwi | csrrsi | csrrci => exact keepsBit0_csrOperation _ _ _ _

theorem bit0_jalrTarget (rs1 : RegIdx) (imm : Word) : (jalrTarget rs1 imm s).getLsbD 0 = false := by
  simp [jalrTarget, alu]

/-- Bit 0 of the pc after a well-formed instruction. -/
theorem bit0_pc_of_exec {i : Instr} {t : State} (hw : i.wf = true) (h : exec i s = .next t) :
    t.cpu.pc.getLsbD 0 = if i.mnemonic = .jalr then false else s.cpu.pc.getLsbD 0 := by
  split
  next hj =>
    cases i <;> cases hj
    cases h
    exact bit0_jalrTarget _ _
  next hj => exact keepsBit0_exec hw hj t h

theorem even_pc_of_fetchExecute {t : State} (he : s.cpu.pc.getLsbD 0 = false) (h : fetchExecute s = .next t) :
    t.cpu.pc.getLsbD 0 = false := by
  rcases fetchExecute_cases s with ⟨-, e⟩ | ⟨w, -, -, ⟨-, e⟩ | ⟨-, -, e⟩ | ⟨-, i, hi, e⟩⟩ <;> rw [e] at h
  · cases h; exact he
  · cases h; rw [halt_pc, bit0_add_four, he]
  · cases h; exact he
  · rw [bit0_pc_of_exec (wf_of_decode hi) h, he, ite_self]

theorem running_keeps_even_pc {t : State} (hi : s.Inv) (hs : s.status = .running) (he : s.cpu.pc.getLsbD 0 = false)
    (h : step s = .next t) : t.cpu.pc.getLsbD 0 = false := by
  rcases running_cases hs with ⟨a, -, -, e⟩ | ⟨-, e⟩ | ⟨u, hu, -, e⟩ | ⟨u, hu⟩
  · cases e.symm.trans h
    exact he
  · cases e.symm.trans h
    exact he
  · cases e.symm.trans h
    rw [capture_cpu, (sameGuestView_at_poll hi hu).1, he]
  · rw [hu.step_eq] at h
    exact even_pc_of_fetchExecute (by rw [hu.cpu_eq hi, he]) h

end

end Sys2Proof.Machine

open Sys2Proof Sys2Proof.Machine

/-- Settles O25: every instruction of the decoder moves the pc by an even offset, but JALR, whose target is even. -/
theorem evenPcStaysEven : Obligations.EvenPcStaysEven :=
  ⟨fun _ _ _ => bit0_pc_of_exec, fun _ _ => running_keeps_even_pc⟩

end
section
/-! PROOFS that the encoder and the decoder are inverse: the formats put the fields of a word back where they were. -/

namespace Sys2Proof

/-! ### The slices of a word's immediates -/

section
variable {w : Word} {op f7 : BitVec 7} {f3 : BitVec 3}

theorem extract_signExtend {n s l : Nat} (hn : n ≤ 32) (x : BitVec n) (h : s + l ≤ n) :
    (x.signExtend 32).extractLsb' s l = x.extractLsb' s l := by
  ext i hi
  simp [BitVec.getElem_signExtend, show s + i < n by omega, show s + i < 32 by omega]

theorem immI_slice : (immI w).setWidth 12 = csrOf w := by
  rw [← extract_zero, immI, extract_signExtend (by decide) _ (by decide)]
  exact extract_all _

theorem uimm_slice : (uimmOf w).setWidth 5 = regBits (rs1Of w) := by
  simp [uimmOf, rs1Of, -BitVec.toFin_extractLsb']

theorem immS_slices : (immS w).extractLsb' 5 7 = w.extractLsb' 25 7 ∧ (immS w).extractLsb' 0 5 = w.extractLsb' 7 5 := by
  simp (disch := decide) only [immS, extract_signExtend, extract_high, extract_low, Nat.reduceSub, extract_all, and_self]

theorem immB_slices : (immB w).extractLsb' 12 1 = w.extractLsb' 31 1 ∧ (immB w).extractLsb' 5 6 = w.extractLsb' 25 6 ∧
    (immB w).extractLsb' 1 4 = w.extractLsb' 8 4 ∧ (immB w).extractLsb' 11 1 = w.extractLsb' 7 1 := by
  simp (disch := decide) only [immB, extract_signExtend, extract_high, extract_low, Nat.reduceSub, extract_all, and_self]

theorem immJ_slices : (immJ w).extractLsb' 20 1 = w.extractLsb' 31 1 ∧ (immJ w).extractLsb' 1 10 = w.extractLsb' 21 10 ∧
    (immJ w).extractLsb' 11 1 = w.extractLsb' 20 1 ∧ (immJ w).extractLsb' 12 8 = w.extractLsb' 12 8 := by
  simp (disch := decide) only [immJ, extract_signExtend, extract_high, extract_low, Nat.reduceSub, extract_all, and_self]

theorem immU_slice : (immU w).extractLsb' 12 20 = w.extractLsb' 12 20 := by
  rw [immU, extract_high (by decide)]
  exact extract_all _

/-! ### A word from its fields, format by format -/

theorem formatR_fields (h0 : opcodeOf w = op) (h3 : funct3Of w = f3) (h7 : funct7Of w = f7) :
    formatR f7 (rs2Of w) (rs1Of w) f3 (rdOf w) op = w := by
  subst h0 h3 h7
  refine Eq.trans ?_ (extract_all w)
  simp only [formatR, opcodeOf, funct3Of, funct7Of, rs1Of, rs2Of, rdOf, regBits_ofBits]
  rw [extract_join (s := 20) (k := 7) (l := 5), extract_join (s := 15) (k := 12) (l := 5),
    extract_join (s := 12) (k := 17) (l := 3), extract_join (s := 7) (k := 20) (l := 5),
    extract_join (s := 0) (k := 25) (l := 7)]

theorem formatShift_fields (h0 : opcodeOf w = op) (h3 : funct3Of w = f3) (h7 : funct7Of w = f7) :
    formatShift f7 (shamtOf w) (rs1Of w) f3 (rdOf w) op = w := formatR_fields h0 h3 h7

theorem formatI_fields (h0 : opcodeOf w = op) (h3 : funct3Of w = f3) :
    formatI (csrOf w) (regBits (rs1Of w)) f3 (rdOf w) op = w := by
  subst h0 h3
  refine Eq.trans ?_ (extract_all w)
  simp only [formatI, opcodeOf, funct3Of, csrOf, rs1Of, rdOf, regBits_ofBits]
  rw [extract_join (s := 15) (k := 12) (l := 5), extract_join (s := 12) (k := 17) (l := 3),
    extract_join (s := 7) (k := 20) (l := 5), extract_join (s := 0) (k := 25) (l := 7)]

theorem formatI_immI (h0 : opcodeOf w = op) (h3 : funct3Of w = f3) :
    formatI ((immI w).setWidth 12) (regBits (rs1Of w)) f3 (rdOf w) op = w := by
  rw [immI_slice, formatI_fields h0 h3]

theorem formatI_uimmOf (h0 : opcodeOf w = op) (h3 : funct3Of w = f3) :
    formatI (csrOf w) ((uimmOf w).setWidth 5) f3 (rdOf w) op = w := by
  rw [uimm_slice, formatI_fields h0 h3]

theorem formatI_fence (h0 : opcodeOf w = op) (h3 : funct3Of w = f3) :
    formatI (w.extractLsb' 28 4 ++ w.extractLsb' 24 4 ++ w.extractLsb' 20 4) (regBits (rs1Of w)) f3 (rdOf w) op = w := by
  rw [extract_join (s := 24) (k := 4) (l := 4), extract_join (s := 20) (k := 8) (l := 4)]
  exact formatI_fields h0 h3

theorem formatS_immS (h0 : opcodeOf w = op) (h3 : funct3Of w = f3) :
    formatS (immS w) (rs2Of w) (rs1Of w) f3 op = w := by
  rw [formatS, immS_slices.1, immS_slices.2]
  exact formatR_fields h0 h3 rfl

theorem formatB_immB (h0 : opcodeOf w = op) (h3 : funct3Of w = f3) :
    formatB (immB w) (rs2Of w) (rs1Of w) f3 op = w := by
  subst h0 h3
  obtain ⟨h12, h5, h1, h11⟩ := immB_slices (w := w)
  refine Eq.trans ?_ (extract_all w)
  simp only [formatB, h12, h5, h1, h11, opcodeOf, funct3Of, rs1Of, rs2Of, regBits_ofBits]
  rw [extract_join (s := 25) (k := 1) (l := 6), extract_join (s := 20) (k := 7) (l := 5),
    extract_join (s := 15) (k := 12) (l := 5), extract_join (s := 12) (k := 17) (l := 3),
    extract_join (s := 8) (k := 20) (l := 4), extract_join (s := 7) (k := 24) (l := 1),
    extract_join (s := 0) (k := 25) (l := 7)]

theorem formatU_immU (h0 : opcodeOf w = op) : formatU (immU w) (rdOf w) op = w := by
  subst h0
  refine Eq.trans ?_ (extract_all w)
  simp only [formatU, immU_slice, opcodeOf, rdOf, regBits_ofBits]
  rw [extract_join (s := 7) (k := 20) (l := 5), extract_join (s := 0) (k := 25) (l := 7)]

theorem formatJ_immJ (h0 : opcodeOf w = op) : formatJ (immJ w) (rdOf w) op = w := by
  subst h0
  obtain ⟨h20, h1, h11, h12⟩ := immJ_slices (w := w)
  refine Eq.trans ?_ (extract_all w)
  simp only [formatJ, h20, h1, h11, h12, opcodeOf, rdOf, regBits_ofBits]
  rw [extract_join (s := 21) (k := 1) (l := 10), extract_join (s := 20) (k := 11) (l := 1),
    extract_join (s := 12) (k := 12) (l := 8), extract_join (s := 7) (k := 20) (l := 5),
    extract_join (s := 0) (k := 25) (l := 7)]

/-! ### The encoder after the decoder, opcode by opcode -/

theorem funct3_eq_seven {f : BitVec 3} (h0 : f ≠ 0#3) (h1 : f ≠ 1#3) (h2 : f ≠ 2#3) (h3 : f ≠ 3#3) (h4 : f ≠ 4#3)
    (h5 : f ≠ 5#3) (h6 : f ≠ 6#3) : f = 7#3 := by bv_omega

variable {i : Instr}

theorem encode_of_decodeJalr (h0 : opcodeOf w = 0b1100111#7) (h : decodeJalr w = .ok i) : encode i = w := by
  unfold decodeJalr at h
  split_ifs at h with h3; cases h
  exact formatI_immI h0 h3

theorem encode_of_decodeBranch (h0 : opcodeOf w = 0b1100011#7) (h : decodeBranch w = .ok i) : encode i = w := by
  unfold decodeBranch at h
  split_ifs at h <;> cases h <;> exact formatB_immB h0 ‹_›

theorem encode_of_decodeLoad (h0 : opcodeOf w = 0b0000011#7) (h : decodeLoad w = .ok i) : encode i = w := by
  unfold decodeLoad at h
  split_ifs at h <;> cases h <;> exact formatI_immI h0 ‹_›

theorem encode_of_decodeStore (h0 : opcodeOf w = 0b0100011#7) (h : decodeStore w = .ok i) : encode i = w := by
  unfold decodeStore at h
  split_ifs at h <;> cases h <;> exact formatS_immS h0 ‹_›

theorem encode_of_decodeOpImm (h0 : opcodeOf w = 0b0010011#7) (h : decodeOpImm w = .ok i) : encode i = w := by
  unfold decodeOpImm at h
  split_ifs at h <;> cases h
  iterate 6 · exact formatI_immI h0 ‹_›
  all_goals exact formatShift_fields h0 (And.left ‹_›) (And.right ‹_›)

theorem encode_of_decodeOp (h0 : opcodeOf w = 0b0110011#7) (h : decodeOp w = .ok i) : encode i = w := by
  unfold decodeOp at h
  split_ifs at h <;> cases h
  case neg => exact formatR_fields h0 (by apply funct3_eq_seven <;> assumption) ‹_›
  all_goals exact formatR_fields h0 ‹_› ‹_›

theorem encode_of_decodeMiscMem (h0 : opcodeOf w = 0b0001111#7) (h : decodeMiscMem w = .ok i) : encode i = w := by
  unfold decodeMiscMem at h
  split_ifs at h with h3; cases h
  exact formatI_fence h0 h3

theorem encode_of_decodeSystem (h0 : opcodeOf w = 0b1110011#7) (h : decodeSystem w = .ok i) : encode i = w := by
  unfold decodeSystem at h
  split_ifs at h <;> cases h
  iterate 2 · exact Eq.symm ‹w = _›
  iterate 3 · exact formatI_fields h0 ‹_›
  all_goals exact formatI_uimmOf h0 ‹_›

/-- What holds on each branch of a conditional that answers `r` holds. -/
theorem of_ite_eq {α : Type} {c P : Prop} [Decidable c] {x y r : α} (hx : c → x = r → P) (hy : ¬c → y = r → P) :
    (if c then x else y) = r → P := iteInduction (motive := fun z => z = r → P) hx hy

/-- The word of what the decoder gives is the word decoded. -/
theorem encode_of_decode : decode w = .ok i → encode i = w := by
  unfold decode
  refine of_ite_eq ?_ fun _ => of_ite_eq ?_ fun _ => of_ite_eq ?_ fun _ =>
    of_ite_eq encode_of_decodeJalr fun _ => of_ite_eq encode_of_decodeBranch fun _ =>
    of_ite_eq encode_of_decodeLoad fun _ => of_ite_eq encode_of_decodeStore fun _ =>
    of_ite_eq encode_of_decodeOpImm fun _ => of_ite_eq encode_of_decodeOp fun _ =>
    of_ite_eq encode_of_decodeMiscMem fun _ => of_ite_eq encode_of_decodeSystem fun _ => of_ite_eq nofun nofun
  · rintro h0 ⟨⟩; exact formatU_immU h0
  · rintro h0 ⟨⟩; exact formatU_immU h0
  · rintro h0 ⟨⟩; exact formatJ_immJ h0

end

end Sys2Proof

open Sys2Proof

/-- Settles O1, by cases on the instruction: each field of its word is the operand it was made from. -/
theorem decodeInvertsEncode : Obligations.DecodeInvertsEncode := fun _ => decode_encode

/-- Settles O2, branch by branch of the decoder: the format puts the word's fields back where they were. -/
theorem encodeInvertsDecode : Obligations.EncodeInvertsDecode := fun _ _ h => ⟨encode_of_decode h, wf_of_decode h⟩
end
section
/-! PROOFS of the statements about the opcode table (rules R70, R71): its rows against the decoder, and against each other. -/

namespace Sys2Proof

/-! ### The instruction of a row -/

/-- The instruction of a mnemonic whose operands are the fields of `w`, per the row's format (rules R61 to R68, R78, R79). -/
def instrOf (m : Mnemonic) (w : Word) : Instr :=
  match m with
  | .lui => .lui (rdOf w) (immU w)
  | .auipc => .auipc (rdOf w) (immU w)
  | .addi => .addi (rdOf w) (rs1Of w) (immI w)
  | .slti => .slti (rdOf w) (rs1Of w) (immI w)
  | .sltiu => .sltiu (rdOf w) (rs1Of w) (immI w)
  | .xori => .xori (rdOf w) (rs1Of w) (immI w)
  | .ori => .ori (rdOf w) (rs1Of w) (immI w)
  | .andi => .andi (rdOf w) (rs1Of w) (immI w)
  | .slli => .slli (rdOf w) (rs1Of w) (shamtOf w)
  | .srli => .srli (rdOf w) (rs1Of w) (shamtOf w)
  | .srai => .srai (rdOf w) (rs1Of w) (shamtOf w)
  | .add => .add (rdOf w) (rs1Of w) (rs2Of w)
  | .sub => .sub (rdOf w) (rs1Of w) (rs2Of w)
  | .sll => .sll (rdOf w) (rs1Of w) (rs2Of w)
  | .slt => .slt (rdOf w) (rs1Of w) (rs2Of w)
  | .sltu => .sltu (rdOf w) (rs1Of w) (rs2Of w)
  | .xor => .xor (rdOf w) (rs1Of w) (rs2Of w)
  | .srl => .srl (rdOf w) (rs1Of w) (rs2Of w)
  | .sra => .sra (rdOf w) (rs1Of w) (rs2Of w)
  | .or => .or (rdOf w) (rs1Of w) (rs2Of w)
  | .and => .and (rdOf w) (rs1Of w) (rs2Of w)
  | .jal => .jal (rdOf w) (immJ w)
  | .jalr => .jalr (rdOf w) (rs1Of w) (immI w)
  | .beq => .beq (rs1Of w) (rs2Of w) (immB w)
  | .bne => .bne (rs1Of w) (rs2Of w) (immB w)
  | .blt => .blt (rs1Of w) (rs2Of w) (immB w)
  | .bge => .bge (rs1Of w) (rs2Of w) (immB w)
  | .bltu => .bltu (rs1Of w) (rs2Of w) (immB w)
  | .bgeu => .bgeu (rs1Of w) (rs2Of w) (immB w)
  | .lb => .lb (rdOf w) (rs1Of w) (immI w)
  | .lh => .lh (rdOf w) (rs1Of w) (immI w)
  | .lw => .lw (rdOf w) (rs1Of w) (immI w)
  | .lbu => .lbu (rdOf w) (rs1Of w) (immI w)
  | .lhu => .lhu (rdOf w) (rs1Of w) (immI w)
  | .sb => .sb (rs1Of w) (rs2Of w) (immS w)
  | .sh => .sh (rs1Of w) (rs2Of w) (immS w)
  | .sw => .sw (rs1Of w) (rs2Of w) (immS w)
  | .fence => .fence (w.extractLsb' 28 4) (w.extractLsb' 24 4) (w.extractLsb' 20 4) (rs1Of w) (rdOf w)
  | .ecall => .ecall
  | .ebreak => .ebreak
  | .csrrw => .csrrw (rdOf w) (csrOf w) (rs1Of w)
  | .csrrs => .csrrs (rdOf w) (csrOf w) (rs1Of w)
  | .csrrc => .csrrc (rdOf w) (csrOf w) (rs1Of w)
  | .csrrwi => .csrrwi (rdOf w) (csrOf w) (uimmOf w)
  | .csrrsi => .csrrsi (rdOf w) (csrOf w) (uimmOf w)
  | .csrrci => .csrrci (rdOf w) (csrOf w) (uimmOf w)

theorem hasFieldsOf_iff {i : Instr} {w : Word} : i.hasFieldsOf w ↔ i = instrOf i.mnemonic w := by
  cases i <;> simp [Instr.hasFieldsOf, instrOf, Instr.mnemonic]

section
variable {w : Word}

/-! ### What a row compares -/

/-- A slice whose bits the mask holds is the pattern's. -/
theorem slice_of_row {row : OpcodeRow} {c : Word} {s l : Nat} (h : row.isRowOf w = true) (hm : row.mask = c)
    (hc : c.extractLsb' s l = BitVec.allOnes l) : w.extractLsb' s l = row.pattern.extractLsb' s l := by
  rw [← beq_iff_eq.mp h, BitVec.extractLsb'_and, hm, hc, BitVec.and_allOnes]

theorem opcode_of_row {row : OpcodeRow} (h : row.isRowOf w = true) (hm : row.mask = 0x0000007F#32) :
    opcodeOf w = row.pattern.extractLsb' 0 7 := slice_of_row h hm (by decide)

theorem opcode_funct3_of_row {row : OpcodeRow} (h : row.isRowOf w = true) (hm : row.mask = 0x0000707F#32) :
    opcodeOf w = row.pattern.extractLsb' 0 7 ∧ funct3Of w = row.pattern.extractLsb' 12 3 :=
  ⟨slice_of_row h hm (by decide), slice_of_row h hm (by decide)⟩

theorem opcode_functs_of_row {row : OpcodeRow} (h : row.isRowOf w = true) (hm : row.mask = 0xFE00707F#32) :
    opcodeOf w = row.pattern.extractLsb' 0 7 ∧ funct3Of w = row.pattern.extractLsb' 12 3 ∧
      funct7Of w = row.pattern.extractLsb' 25 7 :=
  ⟨slice_of_row h hm (by decide), slice_of_row h hm (by decide), slice_of_row h hm (by decide)⟩

theorem eq_of_row {row : OpcodeRow} (h : row.isRowOf w = true) (hm : row.mask = 0xFFFFFFFF#32) : w = row.pattern := by
  rw [← beq_iff_eq.mp h, hm]
  exact BitVec.and_allOnes.symm

/-! ### The decoder on the words of a row, table by table -/

/-- Every word of the row decodes to the row's instruction. -/
def DecodesAsRow (row : OpcodeRow) : Prop := ∀ w, row.isRowOf w = true → decode w = .ok (instrOf row.mnemonic w)

theorem decodesAsRow_uj : ∀ row ∈ opcodeRowsUJ, DecodesAsRow row := by
  simp only [opcodeRowsUJ, List.forall_mem_cons, List.not_mem_nil, false_implies, implies_true, and_true]
  refine ⟨?lui, ?auipc, ?jal, ?jalr⟩
  case lui | auipc | jal =>
    intro w h
    simp [decode, opcode_of_row h rfl, instrOf]
  case jalr =>
    intro w h
    obtain ⟨h0, h3⟩ := opcode_funct3_of_row h rfl
    simp [decode, h0, decodeJalr, h3, instrOf]

theorem decodesAsRow_branch : ∀ row ∈ opcodeRowsBranch, DecodesAsRow row := by
  simp only [opcodeRowsBranch, List.forall_mem_cons, List.not_mem_nil, false_implies, implies_true, and_true]
  and_intros <;>
  · intro w h
    obtain ⟨h0, h3⟩ := opcode_funct3_of_row h rfl
    simp [decode, h0, decodeBranch, h3, instrOf]

theorem decodesAsRow_memory : ∀ row ∈ opcodeRowsMemory, DecodesAsRow row := by
  simp only [opcodeRowsMemory, List.forall_mem_cons, List.not_mem_nil, false_implies, implies_true, and_true]
  and_intros <;>
  · intro w h
    obtain ⟨h0, h3⟩ := opcode_funct3_of_row h rfl
    simp [decode, h0, decodeLoad, decodeStore, h3, instrOf]

theorem decodesAsRow_opImm : ∀ row ∈ opcodeRowsOpImm, DecodesAsRow row := by
  simp only [opcodeRowsOpImm, List.forall_mem_cons, List.not_mem_nil, false_implies, implies_true, and_true]
  refine ⟨?addi, ?slti, ?sltiu, ?xori, ?ori, ?andi, ?slli, ?srli, ?srai⟩
  case addi | slti | sltiu | xori | ori | andi =>
    intro w h
    obtain ⟨h0, h3⟩ := opcode_funct3_of_row h rfl
    simp [decode, h0, decodeOpImm, h3, instrOf]
  case slli | srli | srai =>
    intro w h
    obtain ⟨h0, h3, h7⟩ := opcode_functs_of_row h rfl
    simp [decode, h0, decodeOpImm, h3, h7, instrOf]

theorem decodesAsRow_op : ∀ row ∈ opcodeRowsOp, DecodesAsRow row := by
  simp only [opcodeRowsOp, List.forall_mem_cons, List.not_mem_nil, false_implies, implies_true, and_true]
  and_intros <;>
  · intro w h
    obtain ⟨h0, h3, h7⟩ := opcode_functs_of_row h rfl
    simp [decode, h0, decodeOp, h3, h7, instrOf]

theorem decodesAsRow_system : ∀ row ∈ opcodeRowsSystem, DecodesAsRow row := by
  simp only [opcodeRowsSystem, List.forall_mem_cons, List.not_mem_nil, false_implies, implies_true, and_true]
  refine ⟨?fence, ?ecall, ?ebreak, ?csrrw, ?csrrs, ?csrrc, ?csrrwi, ?csrrsi, ?csrrci⟩
  case ecall | ebreak =>
    intro w h
    obtain rfl := eq_of_row h rfl
    rfl
  case fence | csrrw | csrrs | csrrc | csrrwi | csrrsi | csrrci =>
    intro w h
    obtain ⟨h0, h3⟩ := opcode_funct3_of_row h rfl
    simp [decode, h0, decodeMiscMem, decodeSystem, h3, instrOf]

/-- A word that matches a row decodes to the row's instruction (rule R71). -/
theorem decode_of_row {row : OpcodeRow} (hr : row ∈ opcodeTable) (h : row.isRowOf w = true) :
    decode w = .ok (instrOf row.mnemonic w) := by
  simp only [opcodeTable, List.mem_append] at hr
  obtain (((((hr | hr) | hr) | hr) | hr) | hr) := hr
  · exact decodesAsRow_uj row hr w h
  · exact decodesAsRow_branch row hr w h
  · exact decodesAsRow_memory row hr w h
  · exact decodesAsRow_opImm row hr w h
  · exact decodesAsRow_op row hr w h
  · exact decodesAsRow_system row hr w h

/-- The word of an instruction matches the row of its mnemonic, whatever its operands. -/
theorem encodingRow : ∀ i : Instr, Laws.EncodingRow.Statement i
  | .lui .. => Laws.EncodingRow.lui .. | .auipc .. => Laws.EncodingRow.auipc .. | .addi .. => Laws.EncodingRow.addi ..
  | .slti .. => Laws.EncodingRow.slti .. | .sltiu .. => Laws.EncodingRow.sltiu ..
  | .xori .. => Laws.EncodingRow.xori .. | .ori .. => Laws.EncodingRow.ori .. | .andi .. => Laws.EncodingRow.andi ..
  | .slli .. => Laws.EncodingRow.slli .. | .srli .. => Laws.EncodingRow.srli .. | .srai .. => Laws.EncodingRow.srai ..
  | .add .. => Laws.EncodingRow.add .. | .sub .. => Laws.EncodingRow.sub .. | .sll .. => Laws.EncodingRow.sll ..
  | .slt .. => Laws.EncodingRow.slt .. | .sltu .. => Laws.EncodingRow.sltu .. | .xor .. => Laws.EncodingRow.xor ..
  | .srl .. => Laws.EncodingRow.srl .. | .sra .. => Laws.EncodingRow.sra .. | .or .. => Laws.EncodingRow.or ..
  | .and .. => Laws.EncodingRow.and .. | .jal .. => Laws.EncodingRow.jal .. | .jalr .. => Laws.EncodingRow.jalr ..
  | .beq .. => Laws.EncodingRow.beq .. | .bne .. => Laws.EncodingRow.bne .. | .blt .. => Laws.EncodingRow.blt ..
  | .bge .. => Laws.EncodingRow.bge .. | .bltu .. => Laws.EncodingRow.bltu .. | .bgeu .. => Laws.EncodingRow.bgeu ..
  | .lb .. => Laws.EncodingRow.lb .. | .lh .. => Laws.EncodingRow.lh .. | .lw .. => Laws.EncodingRow.lw ..
  | .lbu .. => Laws.EncodingRow.lbu .. | .lhu .. => Laws.EncodingRow.lhu .. | .sb .. => Laws.EncodingRow.sb ..
  | .sh .. => Laws.EncodingRow.sh .. | .sw .. => Laws.EncodingRow.sw .. | .fence .. => Laws.EncodingRow.fence ..
  | .ecall => Laws.EncodingRow.ecall | .ebreak => Laws.EncodingRow.ebreak | .csrrw .. => Laws.EncodingRow.csrrw ..
  | .csrrs .. => Laws.EncodingRow.csrrs .. | .csrrc .. => Laws.EncodingRow.csrrc ..
  | .csrrwi .. => Laws.EncodingRow.csrrwi .. | .csrrsi .. => Laws.EncodingRow.csrrsi ..
  | .csrrci .. => Laws.EncodingRow.csrrci ..

theorem row_of_decode {i : Instr} (h : decode w = .ok i) :
    ∃ row ∈ opcodeTable, row.isRowOf w = true ∧ row.mnemonic = i.mnemonic := by
  obtain ⟨row, hr, hm, hw⟩ := encodingRow i
  exact ⟨row, hr, encode_of_decode h ▸ hw, hm⟩

theorem decode_ok_iff {i : Instr} : decode w = .ok i ↔
    (∃ row ∈ opcodeTable, row.isRowOf w = true ∧ row.mnemonic = i.mnemonic) ∧ i.hasFieldsOf w := by
  rw [hasFieldsOf_iff]
  constructor
  · intro h
    obtain ⟨row, hr, hw, hm⟩ := row_of_decode h
    refine ⟨⟨row, hr, hw, hm⟩, ?_⟩
    rw [decode_of_row hr hw, hm] at h
    exact (Except.ok.inj h).symm
  · rintro ⟨⟨row, hr, hw, hm⟩, hi⟩
    rw [decode_of_row hr hw, hm, ← hi]

theorem decode_error_iff_no_row : (∃ e, decode w = .error e) ↔ ∀ row ∈ opcodeTable, row.isRowOf w = false := by
  constructor
  · rintro ⟨e, he⟩ row hr
    refine Bool.eq_false_iff.mpr fun hw => ?_
    cases he.symm.trans (decode_of_row hr hw)
  · intro h
    cases hd : decode w with
    | error e => exact ⟨e, rfl⟩
    | ok i =>
      obtain ⟨row, hr, hw, -⟩ := row_of_decode hd
      cases (h row hr).symm.trans hw

/-- Two rows differ on a bit that both compare. -/
theorem rows_conflict : ∀ r ∈ opcodeTable, ∀ r' ∈ opcodeTable,
    r = r' ∨ r.pattern &&& r'.mask ≠ r'.pattern &&& r.mask := by decide

theorem row_unique {r r' : OpcodeRow} (hr : r ∈ opcodeTable) (hr' : r' ∈ opcodeTable) (h : r.isRowOf w = true)
    (h' : r'.isRowOf w = true) : r = r' := by
  refine (rows_conflict r hr r' hr').resolve_right (not_not_intro ?_)
  rw [← beq_iff_eq.mp h, ← beq_iff_eq.mp h', BitVec.and_assoc, BitVec.and_assoc, BitVec.and_comm r.mask]

end

end Sys2Proof

open Sys2Proof

/-- Settles O3: a row's words decode to the row's instruction, and what decodes is encoded in its own row. -/
theorem decodeFollowsOpcodeTable : Obligations.DecodeFollowsOpcodeTable :=
  ⟨fun _ _ => decode_ok_iff, fun _ => decode_error_iff_no_row⟩

/-- Settles O4: any two rows of the table conflict on a bit that both compare. -/
theorem noWordMatchesTwoRows : Obligations.NoWordMatchesTwoRows := fun _ _ hr _ hr' => row_unique hr hr'

end
section
/-! PROOFS of the statements about the illegal words (rule R72), the spec's own words and the hints (rule R74). -/

namespace Sys2Proof

/-! ### The classes of rule R72 -/

/-- The major opcodes of rule R69. -/
def majorOpcodes : List (BitVec 7) :=
  [0b0110111#7, 0b0010111#7, 0b1101111#7, 0b1100111#7, 0b1100011#7, 0b0000011#7, 0b0100011#7, 0b0010011#7, 0b0110011#7,
   0b0001111#7, 0b1110011#7]

/-- The words that rule R72 puts in a class; no word is `truncated`, which is what too few bytes are. -/
def Illegal.Holds : Illegal → Word → Prop
  | .truncated, _ => False
  | .notThirtyTwoBit, w => w.extractLsb' 0 2 ≠ 0b11#2
  | .majorOpcode, w => w.extractLsb' 0 2 = 0b11#2 ∧ opcodeOf w ∉ majorOpcodes
  | .jalrFunct3, w => opcodeOf w = 0b1100111#7 ∧ funct3Of w ≠ 0#3
  | .branchFunct3, w => opcodeOf w = 0b1100011#7 ∧ funct3Of w ∈ [2#3, 3#3]
  | .loadFunct3, w => opcodeOf w = 0b0000011#7 ∧ funct3Of w ∈ [3#3, 6#3, 7#3]
  | .storeFunct3, w => opcodeOf w = 0b0100011#7 ∧ funct3Of w ∈ [3#3, 4#3, 5#3, 6#3, 7#3]
  | .opImmFunct7, w => opcodeOf w = 0b0010011#7 ∧
      ((funct3Of w = 1#3 ∧ funct7Of w ≠ 0#7) ∨ (funct3Of w = 5#3 ∧ funct7Of w ≠ 0#7 ∧ funct7Of w ≠ 0b0100000#7))
  | .opFunct7, w => opcodeOf w = 0b0110011#7 ∧ funct7Of w ≠ 0#7 ∧
      ¬ (funct7Of w = 0b0100000#7 ∧ funct3Of w ∈ [0#3, 5#3])
  | .miscMemFunct3, w => opcodeOf w = 0b0001111#7 ∧ funct3Of w ≠ 0#3
  | .systemFunct3, w => opcodeOf w = 0b1110011#7 ∧ funct3Of w = 4#3
  | .systemWord, w => opcodeOf w = 0b1110011#7 ∧ funct3Of w = 0#3 ∧ w ≠ 0x00000073#32 ∧ w ≠ 0x00100073#32

section
variable {w : Word} {e : Illegal}

theorem funct3_cases (f : BitVec 3) :
    f = 0#3 ∨ f = 1#3 ∨ f = 2#3 ∨ f = 3#3 ∨ f = 4#3 ∨ f = 5#3 ∨ f = 6#3 ∨ f = 7#3 := by bv_omega

theorem decodeJalr_error_iff : decodeJalr w = .error e ↔ .jalrFunct3 = e ∧ funct3Of w ≠ 0#3 := by
  unfold decodeJalr
  split_ifs with h <;> simp [h]

theorem decodeBranch_error_iff : decodeBranch w = .error e ↔ .branchFunct3 = e ∧ funct3Of w ∈ [2#3, 3#3] := by
  rcases funct3_cases (funct3Of w) with h | h | h | h | h | h | h | h <;> simp [decodeBranch, h]

theorem decodeLoad_error_iff : decodeLoad w = .error e ↔ .loadFunct3 = e ∧ funct3Of w ∈ [3#3, 6#3, 7#3] := by
  rcases funct3_cases (funct3Of w) with h | h | h | h | h | h | h | h <;> simp [decodeLoad, h]

theorem decodeStore_error_iff :
    decodeStore w = .error e ↔ .storeFunct3 = e ∧ funct3Of w ∈ [3#3, 4#3, 5#3, 6#3, 7#3] := by
  rcases funct3_cases (funct3Of w) with h | h | h | h | h | h | h | h <;> simp [decodeStore, h]

theorem decodeOpImm_error_iff : decodeOpImm w = .error e ↔ .opImmFunct7 = e ∧
    ((funct3Of w = 1#3 ∧ funct7Of w ≠ 0#7) ∨ (funct3Of w = 5#3 ∧ funct7Of w ≠ 0#7 ∧ funct7Of w ≠ 0b0100000#7)) := by
  rcases funct3_cases (funct3Of w) with h | h | h | h | h | h | h | h <;> simp [decodeOpImm, h]
  all_goals split_ifs <;> simp [*]

theorem decodeOp_error_iff : decodeOp w = .error e ↔ .opFunct7 = e ∧ funct7Of w ≠ 0#7 ∧
    ¬ (funct7Of w = 0b0100000#7 ∧ funct3Of w ∈ [0#3, 5#3]) := by
  unfold decodeOp
  split_ifs <;> simp [*]

theorem decodeMiscMem_error_iff : decodeMiscMem w = .error e ↔ .miscMemFunct3 = e ∧ funct3Of w ≠ 0#3 := by
  unfold decodeMiscMem
  split_ifs with h <;> simp [h]

theorem decodeSystem_error_iff : decodeSystem w = .error e ↔ (.systemFunct3 = e ∧ funct3Of w = 4#3) ∨
    (.systemWord = e ∧ funct3Of w = 0#3 ∧ w ≠ 0x00000073#32 ∧ w ≠ 0x00100073#32) := by
  rcases funct3_cases (funct3Of w) with h | h | h | h | h | h | h | h <;> simp [decodeSystem, h]
  split_ifs <;> simp [*]

/-- `w[1:0]` is the low end of the opcode. -/
theorem quadrant_eq : w.extractLsb' 0 2 = (opcodeOf w).extractLsb' 0 2 :=
  (extract_extract (s := 0) (k := 7) (s' := 0) (l := 2) w (by decide)).symm

theorem opcode_not_mem_of_quadrant (h : w.extractLsb' 0 2 ≠ 0b11#2) : opcodeOf w ∉ majorOpcodes := by
  rw [quadrant_eq] at h
  exact fun hm => h ((by decide : ∀ op ∈ majorOpcodes, op.extractLsb' 0 2 = 0b11#2) _ hm)

theorem decode_of_not_mem (h : opcodeOf w ∉ majorOpcodes) :
    decode w = if w.extractLsb' 0 2 ≠ 0b11#2 then .error .notThirtyTwoBit else .error .majorOpcode := by
  simp only [majorOpcodes, List.mem_cons, List.not_mem_nil, not_or] at h
  simp only [decode, h, if_false]

/-- A word refused under a class's name is in the class, opcode by opcode. -/
theorem holds_of_decode_error : decode w = .error e → e.Holds w := by
  unfold decode
  refine of_ite_eq nofun fun n0 => of_ite_eq nofun fun n1 => of_ite_eq nofun fun n2 => of_ite_eq ?jalr fun n3 =>
    of_ite_eq ?branch fun n4 => of_ite_eq ?load fun n5 => of_ite_eq ?store fun n6 => of_ite_eq ?opImm fun n7 =>
    of_ite_eq ?op fun n8 => of_ite_eq ?miscMem fun n9 => of_ite_eq ?system fun n10 => of_ite_eq ?quadrant ?major
  case jalr => intro h0 h; obtain ⟨rfl, hc⟩ := decodeJalr_error_iff.mp h; exact ⟨h0, hc⟩
  case branch => intro h0 h; obtain ⟨rfl, hc⟩ := decodeBranch_error_iff.mp h; exact ⟨h0, hc⟩
  case load => intro h0 h; obtain ⟨rfl, hc⟩ := decodeLoad_error_iff.mp h; exact ⟨h0, hc⟩
  case store => intro h0 h; obtain ⟨rfl, hc⟩ := decodeStore_error_iff.mp h; exact ⟨h0, hc⟩
  case opImm => intro h0 h; obtain ⟨rfl, hc⟩ := decodeOpImm_error_iff.mp h; exact ⟨h0, hc⟩
  case op => intro h0 h; obtain ⟨rfl, hc⟩ := decodeOp_error_iff.mp h; exact ⟨h0, hc⟩
  case miscMem => intro h0 h; obtain ⟨rfl, hc⟩ := decodeMiscMem_error_iff.mp h; exact ⟨h0, hc⟩
  case system => intro h0 h; obtain ⟨rfl, hc⟩ | ⟨rfl, hc⟩ := decodeSystem_error_iff.mp h <;> exact ⟨h0, hc⟩
  case quadrant => rintro hq ⟨⟩; exact hq
  case major => rintro hq ⟨⟩; exact ⟨not_not.mp hq, by simp [majorOpcodes, *]⟩

/-- A word of a class is refused under the class's name. -/
theorem decode_error_of_holds : e.Holds w → decode w = .error e := by
  cases e
  case truncated => exact False.elim
  case notThirtyTwoBit => intro hq; rw [decode_of_not_mem (opcode_not_mem_of_quadrant hq)]; exact if_pos hq
  case majorOpcode => rintro ⟨hq, h⟩; rw [decode_of_not_mem h, if_neg (not_not_intro hq)]
  case jalrFunct3 | branchFunct3 | loadFunct3 | storeFunct3 | opImmFunct7 | opFunct7 | miscMemFunct3 | systemFunct3
      | systemWord =>
    rintro ⟨h0, hc⟩
    simpa [decode, h0, decodeJalr_error_iff, decodeBranch_error_iff, decodeLoad_error_iff, decodeStore_error_iff,
      decodeOpImm_error_iff, decodeOp_error_iff, decodeMiscMem_error_iff, decodeSystem_error_iff] using hc

theorem decode_error_iff (e : Illegal) : decode w = .error e ↔ e.Holds w := ⟨holds_of_decode_error, decode_error_of_holds⟩

end

end Sys2Proof

namespace Sys2Proof.Machine

/-- A transition that fetches an illegal word other than the halt word aborts (rules R72, R172). -/
theorem Fetches.aborts_of_illegal {s u : State} {w : Word} {e : Illegal} (hu : Fetches s u w)
    (hw : w ≠ u.inputs.haltWord) (he : decode w = .error e) :
    ∃ t, step s = .next t ∧ Aborts .illegalInstruction w none u t := by
  refine ⟨_, ?_, aborts_raise .illegalInstruction w none u⟩
  rw [hu.1.step_eq]
  simp only [fetchExecute, hu.2, executeWord, if_neg hw, he]

/-- An instruction that writes its result into `x0` only advances the pc (rules R22, R93). -/
theorem writeResult_zero_only_advances (v : Word) (s : State) :
    ∃ t, writeResult 0 v s = .next t ∧ PcResult (s.cpu.pc + 4#32) s t := ⟨_, rfl, pcResult_setPc s _⟩

end Sys2Proof.Machine

open Sys2Proof Sys2Proof.Machine

/-- Settles O7: the decoder's refusals, class by class, and the abort of a refused word. -/
theorem illegalWordsByClass : Obligations.IllegalWordsByClass :=
  ⟨fun _ => ⟨decode_error_iff .notThirtyTwoBit, decode_error_iff .majorOpcode, decode_error_iff .jalrFunct3,
      decode_error_iff .branchFunct3, decode_error_iff .loadFunct3, decode_error_iff .storeFunct3,
      decode_error_iff .opImmFunct7, decode_error_iff .opFunct7, decode_error_iff .miscMemFunct3,
      decode_error_iff .systemFunct3, decode_error_iff .systemWord, (decode_error_iff .truncated).mp⟩,
    fun _ => decode_error_iff_no_row.mpr, fun _ _ _ _ => Fetches.aborts_of_illegal⟩

/-- Settles O5: the decoder evaluated on the twelve words. -/
theorem specWordsDecode : Obligations.SpecWordsDecode :=
  ⟨rfl, rfl, rfl, rfl, rfl, rfl, rfl, rfl, rfl, rfl, rfl, rfl⟩

/-- Settles O13: each of the 21 ends by writing its result into `rd`, and a write to `x0` is discarded. -/
theorem computationalHintsOnlyAdvance : Obligations.ComputationalHintsOnlyAdvance := by
  intro s rs1 rs2 imm shamt
  simp only [List.forall_mem_cons, List.not_mem_nil, false_implies, implies_true, and_true]
  and_intros <;> exact writeResult_zero_only_advances _ s

end
section
/-! PROOFS of the statements about a transition from its fetch on (rules R81 to R86), what it drives on the memory port
(rule R94), and the ALU it computes with (rules R88 to R91). -/

namespace Sys2Proof.Machine

/-! ### What a transition does with the word it fetches -/

theorem Fetches.step_eq {s u : State} {w : Word} (h : Fetches s u w) : step s = executeWord w u := by
  rw [h.1.step_eq]
  simp only [fetchExecute, h.2]

theorem executeWord_haltWord (s : State) : executeWord s.inputs.haltWord s = .next (halt s) := if_pos rfl

theorem exec_answers_next (i : Instr) (s : State) : ∃ t, exec i s = .next t := by
  have he := exec_effect i s
  generalize exec i s = o at he ⊢
  cases he <;> exact ⟨_, rfl⟩

theorem fetchExecute_answers_next (s : State) : ∃ t, fetchExecute s = .next t := by
  rcases fetchExecute_cases s with ⟨-, e⟩ | ⟨w, -, -, ⟨-, e⟩ | ⟨-, -, e⟩ | ⟨-, i, -, e⟩⟩ <;> rw [e]
  · exact ⟨_, rfl⟩
  · exact ⟨_, rfl⟩
  · exact ⟨_, rfl⟩
  · exact exec_answers_next i s

theorem running_answers_next {s : State} (hs : s.status = .running) : ∃ t, step s = .next t := by
  rcases running_cases hs with ⟨_, -, -, e⟩ | ⟨-, e⟩ | ⟨_, -, -, e⟩ | ⟨u, hu⟩
  · exact ⟨_, e⟩
  · exact ⟨_, e⟩
  · exact ⟨_, e⟩
  · rw [hu.step_eq]
    exact fetchExecute_answers_next u

/-- With nothing asserted the boundary leaves the state as it is. -/
theorem Undisturbed.reachesFetch {s : State} (h : Undisturbed s) : ReachesFetch s s := by
  obtain ⟨hs, hb, hn⟩ := h
  have hsample : s.sample = Boundary.quiet := by simp [State.sample, hn]
  have hafter : s.afterSample = s := by
    have htail : s.inputs.boundaries.tail = s.inputs.boundaries := by rw [hn]; rfl
    rw [State.afterSample, htail]
  refine ⟨hs, ?_⟩
  rw [boundary_idle hb, hsample, hafter]
  rfl

/-! ### Placing a word at the pc (log 12) -/

theorem haltWordBeside_ne (w h : Word) : haltWordBeside w h ≠ w := by
  unfold haltWordBeside
  split
  · split
    · next hw => rw [hw]; decide
    · next hw => exact Ne.symm hw
  · assumption

theorem withFetchWord_eq_placeWord (s : State) (w : Word) : s.withFetchWord 32 w.toNat = placeWord s w := by
  rw [State.withFetchWord, Nat.mod_eq_of_lt w.isLt, BitVec.ofNat_toNat, BitVec.setWidth_eq]

/-- Placing a word where the fetch is accepted is the store of the word at the pc. -/
theorem withWordAtPc_of_memWrite {s t : State} {w : Word} (h : memWrite s.cpu.pc .word w s = .ok t) :
    withWordAtPc s w = t := by simp only [withWordAtPc, h]

/-- The machine a word is placed in fetches the word at once. -/
theorem fetches_placeWord {s : State} (hm : s.mem.wf) (h : Accepted .fetch s.cpu.pc .word) (w : Word) :
    Fetches (placeWord s w) (placeWord s w) w := by
  have hstore := memWrite_of_accepted (s := s) (n := .word) (v := w) (accepted_iff.mpr (accepted_iff.mp h))
  have hplace := withWordAtPc_of_memWrite hstore
  have hpc : (placeWord s w).cpu.pc = s.cpu.pc := by rw [placeWord, hplace]; rfl
  have hmem : (placeWord s w).mem = (withWordAtPc s w).mem := rfl
  refine ⟨Undisturbed.reachesFetch ⟨rfl, rfl, rfl⟩, ?_⟩
  rw [fetchWord, hpc, memRead_congr_mem hmem, hplace]
  simpa using memRead_of_stored_word hm hstore .fetch .word (k := 0) (by decide)

/-! ### The memory port, case by case -/

theorem wordAccesses_eq_driven {w : Word} {s : State} {i : Instr} {p : AccessRequest} (hw : w ≠ s.inputs.haltWord)
    (hi : decode w = .ok i) (hp : dataAccess i s = some p) : wordAccesses w s = driven p s := by
  simp only [wordAccesses, if_neg hw, hi, hp]

/-- A fetched word drives nothing, or the accepted access of the load or store it decodes to. -/
theorem wordAccesses_cases (w : Word) (s : State) : wordAccesses w s = [] ∨
    ∃ i p, decode w = .ok i ∧ dataAccess i s = some p ∧ wordAccesses w s = [p.answered s.mem] := by
  by_cases hw : w = s.inputs.haltWord
  · exact .inl (if_pos hw)
  · cases hi : decode w with
    | error e => exact .inl (by simp only [wordAccesses, if_neg hw, hi])
    | ok i =>
      cases hp : dataAccess i s with
      | none => exact .inl (by simp only [wordAccesses, if_neg hw, hi, hp])
      | some p =>
        rw [wordAccesses_eq_driven hw hi hp]
        rcases confine_cases p.kind p.addr p.width with ⟨h, -⟩ | ⟨h, -⟩
        · exact .inr ⟨i, p, rfl, hp, driven_of_accepted s h⟩
        · exact .inl (by simp only [driven, h])

/-- The port of a transition that fetches has the fetch first. -/
theorem Fetches.memoryPort_eq {s u : State} {w : Word} (h : Fetches s u w) :
    memoryPort s = FetchOnPort u w :: wordAccesses w u := by
  rw [h.1.memoryPort_eq, ← fetchRequest_answered h.2]
  simp only [fetchAccesses, h.2]

/-- A transition drives nothing, or it fetches a word. -/
theorem memoryPort_cases (s : State) : memoryPort s = [] ∨ ∃ u w, Fetches s u w := by
  cases hs : s.status with
  | halted | aborted => exact .inl (by simp only [memoryPort, hs])
  | running =>
    cases hb : boundary s with
    | ends t => exact .inl (by simp only [memoryPort, hs, hb])
    | fetches u =>
      cases hf : fetchWord u with
      | error r => exact .inl (by simp only [memoryPort, hs, hb, fetchAccesses, hf])
      | ok w => exact .inr ⟨u, w, ⟨hs, hb⟩, hf⟩

/-- Only the loads and the stores access data, each with its own kind of access. -/
theorem mnemonic_of_dataAccess {i : Instr} {s : State} {p : AccessRequest} (h : dataAccess i s = some p) :
    (p.kind = .load ∧ i.mnemonic ∈ [Mnemonic.lb, .lh, .lw, .lbu, .lhu]) ∨
    (p.kind = .store ∧ i.mnemonic ∈ [Mnemonic.sb, .sh, .sw]) := by
  cases i <;> cases h
  case lb | lh | lw | lbu | lhu => exact .inl ⟨rfl, by simp [Instr.mnemonic]⟩
  case sb | sh | sw => exact .inr ⟨rfl, by simp [Instr.mnemonic]⟩

/-- The data of a store has the low bytes of the register it comes from. -/
theorem byteOfWord_storeValue (n : AccessWidth) (v : Word) {k : Nat} (hk : k < n.bytes) :
    byteOfWord ((storeValue n v).setWidth 32) k = byteOfWord v k := by
  have hbits : 8 * k + 8 ≤ n.bits ∧ k < 4 := by
    cases n <;> simp only [AccessWidth.bytes, AccessWidth.bits] at hk ⊢ <;> omega
  rw [byteOfWord_setWidth _ hbits.2, storeValue, byteOfWord]
  ext j hj
  simp [show 8 * k + j < n.bits by omega]

/-! ### The ALU -/

theorem shiftAmount_eq (b : Word) : shiftAmount b = b.toNat % 32 := by
  simp [shiftAmount, BitVec.extractLsb'_toNat]

theorem toNat_sub_int (a b : Word) : ((a - b).toNat : Int) = ((a.toNat : Int) - (b.toNat : Int)) % 2 ^ 32 := by
  rw [BitVec.toNat_sub]
  omega

theorem truthWord_decide (p : Prop) [Decidable p] : truthWord (decide p) = if p then 1#32 else 0#32 := by
  simp [truthWord]

theorem cmp_lt (a b : Word) : cmp .lt a b = decide (a.toInt < b.toInt) := BitVec.slt_eq_decide

theorem cmp_ltu (a b : Word) : cmp .ltu a b = decide (a.toNat < b.toNat) := BitVec.ult_eq_decide

theorem cmp_ge (a b : Word) : cmp .ge a b = !cmp .lt a b := rfl

theorem cmp_geu (a b : Word) : cmp .geu a b = !cmp .ltu a b := rfl

end Sys2Proof.Machine

open Sys2Proof Sys2Proof.Machine

/-- Settles O56: the port is the fetch and what its word drives, which is one `dataAccess`, answered from memory. -/
theorem oneFetchThenAtMostOneDataAccess : Obligations.OneFetchThenAtMostOneDataAccess := by
  refine ⟨fun s => ?_, fun i s p => mnemonic_of_dataAccess, fun s u hu ha => ?_, fun s u w i p hu hw hi hp ha => ?_,
    fun rd rs1 imm => ?_, fun rs1 rs2 imm => ?_⟩
  · refine (memoryPort_cases s).imp_right fun ⟨u, w, hu⟩ => ⟨u, w, hu, ?_⟩
    rw [hu.memoryPort_eq]
    rcases wordAccesses_cases w u with e | ⟨i, p, hi, hp, e⟩ <;> rw [e]
    · exact .inl rfl
    · exact .inr ⟨i, p.answered u.mem, hi, hp, answered_readsFrom p u.mem, rfl⟩
  · have hf : fetchWord u = .ok _ := memRead_of_accepted ha
    exact ⟨_, _, hf, Fetches.memoryPort_eq ⟨hu, hf⟩⟩
  · refine ⟨p.answered u.mem, ?_, rfl, answered_readsFrom p u.mem⟩
    rw [hu.memoryPort_eq, wordAccesses_eq_driven hw hi hp, driven_of_accepted u ha]
  · exact ⟨fun _ => rfl, fun _ => rfl, fun _ => rfl, fun _ => rfl, fun _ => rfl⟩
  · exact ⟨fun s => ⟨_, rfl, fun _ => byteOfWord_storeValue .byte (s.readReg rs2)⟩,
      fun s => ⟨_, rfl, fun _ => byteOfWord_storeValue .half (s.readReg rs2)⟩, fun _ => ⟨_, rfl, fun _ _ => rfl⟩⟩

/-- Settles O39: the fetch is `memRead` of the word at the pc. -/
theorem fetchGoesThroughTheValidator : Obligations.FetchGoesThroughTheValidator := by
  refine fun s u hu => ⟨memRead_of_accepted, fun h => ?_⟩
  rw [hu.step_eq]
  exact fetchExecute_aborts_of_rejected h

/-- Settles O40: the halt word is compared before the decode; `halt` writes the status, the latch and the pc alone. -/
theorem haltWordHalts : Obligations.HaltWordHalts := fun _ u hu =>
  ⟨halt u, hu.step_eq.trans (executeWord_haltWord u), rfl, rfl, rfl, fun _ => rfl, rfl, rfl, rfl, rfl, rfl⟩

/-- Settles O44: every part of a transition answers a next state, `exec` by `exec_effect`. -/
theorem everyTransitionAnswersNext : Obligations.EveryTransitionAnswersNext := by
  intro s
  by_cases hs : s.status = .running
  · exact running_answers_next hs
  · exact ⟨_, step_terminal hs⟩

/-- Settles O57: the step of a fetched instruction, and what the boundary leaves of the state. -/
theorem stepRunsTheDecodedInstruction : Obligations.StepRunsTheDecodedInstruction := by
  refine ⟨fun _ _ _ _ => Fetches.step_eq_exec, fun _ => Undisturbed.reachesFetch, fun s u hb hu => ?_⟩
  have hf := hu.atFetch
  exact ⟨⟨hf.cpu_idle hb, hf.mem, hf.status.trans hu.1.symm, hf.result⟩, hf.bridge, by rw [hf.inputs]; rfl⟩

/-- Settles O58: the placed word is fetched, and it is not the halt word that is placed beside it. -/
theorem withFetchWordRunsTheInstruction : Obligations.WithFetchWordRunsTheInstruction := by
  intro s w i hm ha hi
  rw [withFetchWord_eq_placeWord]
  exact (fetches_placeWord hm ha w).step_eq_exec (haltWordBeside_ne w _).symm hi

/-- Settles O8: the adder is that of `BitVec`, whose negation is NOT and 1. -/
theorem adderWrapsModulo : Obligations.AdderWrapsModulo := by
  refine fun a b => ⟨BitVec.toNat_add a b, toNat_sub_int a b, ?_⟩
  rw [alu, BitVec.sub_eq_add_neg, BitVec.neg_eq_not_add, BitVec.add_assoc]

/-- Settles O9: each operation is that of `BitVec`, bit by bit. -/
theorem logicUnitIsBitwise : Obligations.LogicUnitIsBitwise :=
  fun _ _ _ _ => ⟨BitVec.getLsbD_and, BitVec.getLsbD_or, BitVec.getLsbD_xor⟩

/-- Settles O10: a shift by `sh` multiplies or divides by `2 ^ sh`, where `sh` is the amount modulo 32. -/
theorem shifterUsesLowFiveBits : Obligations.ShifterUsesLowFiveBits := by
  intro a b
  simp only [alu, shiftAmount_eq]
  refine ⟨?_, ?_, ?_⟩
  · rw [BitVec.toNat_shiftLeft, Nat.shiftLeft_eq]
  · rw [BitVec.toNat_ushiftRight, Nat.shiftRight_eq_div_pow]
  · rw [BitVec.toInt_sshiftRight, Int.shiftRight_eq_div_pow]
    norm_cast

/-- Settles O11: the two orders the comparator decides, and the conditions that negate them. -/
theorem comparatorOrders : Obligations.ComparatorOrders := by
  intro a b
  refine ⟨?_, ?_, beq_iff_eq, bne_iff_ne, ?_, ?_, ?_, ?_⟩
  · rw [alu, cmp_lt, truthWord_decide]
  · rw [alu, cmp_ltu, truthWord_decide]
  · rw [cmp_lt, decide_eq_true_iff]
  · simp [cmp_ge, cmp_lt]
  · rw [cmp_ltu, decide_eq_true_iff]
  · simp [cmp_geu, cmp_ltu]

end
section
/-! PROOFS of the statements about the 21 integer computational instructions (rules R100 to R120): what their words decode
to, and their whole effect. -/

namespace Sys2Proof

section
variable {w : Word}

/-! ### The words of opcodes OP-IMM and OP -/

theorem decode_of_opImm (h0 : opcodeOf w = 0b0010011#7) : decode w = decodeOpImm w := by simp [decode, h0]

theorem decode_of_op (h0 : opcodeOf w = 0b0110011#7) : decode w = decodeOp w := by simp [decode, h0]

end

end Sys2Proof

namespace Sys2Proof.Machine

/-- An instruction whose meaning is `writeResult` computes its result into `rd` and does nothing else. -/
theorem computesInto_of_writeResult {i : Instr} {rd : RegIdx} {v : State → Word}
    (h : ∀ s, exec i s = writeResult rd (v s) s) : ComputesInto i rd v :=
  fun s => ⟨_, h s, regResult_writeReg_advance s rd (v s)⟩

end Sys2Proof.Machine

open Sys2Proof Sys2Proof.Machine

/-- Settles O18: the opcode alone decides the decode, and both instructions end in `writeResult`. -/
theorem upperImmediatesCompute : Obligations.UpperImmediatesCompute := by
  refine ⟨fun w h0 => ?decodeLui, fun _ _ => ?execLui, fun w h0 => ?decodeAuipc, fun _ _ => ?execAuipc⟩
  case decodeLui | decodeAuipc => simp [decode, h0]
  case execLui | execAuipc => exact computesInto_of_writeResult fun _ => rfl

/-- Settles O19: funct3 selects among the six, and each ends in `writeResult`. -/
theorem registerImmediatesCompute : Obligations.RegisterImmediatesCompute := by
  refine ⟨fun w h0 => ?decode, fun _ _ _ => ?effect⟩
  case decode =>
    rw [decode_of_opImm h0]
    and_intros <;> exact fun h3 => by simp [decodeOpImm, h3]
  case effect => and_intros <;> exact computesInto_of_writeResult fun _ => rfl

/-- Settles O20: funct3 and funct7 select among the three (rule R79), and each ends in `writeResult`. -/
theorem shiftImmediatesCompute : Obligations.ShiftImmediatesCompute := by
  refine ⟨fun w h0 => ?decode, fun _ _ _ => ?effect⟩
  case decode =>
    rw [decode_of_opImm h0]
    refine ⟨?slli, fun h3 h7 => ⟨_, decodeOpImm_error_iff.mpr ⟨rfl, .inl ⟨h3, h7⟩⟩⟩, ?srli, ?srai⟩
    case slli | srli | srai => exact fun h3 h7 => by simp [decodeOpImm, h3, h7]
  case effect => and_intros <;> exact computesInto_of_writeResult fun _ => rfl

/-- Settles O21: funct7 and funct3 select among the ten, and each ends in `writeResult`. -/
theorem registerRegistersCompute : Obligations.RegisterRegistersCompute := by
  refine ⟨fun w h0 h7 => ?base, fun w h0 h7 => ?alternate, fun _ _ _ => ?effect⟩
  case base | alternate =>
    rw [decode_of_op h0]
    and_intros <;> exact fun h3 => by simp [decodeOp, h3, h7]
  case effect => and_intros <;> exact computesInto_of_writeResult fun _ => rfl

end
section
/-! PROOFS of the statements about the 8 control-transfer instructions (rules R121 to R129): what their words decode to,
their whole effect, and the fault at the fetch after them. -/

namespace Sys2Proof

section
variable {w : Word}

/-! ### The words of opcodes JALR and BRANCH -/

theorem decode_of_jalr (h0 : opcodeOf w = 0b1100111#7) : decode w = decodeJalr w := by simp [decode, h0]

theorem decode_of_branch (h0 : opcodeOf w = 0b1100011#7) : decode w = decodeBranch w := by simp [decode, h0]

end

end Sys2Proof

namespace Sys2Proof.Machine

/-! ### The two shared operations -/

/-- A jump completes with its link and its target, whatever the target (rules R121 to R123). -/
theorem jumpAndLink_transfers (rd : RegIdx) (target : Word) (s : State) :
    ∃ t, jumpAndLink rd target s = .next t ∧ RegResult rd (s.cpu.pc + 4#32) target s t :=
  ⟨_, rfl, regResult_writeReg_setPc s rd _ target⟩

/-- A branch completes at `branchPc`, whatever that is (rule R121). -/
theorem branchOn_transfers (c : Cond) (rs1 rs2 : RegIdx) (imm : Word) (s : State) :
    ∃ t, branchOn c rs1 rs2 imm s = .next t ∧ PcResult (branchPc c rs1 rs2 imm s) s t :=
  ⟨_, rfl, pcResult_setPc s _⟩

/-! ### The branch conditions -/

/-- The condition in the integers that rule R91 gives the comparator. -/
def Cond.Holds (a b : Word) : Cond → Prop
  | .eq => a = b
  | .ne => a ≠ b
  | .lt => a.toInt < b.toInt
  | .ge => a.toInt ≥ b.toInt
  | .ltu => a.toNat < b.toNat
  | .geu => a.toNat ≥ b.toNat

theorem cmp_iff_holds (c : Cond) (a b : Word) : cmp c a b = true ↔ c.Holds a b := by
  obtain ⟨-, -, heq, hne, hlt, hge, hltu, hgeu⟩ := comparatorOrders a b
  cases c with
  | eq => exact heq
  | ne => exact hne
  | lt => exact hlt
  | ge => exact hge
  | ltu => exact hltu
  | geu => exact hgeu

section
variable {c : Cond} {rs1 rs2 : RegIdx} {imm : Word} {s : State}

theorem branchPc_of_holds (h : c.Holds (s.readReg rs1) (s.readReg rs2)) :
    branchPc c rs1 rs2 imm s = alu .add s.cpu.pc imm := if_pos ((cmp_iff_holds ..).mpr h)

theorem branchPc_of_not_holds (h : ¬ c.Holds (s.readReg rs1) (s.readReg rs2)) :
    branchPc c rs1 rs2 imm s = s.cpu.pc + 4#32 := if_neg ((cmp_iff_holds ..).not.mpr h)

end

/-- An instruction whose meaning is `branchOn` branches on its condition and does nothing else. -/
theorem branchesOn_of_branchOn {i : Instr} {rs1 rs2 : RegIdx} {imm : Word} (c : Cond)
    (h : ∀ s, exec i s = branchOn c rs1 rs2 imm s) :
    BranchesOn i imm fun s => c.Holds (s.readReg rs1) (s.readReg rs2) := by
  intro s
  have ht := branchOn_transfers c rs1 rs2 imm s
  rw [← h s] at ht
  exact ⟨fun hc => branchPc_of_holds hc ▸ ht, fun hc => branchPc_of_not_holds hc ▸ ht⟩

end Sys2Proof.Machine

open Sys2Proof Sys2Proof.Machine

/-- Settles O22: the opcode, and for JALR funct3, decide the decode, and both instructions end in `jumpAndLink`. -/
theorem jumpsLinkAndTransfer : Obligations.JumpsLinkAndTransfer := by
  refine ⟨fun w h0 => ?decodeJal, fun rd _ _ => jumpAndLink_transfers rd _ _, fun w h0 => ?decodeJalr,
    fun rd _ _ _ => jumpAndLink_transfers rd _ _⟩
  case decodeJal => simp [decode, h0]
  case decodeJalr =>
    rw [decode_of_jalr h0]
    exact ⟨fun h3 => if_pos h3, fun h3 => ⟨_, if_neg h3⟩⟩

/-- Settles O23: funct3 selects among the six, and each is `branchOn` with its own condition. -/
theorem branchesTestAndTransfer : Obligations.BranchesTestAndTransfer := by
  refine ⟨fun w h0 => ?decode, fun _ _ _ => ?effect⟩
  case decode =>
    rw [decode_of_branch h0]
    and_intros <;> exact fun h3 => by simp [decodeBranch, h3]
  case effect =>
    exact ⟨branchesOn_of_branchOn .eq fun _ => rfl, branchesOn_of_branchOn .ne fun _ => rfl,
      branchesOn_of_branchOn .lt fun _ => rfl, branchesOn_of_branchOn .ge fun _ => rfl,
      branchesOn_of_branchOn .ltu fun _ => rfl, branchesOn_of_branchOn .geu fun _ => rfl⟩

/-- Settles O24: neither shared operation looks at its target, and an undisturbed boundary leads to the fetch that
does. -/
theorem outOfWindowTargetFaultsAtNextFetch : Obligations.OutOfWindowTargetFaultsAtNextFetch := by
  refine ⟨fun rd rs1 imm s => ?jumps, fun rs1 rs2 imm s => ?branches, fun t ht hrej => ?nextFetch⟩
  case jumps =>
    simp only [List.forall_mem_cons, List.not_mem_nil, false_implies, implies_true, and_true]
    exact ⟨jumpAndLink_transfers rd _ s, jumpAndLink_transfers rd _ s⟩
  case branches =>
    simp only [List.forall_mem_cons, List.not_mem_nil, false_implies, implies_true, and_true]
    and_intros <;> exact branchOn_transfers _ rs1 rs2 imm s
  case nextFetch =>
    rw [ht.reachesFetch.step_eq]
    exact fetchExecute_aborts_of_rejected hrej

end

section
/-! PROOFS of the statements about the 8 load and store instructions (rules R133 to R141): what their words decode to,
their whole effect, and the abort of every access with base `x0`. -/

namespace Sys2Proof

section
variable {w : Word}

/-! ### The words of opcodes LOAD and STORE -/

theorem decode_of_load (h0 : opcodeOf w = 0b0000011#7) : decode w = decodeLoad w := by simp [decode, h0]

theorem decode_of_store (h0 : opcodeOf w = 0b0100011#7) : decode w = decodeStore w := by simp [decode, h0]

end

/-- A 12-bit immediate is less than 2^11 away from 0, modulo 2^32 (rule R68). -/
theorem toNat_of_fitsImm12 {imm : Word} (h : fitsImm12 imm = true) :
    imm.toNat < 2 ^ 11 ∨ 2 ^ 32 - 2 ^ 11 ≤ imm.toNat := by
  have hsign := signExtend_of_fitsSigned h
  generalize imm.extractLsb' 0 12 = x at hsign
  have hx := x.isLt
  rw [← hsign, BitVec.toNat_signExtend, BitVec.toNat_setWidth, BitVec.msb_eq_decide]
  simp only [decide_eq_true_eq]
  split <;> omega

end Sys2Proof

namespace Sys2Proof.Machine

/-! ### The two shared operations -/

/-- An instruction whose meaning is `loadInto` loads the extended value of its span, or aborts (rule R142). -/
theorem loadsValue_of_loadInto {i : Instr} {rd rs1 : RegIdx} {imm : Word} {n : AccessWidth}
    (ext : BitVec n.bits → Word) (h : ∀ s, exec i s = loadInto n ext rd rs1 imm s) :
    LoadsValue i rd rs1 imm n fun m a => ext (m.value a n) := by
  intro s
  rw [h s]
  refine ⟨fun ha => ?_, loadInto_aborts n ext rd rs1 imm s⟩
  rcases loadInto_cases n ext rd rs1 imm s with ⟨-, e⟩ | ⟨hr, -⟩
  · exact ⟨_, e, regResult_writeReg_advance s rd _⟩
  · exact absurd ha (not_accepted_of_error hr)

/-- Byte `k` of the value a store takes from a register is byte `k` of the register (rules R48, R139 to R141). -/
theorem extract_storeValue (n : AccessWidth) (v : Word) {k : Nat} (hk : k < n.bytes) :
    (storeValue n v).extractLsb' (8 * k) 8 = byteOfWord v k := by
  have hk4 : k < 4 := by cases n <;> simp only [AccessWidth.bytes] at hk <;> omega
  rw [← byteOfWord_setWidth _ hk4, byteOfWord_storeValue n v hk]

/-- Writing the bytes of a store's value puts the register's low bytes at the address and leaves every other byte. -/
theorem storesBytes_of_mem {a v : Word} {n : AccessWidth} {s t : State} (hm : s.mem.wf)
    (ht : t.mem = s.mem.writeBytes a.toNat (littleEndian n (storeValue n v))) : StoresBytes a n v s t := by
  intro b
  rw [ht, read_writeBytes_littleEndian hm]
  split
  · next hb => exact extract_storeValue n v (by omega)
  · rfl

/-- An instruction whose meaning is `storeFrom` stores the low bytes of its register, or aborts (rule R142). -/
theorem storesValue_of_storeFrom {i : Instr} {rs1 rs2 : RegIdx} {imm : Word} {n : AccessWidth}
    (h : ∀ s, exec i s = storeFrom n rs1 rs2 imm s) : StoresValue i rs1 rs2 imm n := by
  intro s
  rw [h s]
  refine ⟨fun ha hm => ?_, storeFrom_aborts n rs1 rs2 imm s⟩
  rcases storeFrom_cases n rs1 rs2 imm s with ⟨-, e⟩ | ⟨hr, -⟩
  · exact ⟨_, e, storesBytes_of_mem hm rfl, rfl, fun _ => rfl, keepsControl_refl s⟩
  · exact absurd ha (not_accepted_of_error hr)

/-! ### Accesses with base `x0` -/

theorem effectiveAddress_zero (imm : Word) (s : State) : effectiveAddress 0 imm s = imm := BitVec.zero_add imm

/-- No 12-bit immediate is the address of an accepted access: the window lies between the two halves of their range. -/
theorem not_accepted_of_fitsImm12 {imm : Word} (h : fitsImm12 imm = true) (k : AccessKind) (n : AccessWidth) :
    ¬ Accepted k imm n := by
  have himm := toNat_of_fitsImm12 h
  rw [accepted_iff, Config.windowLo, Config.windowHi]
  omega

/-- A load or store at an address that is a 12-bit immediate aborts at that address, with its access kind. -/
theorem exec_aborts_at_imm12 {i : Instr} {s : State} {p : AccessRequest} {imm : Word} {k : AccessKind}
    (hp : dataAccess i s = some p) (ha : p.addr = imm) (hk : p.kind = k) (h : fitsImm12 imm = true) :
    ∃ t, exec i s = .next t ∧ Aborts .outOfRangeAccess imm (some k) s t := by
  subst ha hk
  exact exec_aborts_of_rejected hp (not_accepted_of_fitsImm12 h p.kind p.width)

end Sys2Proof.Machine

open Sys2Proof Sys2Proof.Machine

/-- Settles O26: funct3 selects among the five, and each is `loadInto` with its own width and extension. -/
theorem loadsReadAndExtend : Obligations.LoadsReadAndExtend := by
  refine ⟨fun w h0 => ?decode, fun _ _ _ => ?effect⟩
  case decode =>
    rw [decode_of_load h0]
    and_intros <;> exact fun h3 => by simp [decodeLoad, h3]
  case effect =>
    exact ⟨loadsValue_of_loadInto (n := .byte) (·.signExtend 32) fun _ => rfl,
      loadsValue_of_loadInto (n := .half) (·.signExtend 32) fun _ => rfl,
      loadsValue_of_loadInto (n := .word) id fun _ => rfl,
      loadsValue_of_loadInto (n := .byte) (·.setWidth 32) fun _ => rfl,
      loadsValue_of_loadInto (n := .half) (·.setWidth 32) fun _ => rfl⟩

/-- Settles O27: funct3 selects among the three, and each is `storeFrom` with its own width. -/
theorem storesWriteTheirBytes : Obligations.StoresWriteTheirBytes := by
  refine ⟨fun w h0 => ?decode, fun _ _ _ => ?effect⟩
  case decode =>
    rw [decode_of_store h0]
    and_intros <;> exact fun h3 => by simp [decodeStore, h3]
  case effect => and_intros <;> exact storesValue_of_storeFrom fun _ => rfl

/-- Settles O29: with base `x0` the effective address is the immediate, and the validator rejects every one of them. -/
theorem absoluteAccessAborts : Obligations.AbsoluteAccessAborts := by
  intro s r imm h
  have hea := effectiveAddress_zero imm s
  simp only [List.forall_mem_cons, List.not_mem_nil, false_implies, implies_true, and_true]
  and_intros <;> exact exec_aborts_at_imm12 rfl hea rfl h

end

section
/-! PROOFS of the statements about FENCE, ECALL and EBREAK (rules R146 to R148): what their words decode to, and their
whole effect. -/

namespace Sys2Proof

theorem decode_of_miscMem {w : Word} (h0 : opcodeOf w = 0b0001111#7) : decode w = decodeMiscMem w := by simp [decode, h0]

theorem decode_ecallWord : decode Config.ecallWord = .ok .ecall := rfl

theorem decode_ebreakWord : decode Config.ebreakWord = .ok .ebreak := rfl

end Sys2Proof

namespace Sys2Proof.Machine

theorem pcResult_advance (s : State) : PcResult (s.cpu.pc + 4#32) s s.advance := pcResult_setPc s _

theorem ecall_aborts (s : State) :
    ∃ t, exec .ecall s = .next t ∧ Aborts .illegalInstruction Config.ecallWord none s t :=
  ⟨_, rfl, aborts_raise .illegalInstruction Config.ecallWord none s⟩

theorem ebreak_aborts (s : State) :
    ∃ t, exec .ebreak s = .next t ∧ Aborts .illegalInstruction Config.ebreakWord none s t :=
  ⟨_, rfl, aborts_raise .illegalInstruction Config.ebreakWord none s⟩

end Sys2Proof.Machine

open Sys2Proof Sys2Proof.Machine

/-- Settles O31: funct3 alone decides the decode, and the instruction's meaning is `advance` whatever its fields. -/
theorem fenceOnlyAdvances : Obligations.FenceOnlyAdvances := by
  refine ⟨fun w h0 => ?decode, fun _ _ _ _ _ s => ⟨s.advance, rfl, pcResult_advance s⟩⟩
  case decode =>
    rw [decode_of_miscMem h0]
    exact ⟨fun h3 => if_pos h3, fun h3 => ⟨_, decodeMiscMem_error_iff.mpr ⟨rfl, h3⟩⟩⟩

/-- Settles O32: both words decode, each instruction raises on its own word, and a fetched word that is not the halt
word is executed. -/
theorem ecallAndEbreakAbort : Obligations.EcallAndEbreakAbort := by
  refine ⟨decode_ecallWord, decode_ebreakWord, ecall_aborts, ebreak_aborts, fun s u w hmem hu hw => ?fetched⟩
  case fetched =>
    obtain rfl | rfl := List.mem_pair.mp hmem
    · rw [hu.step_eq_exec hw decode_ecallWord]
      exact ecall_aborts u
    · rw [hu.step_eq_exec hw decode_ebreakWord]
      exact ebreak_aborts u

end

section
/-! PROOFS of the statements about the CSR interception unit and the six CSR instructions (rules R153 to R162): what their
words decode to, and their whole effect in each mode. -/

namespace Sys2Proof

theorem decode_of_system {w : Word} (h0 : opcodeOf w = 0b1110011#7) : decode w = decodeSystem w := by simp [decode, h0]

end Sys2Proof

namespace Sys2Proof.Machine

/-! ### The interception unit -/

section
variable {s : State} (c : CsrIdx) (v : Word)

theorem csrRead_of_user (h : s.cpu.mode = .user) : csrRead c s = some 0#32 := by simp only [csrRead, h]

theorem csrRead_of_supervisor (h : s.cpu.mode = .supervisor) : csrRead c s = none := by simp only [csrRead, h]

theorem csrWrite_of_user (h : s.cpu.mode = .user) : csrWrite c v s = some s := by simp only [csrWrite, h]

theorem csrWrite_of_supervisor (h : s.cpu.mode = .supervisor) : csrWrite c v s = none := by simp only [csrWrite, h]

/-- In user mode the index and the value to be written have no effect (rule R153). -/
theorem csrOperation_of_user (w : Word) (rd : RegIdx) (f : Word → Word) (h : s.cpu.mode = .user) :
    csrOperation w rd c f s = .next (s.writeReg rd 0#32).advance := by
  rcases csrOperation_cases w rd c f s with ⟨-, e⟩ | ⟨hs, -⟩
  · exact e
  · simp [h] at hs

end

/-! ### The six instructions -/

/-- The meaning of every CSR instruction is `csrOperation` on its own word (rules R156 to R161). -/
theorem exec_eq_csrOperation {i : Instr} (s : State) (h : i.isCsr = true) :
    ∃ rd c f, exec i s = csrOperation (encode i) rd c f s := by
  cases i <;> cases h
  case csrrw | csrrs | csrrc | csrrwi | csrrsi | csrrci => exact ⟨_, _, _, rfl⟩

/-- An instruction whose meaning is `csrOperation` on its own word writes 0 in user mode and aborts in supervisor mode. -/
theorem csrStub_of_csrOperation {i : Instr} {rd : RegIdx} {c : CsrIdx} {f : State → Word → Word}
    (h : ∀ s, exec i s = csrOperation (encode i) rd c (f s) s) : CsrStub i rd := by
  intro s
  rw [h s]
  exact ⟨fun hu => ⟨_, csrOperation_of_user c _ rd _ hu, regResult_writeReg_advance s rd 0#32⟩,
    csrOperation_aborts _ rd c _⟩

theorem exec_aborts_of_isCsr {i : Instr} {s : State} (h : i.isCsr = true) (hm : s.cpu.mode = .supervisor) :
    ∃ t, exec i s = .next t ∧ Aborts .illegalCsrAccess (encode i) none s t := by
  obtain ⟨rd, c, f, e⟩ := exec_eq_csrOperation s h
  rw [e]
  exact csrOperation_aborts _ rd c f hm

/-- A user-mode CSR write without a destination changes no register, and leaves a state in user mode. -/
theorem csrOperation_zero_frame {w : Word} {c : CsrIdx} {f : Word → Word} {s t : State} (hu : s.cpu.mode = .user)
    (h : csrOperation w 0 c f s = .next t) : t.cpu.mode = .user ∧ SameRegs s t := by
  cases (csrOperation_of_user c w 0 f hu).symm.trans h
  exact ⟨hu, fun _ => rfl⟩

/-- A user-mode CSR instruction leaves 0 in its destination, whichever register that is. -/
theorem csrOperation_reads_zero (w : Word) (rd : RegIdx) (c : CsrIdx) (f : Word → Word) {s : State}
    (hu : s.cpu.mode = .user) : ∃ t, csrOperation w rd c f s = .next t ∧ t.readReg rd = 0#32 := by
  obtain ⟨hregs, -⟩ := regResult_writeReg_advance s rd 0#32
  refine ⟨_, csrOperation_of_user c w rd f hu, ?_⟩
  by_cases h0 : rd = 0
  · rw [h0, readReg_zero]
  · rw [hregs rd, if_pos ⟨rfl, h0⟩]

/-- The sum of `x0` and 0 that `addi rd, x0, 0` writes is the 0 a user-mode CSR instruction writes (rule R162). -/
theorem csrOperation_eq_addi (w : Word) (rd : RegIdx) (c : CsrIdx) (f : Word → Word) {s : State}
    (hu : s.cpu.mode = .user) : csrOperation w rd c f s = exec (.addi rd 0 0#32) s :=
  csrOperation_of_user c w rd f hu

theorem dataAccess_of_isCsr {i : Instr} (s : State) (h : i.isCsr = true) : dataAccess i s = none := by
  cases i <;> cases h
  case csrrw | csrrs | csrrc | csrrwi | csrrsi | csrrci => rfl

/-- A CSR instruction latches nothing in user mode and IllegalCsrAccess in supervisor mode, so an OutOfRangeAccess in the
latch stood there before. -/
theorem result_eq_of_isCsr {i : Instr} {s t : State} {info pc : Word} {a : Option AccessKind} (h : i.isCsr = true)
    (ht : exec i s = .next t) (hr : t.result = some (.aborted .outOfRangeAccess info pc a)) : t.result = s.result := by
  obtain ⟨rd, c, f, e⟩ := exec_eq_csrOperation s h
  rcases csrOperation_cases (encode i) rd c f s with ⟨-, e'⟩ | ⟨-, e'⟩
  · cases (e.trans e').symm.trans ht
    rfl
  · cases (e.trans e').symm.trans ht
    cases hr

end Sys2Proof.Machine

open Sys2Proof Sys2Proof.Machine

/-- Settles O33: funct3 selects among the six, and each is `csrOperation` on its own word. -/
theorem csrInstructionsAreStubs : Obligations.CsrInstructionsAreStubs := by
  refine ⟨fun w h0 => ?decode, fun _ _ _ _ => ?effect⟩
  case decode =>
    rw [decode_of_system h0]
    and_intros <;> exact fun h3 => by simp [decodeSystem, h3]
  case effect => and_intros <;> exact csrStub_of_csrOperation fun _ => rfl

/-- Settles O34: the unit looks at the mode alone, and the word a CSR instruction reports is the word it was decoded
from. -/
theorem csrUnitFollowsTheMode : Obligations.CsrUnitFollowsTheMode := by
  refine ⟨fun c v s => ⟨fun hu => ⟨csrRead_of_user c hu, csrWrite_of_user c v hu⟩,
    fun hs => ⟨csrRead_of_supervisor c hs, csrWrite_of_supervisor c v hs⟩⟩, fun w i s hd hi hs => ?abort⟩
  case abort =>
    rw [← encode_of_decode hd]
    exact exec_aborts_of_isCsr hi hs

/-- Settles O35: the write leaves the registers and the mode, so the read that follows it is a user-mode read; each of the
six writes what the `addi` writes. -/
theorem csrWriteThenReadYieldsZero : Obligations.CsrWriteThenReadYieldsZero := by
  refine ⟨fun c rs1 rd s t hu ht => ?writeThenRead, fun _ _ => exec_aborts_of_isCsr, fun rd rs1 c uimm s hu => ?asAddi,
    fun i s t hi ht => ⟨dataAccess_of_isCsr s hi, fun _ _ _ => result_eq_of_isCsr hi ht⟩⟩
  case writeThenRead =>
    obtain ⟨hut, hregs⟩ := csrOperation_zero_frame hu ht
    obtain ⟨u, e, hzero⟩ := csrOperation_reads_zero _ rd c _ hut
    exact ⟨u, e, hzero, hregs⟩
  case asAddi =>
    simp only [List.forall_mem_cons, List.not_mem_nil, false_implies, implies_true, and_true]
    and_intros <;> exact csrOperation_eq_addi _ rd c _ hu

end

section
/-! PROOFS of the statements about how a run ends (rules R170 to R180, R187): what raises each fault kind, what an abort
leaves, and which transitions lead from Running to Halted and to Aborted. -/

namespace Sys2Proof.Machine

/-! ### What the parts of a step from the fetch on raise -/

/-- An abort is the state `raise` makes, and no other. -/
theorem aborts_iff {k : FaultKind} {info : Word} {a : Option AccessKind} {s t : State} :
    Aborts k info a s t ↔ t = raise k info a s := by
  refine ⟨fun ⟨hst, hr, hc, hm, hb, hsh, hi⟩ => ?_, ?_⟩
  · cases t
    cases hst; cases hr; cases hc; cases hm; cases hb; cases hsh; cases hi
    rfl
  · rintro rfl
    exact aborts_raise k info a s

theorem exists_next_and_aborts_iff {o : Host.Outcome State Fault Refusal} {k : FaultKind} {info : Word}
    {a : Option AccessKind} {s : State} :
    (∃ t, o = .next t ∧ Aborts k info a s t) ↔ o = .next (raise k info a s) := by
  simp only [aborts_iff, exists_eq_right]

/-- The fault an instruction raises: its kind, its info and its access kind (rules R171, R172, R173). -/
inductive InstrRaises (s : State) : Instr → FaultKind → Word → Option AccessKind → Prop where
  | ecall : InstrRaises s .ecall .illegalInstruction Config.ecallWord none
  | ebreak : InstrRaises s .ebreak .illegalInstruction Config.ebreakWord none
  | csr {i : Instr} (hi : i.isCsr = true) (hm : s.cpu.mode = .supervisor) :
      InstrRaises s i .illegalCsrAccess (encode i) none
  | access {i : Instr} {p : AccessRequest} (hp : dataAccess i s = some p) (ha : ¬ Accepted p.kind p.addr p.width) :
      InstrRaises s i .outOfRangeAccess p.addr (some p.kind)

/-- The fault the parts of a step from the fetch on raise (rule R180). -/
inductive FetchRaises (u : State) : FaultKind → Word → Option AccessKind → Prop where
  | fetch (h : ¬ Accepted .fetch u.cpu.pc .word) : FetchRaises u .outOfRangeAccess u.cpu.pc (some .fetch)
  | illegal {w : Word} {e : Illegal} (hf : fetchWord u = .ok w) (hw : w ≠ u.inputs.haltWord)
      (hd : decode w = .error e) : FetchRaises u .illegalInstruction w none
  | instr {w : Word} {i : Instr} {k : FaultKind} {info : Word} {a : Option AccessKind} (hf : fetchWord u = .ok w)
      (hw : w ≠ u.inputs.haltWord) (hd : decode w = .ok i) (h : InstrRaises u i k info a) : FetchRaises u k info a

section
variable {u : State} {k : FaultKind} {info : Word} {a : Option AccessKind}

/-- `Raises` names the instructions and states in which some fault is raised. -/
theorem raises_iff {i : Instr} : Raises i u ↔ ∃ k info a, InstrRaises u i k info a := by
  constructor
  · rintro (rfl | rfl | ⟨hi, hm⟩ | ⟨p, hp, ha⟩)
    · exact ⟨_, _, _, .ecall⟩
    · exact ⟨_, _, _, .ebreak⟩
    · exact ⟨_, _, _, .csr hi hm⟩
    · exact ⟨_, _, _, .access hp ha⟩
  · rintro ⟨_, _, _, h⟩
    cases h with
    | ecall => exact .inl rfl
    | ebreak => exact .inr (.inl rfl)
    | csr hi hm => exact .inr (.inr (.inl ⟨hi, hm⟩))
    | access hp ha => exact .inr (.inr (.inr ⟨_, hp, ha⟩))

/-- `RaisesFrom` names the states from whose fetch on some fault is raised. -/
theorem raisesFrom_iff : RaisesFrom u ↔ ∃ k info a, FetchRaises u k info a := by
  constructor
  · rintro (h | ⟨w, hf, hw, ⟨e, hd⟩ | ⟨i, hd, hi⟩⟩)
    · exact ⟨_, _, _, .fetch h⟩
    · exact ⟨_, _, _, .illegal hf hw hd⟩
    · obtain ⟨k, info, a, h⟩ := raises_iff.mp hi
      exact ⟨k, info, a, .instr hf hw hd h⟩
  · rintro ⟨_, _, _, h⟩
    cases h with
    | fetch h => exact .inl h
    | illegal hf hw hd => exact .inr ⟨_, hf, hw, .inl ⟨_, hd⟩⟩
    | instr hf hw hd h => exact .inr ⟨_, hf, hw, .inr ⟨_, hd, raises_iff.mpr ⟨_, _, _, h⟩⟩⟩

theorem InstrRaises.exec_eq {i : Instr} (h : InstrRaises u i k info a) : exec i u = .next (raise k info a u) := by
  cases h with
  | ecall => rfl
  | ebreak => rfl
  | csr hi hm => exact exists_next_and_aborts_iff.mp (exec_aborts_of_isCsr hi hm)
  | access hp ha => exact exists_next_and_aborts_iff.mp (exec_aborts_of_rejected hp ha)

theorem fetchExecute_of_fetchWord {w : Word} (hf : fetchWord u = .ok w) : fetchExecute u = executeWord w u := by
  simp only [fetchExecute, hf]

theorem executeWord_of_error {w : Word} {e : Illegal} (hw : w ≠ u.inputs.haltWord) (hd : decode w = .error e) :
    executeWord w u = .next (raise .illegalInstruction w none u) := by
  simp only [executeWord, if_neg hw, hd]

theorem executeWord_of_ok {w : Word} {i : Instr} (hw : w ≠ u.inputs.haltWord) (hd : decode w = .ok i) :
    executeWord w u = exec i u := by
  simp only [executeWord, if_neg hw, hd]

theorem FetchRaises.fetchExecute_eq (h : FetchRaises u k info a) : fetchExecute u = .next (raise k info a u) := by
  cases h with
  | fetch h => exact exists_next_and_aborts_iff.mp (fetchExecute_aborts_of_rejected h)
  | illegal hf hw hd => rw [fetchExecute_of_fetchWord hf, executeWord_of_error hw hd]
  | instr hf hw hd h => rw [fetchExecute_of_fetchWord hf, executeWord_of_ok hw hd, h.exec_eq]

/-! ### The three ends of the parts from the fetch on -/

/-- How the parts of a step from the fetch on end, each with its cause: the halt word was fetched, a fault was raised,
or an instruction completed and the run goes on. -/
theorem fetchExecute_ends (u : State) :
    (fetchWord u = .ok u.inputs.haltWord ∧ fetchExecute u = .next (halt u)) ∨
    (∃ k info a, FetchRaises u k info a) ∨
    (∃ t, fetchExecute u = .next t ∧ Completed u t) := by
  rcases fetchExecute_cases u with ⟨hr, -⟩ | ⟨w, -, hf, ⟨rfl, e⟩ | ⟨hw, ⟨x, hd⟩, -⟩ | ⟨hw, i, hd, e⟩⟩
  · exact .inr (.inl ⟨_, _, _, .fetch (not_accepted_of_error hr)⟩)
  · exact .inl ⟨hf, e⟩
  · exact .inr (.inl ⟨_, _, _, .illegal hf hw hd⟩)
  · by_cases hi : Raises i u
    · obtain ⟨k, info, a, h⟩ := raises_iff.mp hi
      exact .inr (.inl ⟨k, info, a, .instr hf hw hd h⟩)
    · have he := exec_effect i u
      rw [← e] at he
      generalize fetchExecute u = o at he ⊢
      cases he with
      | completes _ hc => exact .inr (.inr ⟨_, rfl, hc⟩)
      | aborts _ _ _ hr _ => exact absurd hr hi

theorem Completed.status_running {s t : State} (h : Completed s t) (hs : s.status = .running) :
    t.status = .running := by
  obtain ⟨-, hst, -⟩ := h.control
  exact hst.trans hs

/-- From the fetch on the run halts exactly when the word fetched is the halt word, and aborts exactly when a fault is
raised (rule R175). -/
theorem fetchExecute_status_iff {t : State} (hs : u.status = .running) (h : fetchExecute u = .next t) :
    (t.status = .halted ↔ fetchWord u = .ok u.inputs.haltWord) ∧ (t.status = .aborted ↔ RaisesFrom u) := by
  have hhalt (hf : fetchWord u = .ok u.inputs.haltWord) : t = halt u := by
    rw [fetchExecute_of_fetchWord hf, executeWord_haltWord] at h
    cases h
    rfl
  have habort (hr : RaisesFrom u) : t.status = .aborted := by
    obtain ⟨k, info, a, hk⟩ := raisesFrom_iff.mp hr
    cases hk.fetchExecute_eq.symm.trans h
    rfl
  refine ⟨⟨fun ht => ?_, fun hf => by rw [hhalt hf, halt_status]⟩, ⟨fun ht => ?_, habort⟩⟩ <;>
    rcases fetchExecute_ends u with ⟨hf, -⟩ | hr | ⟨t', e, hc⟩
  · exact hf
  · simp [habort (raisesFrom_iff.mpr hr)] at ht
  · cases e.symm.trans h
    simp [hc.status_running hs] at ht
  · simp [hhalt hf] at ht
  · exact raisesFrom_iff.mpr hr
  · cases e.symm.trans h
    simp [hc.status_running hs] at ht

/-- From the fetch on a running nucleus ends in an abort exactly when that very fault is raised. -/
theorem fetchExecute_eq_raise_iff (hs : u.status = .running) :
    fetchExecute u = .next (raise k info a u) ↔ FetchRaises u k info a := by
  refine ⟨fun h => ?_, FetchRaises.fetchExecute_eq⟩
  obtain ⟨k', info', a', hk⟩ := raisesFrom_iff.mp ((fetchExecute_status_iff hs h).2.mp rfl)
  have hraise : raise k' info' a' u = raise k info a u := by
    cases hk.fetchExecute_eq.symm.trans h
    rfl
  cases congrArg State.result hraise
  exact hk

/-- A transition that reaches its fetch aborts exactly with the faults that are raised from there on. -/
theorem ReachesFetch.aborts_iff {s : State} (hu : ReachesFetch s u) :
    (∃ t, step s = .next t ∧ Aborts k info a u t) ↔ FetchRaises u k info a := by
  rw [exists_next_and_aborts_iff, hu.step_eq, fetchExecute_eq_raise_iff hu.atFetch.status]

theorem eq_of_fetchWord {w w' : Word} (h : fetchWord u = .ok w) (h' : fetchWord u = .ok w') : w = w' :=
  Except.ok.inj (h.symm.trans h')

end

/-! ### Transitions that end at the boundary, and transitions that end the run -/

theorem step_of_boundary_ends {s t : State} (hs : s.status = .running) (h : boundary s = .ends t) :
    step s = .next t := by
  rw [step_running hs, runningStep, h]

theorem memoryPort_of_boundary_ends {s t : State} (hs : s.status = .running) (h : boundary s = .ends t) :
    memoryPort s = [] := by
  simp only [memoryPort, hs, h]

/-- An abort asserted at the head of a step is taken before the poll (rule R187). -/
theorem boundary_of_abortReq {s : State} {a : AbortRequest} (hb : s.bridge = .idle) (ha : s.sample.abortReq = some a) :
    boundary s = .ends (raise a.kind a.info none s.afterSample) := by
  rw [boundary_idle hb, headOfStep, ha]

/-- A transition that ends a run takes an injected abort, or it reaches its fetch. -/
theorem ending_cases {s t : State} (hs : s.status = .running) (h : step s = .next t) (ht : t.status ≠ .running) :
    (∃ a, s.bridge = .idle ∧ s.sample.abortReq = some a ∧ t = raise a.kind a.info none s.afterSample) ∨
    ∃ u, ReachesFetch s u := by
  rcases running_cases hs with ⟨a, hb, ha, e⟩ | ⟨-, e⟩ | ⟨u, hu, -, e⟩ | hu
  · cases e.symm.trans h
    exact .inl ⟨a, hb, ha, rfl⟩
  · cases e.symm.trans h
    exact absurd hs ht
  · have hst : u.status = .running := by
      rcases hu with ⟨-, hu⟩ | ⟨-, hu⟩ <;> exact hu.status.trans hs
    cases e.symm.trans h
    exact absurd hst ht
  · exact .inr hu

theorem halted_iff_fetches_haltWord {s t : State} (hs : s.status = .running) (h : step s = .next t) :
    t.status = .halted ↔ ∃ u, Fetches s u u.inputs.haltWord := by
  refine ⟨fun ht => ?_, fun ⟨u, hu⟩ => ?_⟩
  · rcases ending_cases hs h (by simp [ht]) with ⟨a, -, -, rfl⟩ | ⟨u, hu⟩
    · simp at ht
    · exact ⟨u, hu, (fetchExecute_status_iff hu.atFetch.status (hu.step_eq ▸ h)).1.mp ht⟩
  · cases (hu.step_eq.trans (executeWord_haltWord u)).symm.trans h
    rfl

theorem aborted_iff_abortCause {s t : State} (hs : s.status = .running) (h : step s = .next t) :
    t.status = .aborted ↔ AbortCause s := by
  have status_iff {u : State} (hu : ReachesFetch s u) : t.status = .aborted ↔ RaisesFrom u :=
    (fetchExecute_status_iff hu.atFetch.status (hu.step_eq ▸ h)).2
  constructor
  · intro ht
    rcases ending_cases hs h (by simp [ht]) with ⟨a, hb, ha, -⟩ | ⟨u, hu⟩
    · exact .inl ⟨hb, by simp [ha]⟩
    · exact .inr ⟨u, hu, (status_iff hu).mp ht⟩
  · rintro (⟨hb, ha⟩ | ⟨u, hu, hr⟩)
    · obtain ⟨a, ha⟩ := Option.ne_none_iff_exists'.mp ha
      cases (step_of_boundary_ends hs (boundary_of_abortReq hb ha)).symm.trans h
      rfl
    · exact (status_iff hu).mpr hr

/-! ### Terminal states -/

/-- With no load event to come a terminal state stays (rule R178). -/
theorem step_terminal_of_no_loads {s : State} (hs : s.status ≠ .running) (hl : s.inputs.loads = []) :
    step s = .next s := by
  rw [step_terminal hs, terminalStep, hl]

theorem run_terminal_of_no_loads {s : State} (hs : s.status ≠ .running) (hl : s.inputs.loads = []) (k : Nat) :
    core.run k s = .next s := by
  induction k with
  | zero => rfl
  | succ k ih => rw [core_run_succ k (step_terminal_of_no_loads hs hl), ih]

theorem step_terminal_of_load {s : State} {l : Launch} {rest : List Launch} (hs : s.status ≠ .running)
    (hl : s.inputs.loads = l :: rest) :
    step s = .next (loadEvent l { s with inputs := { s.inputs with loads := rest } }) := by
  rw [step_terminal hs, terminalStep, hl]

theorem memoryPort_terminal {s : State} (hs : s.status ≠ .running) : memoryPort s = [] := by
  cases h : s.status with
  | running => exact absurd h hs
  | halted | aborted => simp only [memoryPort, h]

end Sys2Proof.Machine

open Sys2Proof Sys2Proof.Machine

/-- Settles O42: a run is ended by an injected abort or from the fetch on, where `fetchExecute_status_iff` tells which;
a terminal state stays or takes its load event. -/
theorem runStatusTransitions : Obligations.RunStatusTransitions :=
  ⟨fun _ _ hs h => ⟨halted_iff_fetches_haltWord hs h, aborted_iff_abortCause hs h⟩,
    fun _ => step_terminal_of_no_loads, fun _ _ _ hs hl => ⟨_, step_terminal_of_load hs hl, rfl⟩, fun _ _ => rfl⟩

/-- Settles O36: of the faults raised from the fetch on, those of this kind are the decoder's and those of the two
words. -/
theorem illegalInstructionCauses : Obligations.IllegalInstructionCauses := by
  refine ⟨rfl, fun s u w hu hw => hu.1.aborts_iff.trans ⟨fun h => ?causes, ?raised⟩⟩
  case causes =>
    cases h with
    | illegal _ _ hd => exact .inl ⟨_, hd⟩
    | instr _ _ _ h =>
      cases h with
      | ecall => exact .inr (.inl rfl)
      | ebreak => exact .inr (.inr rfl)
  case raised =>
    rintro (⟨e, hd⟩ | rfl | rfl)
    · exact .illegal hu.2 hw hd
    · exact .instr hu.2 hw decode_ecallWord .ecall
    · exact .instr hu.2 hw decode_ebreakWord .ebreak

/-- Settles O37: of the faults raised from the fetch on, those of this kind are the CSR unit's, and the word they report
is the word fetched. -/
theorem illegalCsrAccessCauses : Obligations.IllegalCsrAccessCauses := by
  refine ⟨rfl, fun s u w hu hw => hu.1.aborts_iff.trans ⟨fun h => ?causes, fun ⟨hm, i, hd, hi⟩ => ?raised⟩⟩
  case causes =>
    cases h with
    | instr hf _ hd h =>
      cases h with
      | csr hi hm => exact ⟨hm, _, eq_of_fetchWord hf hu.2 ▸ hd, hi⟩
  case raised =>
    have hraise : InstrRaises u i .illegalCsrAccess w none := encode_of_decode hd ▸ .csr hi hm
    exact .instr hu.2 hw hd hraise

/-- Settles O38: of the faults raised from the fetch on, those of this kind are the validator's. -/
theorem outOfRangeAccessCauses : Obligations.OutOfRangeAccessCauses := by
  refine ⟨rfl, fun s u addr k hu => hu.aborts_iff.trans ⟨fun h => ?causes, ?raised⟩⟩
  case causes =>
    cases h with
    | fetch h => exact .inl ⟨h, rfl, rfl⟩
    | instr hf hw hd h =>
      cases h with
      | access hp ha => exact .inr ⟨_, _, _, hf, hw, hd, hp, ha, rfl, rfl⟩
  case raised =>
    rintro (⟨h, rfl, rfl⟩ | ⟨w, i, p, hf, hw, hd, hp, ha, rfl, rfl⟩)
    · exact .fetch h
    · exact .instr hf hw hd (.access hp ha)

/-- Settles O41: `raise` writes the status and the latch alone, and the state at the fetch has the Guest CPU State and
the memory the transition began with. -/
theorem abortsArePrecise : Obligations.AbortsArePrecise := by
  intro s t hi hs h ht
  rcases ending_cases hs h (by simp [ht]) with ⟨a, hb, ha, rfl⟩ | ⟨u, hu⟩
  · exact ⟨a.kind, a.info, none, rfl, rfl, rfl, hb, by simp [hb, ha]⟩
  · have hf := hu.atFetch
    have hcpu := hu.cpu_eq hi
    cases hu.effect h with
    | halts => simp at ht
    | completes hc => simp [hc.status_running hf.status] at ht
    | aborts k info a hk =>
      refine ⟨k, info, a, by rw [raise_result, hcpu], hcpu, hf.mem, hf.bridge, ?_⟩
      rw [or_iff_left hf.no_abort]
      exact not_iff_not.mp (by simpa using hk)

/-- Settles O43: a terminal state is a fixed point of the step, and only a running nucleus drives the port. -/
theorem terminalStatesAreFinal : Obligations.TerminalStatesAreFinal :=
  fun _ hs => ⟨memoryPort_terminal hs, run_terminal_of_no_loads hs⟩

/-- Settles O45: the boundary takes the injected abort first and ends the transition there. -/
theorem injectedAbortEndsTheRun : Obligations.InjectedAbortEndsTheRun := by
  intro s a hs hb ha
  have hends := boundary_of_abortReq hb ha
  exact ⟨memoryPort_of_boundary_ends hs hends, _, step_of_boundary_ends hs hends, rfl, rfl, rfl, rfl, hb, rfl⟩

end

section
/-! PROOFS of the statements about what an instruction, a transition and a run do not depend on: the mode, but for the
CSR instructions (rule R188), and the delegations at the boundaries, whose handshake comes first (rules R183 to R186). -/

namespace Sys2Proof.Machine

/-! ### The handshake -/

theorem boundary_polls_of_idle {s : State} (hb : s.bridge = .idle) (ha : s.sample.abortReq = none) :
    boundary s = poll s.sample s.afterSample := by
  rw [boundary_idle hb, headOfStep, ha]

theorem boundary_polls_of_delegDone {s : State} (hb : s.bridge = .delegating) (hd : s.sample.delegDone = true) :
    boundary s = poll s.sample (restore s.afterSample) := by
  rw [boundary_delegating hb, handlerOut, if_pos hd]

theorem boundary_waits {s : State} (hb : s.bridge = .delegating) (hd : s.sample.delegDone = false) :
    boundary s = .ends s.afterSample := by
  rw [boundary_delegating hb, handlerOut, hd]
  rfl

theorem poll_of_handlerOut {b : Boundary} {s : State} (hb : s.bridge = .idle) (ho : b.handlerOut = true) :
    ∃ u, OnlyShadow s u ∧ poll b s = .ends (capture u) :=
  ⟨_, delegateTimes_onlyShadow b.delegations hb, if_pos ho⟩

theorem poll_of_not_handlerOut {b : Boundary} (s : State) (ho : b.handlerOut = false) :
    poll b s = .fetches (delegateTimes b.delegations s) := by
  rw [poll, ho]
  rfl

/-! ### Changes of the state that instructions do not see -/

/-- A change of the state that touches nothing the named operations read and that each of them carries along. -/
structure Unseen (f : State → State) : Prop where
  readReg_eq (s : State) (r : RegIdx) : (f s).readReg r = s.readReg r
  pc_eq (s : State) : (f s).cpu.pc = s.cpu.pc
  mem_eq (s : State) : (f s).mem = s.mem
  writeReg_comm (s : State) (r : RegIdx) (v : Word) : (f s).writeReg r v = f (s.writeReg r v)
  setPc_comm (s : State) (t : Word) : (f s).setPc t = f (s.setPc t)
  setMem_comm (s : State) (m : Memory) : (f s).setMem m = f (s.setMem m)
  raise_comm (s : State) (k : FaultKind) (info : Word) (a : Option AccessKind) :
    raise k info a (f s) = f (raise k info a s)

/-- Two outcomes that both give a next state, the second the change of the first. -/
inductive Carried (f : State → State) :
    Host.Outcome State Fault Refusal → Host.Outcome State Fault Refusal → Prop where
  | next (t : State) : Carried f (.next t) (.next (f t))

theorem Carried.exists_next {f : State → State} {o o' : Host.Outcome State Fault Refusal} (h : Carried f o o') :
    ∃ t, o = .next t ∧ o' = .next (f t) := by
  cases h with
  | next t => exact ⟨t, rfl, rfl⟩

section
variable {f : State → State} (hf : Unseen f) (s : State)
include hf

theorem Unseen.advance_comm : (f s).advance = f s.advance := by
  simp only [State.advance, nextPc_eq, hf.pc_eq, hf.setPc_comm]

theorem Unseen.effectiveAddress_eq (rs1 : RegIdx) (imm : Word) :
    effectiveAddress rs1 imm (f s) = effectiveAddress rs1 imm s := by
  simp only [effectiveAddress, hf.readReg_eq]

theorem Unseen.branchPc_eq (c : Cond) (rs1 rs2 : RegIdx) (imm : Word) :
    branchPc c rs1 rs2 imm (f s) = branchPc c rs1 rs2 imm s := by
  simp only [branchPc, pcRelative, nextPc_eq, hf.readReg_eq, hf.pc_eq]

theorem Unseen.carried_raise (k : FaultKind) (info : Word) (a : Option AccessKind) :
    Carried f (.next (raise k info a s)) (.next (raise k info a (f s))) :=
  hf.raise_comm s k info a ▸ .next _

theorem Unseen.carried_writeResult (rd : RegIdx) {v v' : Word} (hv : v' = v) :
    Carried f (writeResult rd v s) (writeResult rd v' (f s)) := by
  rw [hv, writeResult, writeResult, hf.writeReg_comm, hf.advance_comm]
  exact .next _

theorem Unseen.carried_jumpAndLink (rd : RegIdx) {target target' : Word} (ht : target' = target) :
    Carried f (jumpAndLink rd target s) (jumpAndLink rd target' (f s)) := by
  rw [ht, jumpAndLink, jumpAndLink, nextPc_eq, nextPc_eq, hf.pc_eq, hf.writeReg_comm, hf.setPc_comm]
  exact .next _

theorem Unseen.carried_branchOn (c : Cond) (rs1 rs2 : RegIdx) (imm : Word) :
    Carried f (branchOn c rs1 rs2 imm s) (branchOn c rs1 rs2 imm (f s)) := by
  rw [branchOn, branchOn, hf.branchPc_eq, hf.setPc_comm]
  exact .next _

theorem Unseen.carried_loadInto (n : AccessWidth) (ext : BitVec n.bits → Word) (rd rs1 : RegIdx) (imm : Word) :
    Carried f (loadInto n ext rd rs1 imm s) (loadInto n ext rd rs1 imm (f s)) := by
  unfold loadInto
  rw [hf.effectiveAddress_eq, memRead_congr_mem (hf.mem_eq s)]
  split
  · exact hf.carried_writeResult s rd rfl
  · exact hf.carried_raise s _ _ _

theorem Unseen.carried_storeFrom (n : AccessWidth) (rs1 rs2 : RegIdx) (imm : Word) :
    Carried f (storeFrom n rs1 rs2 imm s) (storeFrom n rs1 rs2 imm (f s)) := by
  unfold storeFrom
  rw [hf.effectiveAddress_eq, hf.readReg_eq]
  by_cases ha : Accepted .store (effectiveAddress rs1 imm s) n
  · rw [memWrite_of_accepted ha, memWrite_of_accepted ha, hf.mem_eq, hf.setMem_comm]
    simp only [hf.advance_comm]
    exact .next _
  · rw [memWrite_of_rejected ha, memWrite_of_rejected ha]
    exact hf.carried_raise s _ _ _

/-- A CSR instruction sees the mode, and of the value it would write nothing (rules R153 to R155). -/
theorem Unseen.carried_csrOperation (w : Word) (rd : RegIdx) (c : CsrIdx) (g g' : Word → Word)
    (hm : (f s).cpu.mode = s.cpu.mode) : Carried f (csrOperation w rd c g s) (csrOperation w rd c g' (f s)) := by
  rcases csrOperation_cases w rd c g s with ⟨hu, e⟩ | ⟨hu, e⟩ <;>
    rcases csrOperation_cases w rd c g' (f s) with ⟨hu', e'⟩ | ⟨hu', e'⟩
  · rw [e, e']
    exact hf.carried_writeResult s rd rfl
  · cases hu.symm.trans (hm.symm.trans hu')
  · cases hu.symm.trans (hm.symm.trans hu')
  · rw [e, e']
    exact hf.carried_raise s _ _ _

/-- No instruction sees an unseen change, provided the mode is kept where the instruction is a CSR instruction. -/
theorem Unseen.carried_exec (i : Instr) (hm : i.isCsr = true → (f s).cpu.mode = s.cpu.mode) :
    Carried f (exec i s) (exec i (f s)) := by
  have hr := hf.readReg_eq s
  have hpc := hf.pc_eq s
  cases i
  case lui | auipc | addi | slti | sltiu | xori | ori | andi | slli | srli | srai | add | sub | sll | slt | sltu | xor
      | srl | sra | or | and => exact hf.carried_writeResult s _ (by simp only [pcRelative, hr, hpc])
  case jal | jalr => exact hf.carried_jumpAndLink s _ (by simp only [pcRelative, jalrTarget, hr, hpc])
  case beq | bne | blt | bge | bltu | bgeu => exact hf.carried_branchOn s _ _ _ _
  case lb | lh | lw | lbu | lhu => exact hf.carried_loadInto s _ _ _ _ _
  case sb | sh | sw => exact hf.carried_storeFrom s _ _ _ _
  case fence =>
    rw [exec, exec, execFence, execFence, hf.advance_comm]
    exact .next _
  case ecall | ebreak => exact hf.carried_raise s _ _ _
  case csrrw | csrrs | csrrc | csrrwi | csrrsi | csrrci => exact hf.carried_csrOperation s _ _ _ _ _ (hm rfl)

end

/-! ### The mode -/

theorem setReg_withMode (c : GuestCpu) (m : Mode) (r : RegIdx) (v : Word) :
    GuestCpu.setReg { c with mode := m } r v = { c.setReg r v with mode := m } := by
  unfold GuestCpu.setReg
  split <;> rfl

theorem unseen_withMode (m : Mode) : Unseen (·.withMode m) where
  readReg_eq _ _ := rfl
  pc_eq _ := rfl
  mem_eq _ := rfl
  writeReg_comm s r v := congrArg (fun c => { s with cpu := c }) (setReg_withMode s.cpu m r v)
  setPc_comm _ _ := rfl
  setMem_comm _ _ := rfl
  raise_comm _ _ _ _ := rfl

/-! ### Delegations -/

/-- The state with another shadow and other samples to come: what a delegation may change, and what may ask for one. -/
def State.withDelegations (s : State) (sh : GuestCpu) (bs : List Boundary) : State :=
  { s.withBoundaries bs with shadow := sh }

theorem unseen_withDelegations (sh : GuestCpu) (bs : List Boundary) : Unseen (·.withDelegations sh bs) where
  readReg_eq _ _ := rfl
  pc_eq _ := rfl
  mem_eq _ := rfl
  writeReg_comm _ _ _ := rfl
  setPc_comm _ _ := rfl
  setMem_comm _ _ := rfl
  raise_comm _ _ _ _ := rfl

theorem carried_executeWord (w : Word) (s : State) (sh : GuestCpu) (bs : List Boundary) :
    Carried (·.withDelegations sh bs) (executeWord w s) (executeWord w (s.withDelegations sh bs)) := by
  have hunseen := unseen_withDelegations sh bs
  by_cases hw : w = s.inputs.haltWord
  · rw [executeWord, executeWord, if_pos hw, if_pos (show w = (s.withDelegations sh bs).inputs.haltWord from hw)]
    exact .next (halt s)
  · have hw' : w ≠ (s.withDelegations sh bs).inputs.haltWord := hw
    cases hd : decode w with
    | error e =>
      rw [executeWord_of_error hw hd, executeWord_of_error hw' hd]
      exact hunseen.carried_raise s _ _ _
    | ok i =>
      rw [executeWord_of_ok hw hd, executeWord_of_ok hw' hd]
      exact hunseen.carried_exec s i fun _ => rfl

theorem carried_fetchExecute (s : State) (sh : GuestCpu) (bs : List Boundary) :
    Carried (·.withDelegations sh bs) (fetchExecute s) (fetchExecute (s.withDelegations sh bs)) := by
  have hfetch : fetchWord (s.withDelegations sh bs) = fetchWord s := rfl
  unfold fetchExecute
  rw [hfetch]
  split
  · exact carried_executeWord _ s sh bs
  · exact (unseen_withDelegations sh bs).carried_raise s _ _ _

theorem terminalStep_withDelegations (s : State) (sh : GuestCpu) (bs : List Boundary) :
    terminalStep (s.withDelegations sh bs) = (terminalStep s).withDelegations sh bs := by
  have hloads : (s.withDelegations sh bs).inputs.loads = s.inputs.loads := rfl
  unfold terminalStep
  rw [hloads]
  split <;> rfl

theorem OnlyDelegates.tail {bs : List Boundary} (h : OnlyDelegates bs) : OnlyDelegates bs.tail :=
  fun b hb => h b (List.mem_of_mem_tail hb)

theorem OnlyDelegates.sample {s : State} (h : OnlyDelegates s.inputs.boundaries) :
    s.sample.abortReq = none ∧ s.sample.handlerOut = false := by
  unfold State.sample
  cases hb : s.inputs.boundaries with
  | nil => exact ⟨rfl, rfl⟩
  | cons b bs => exact h b (by simp [hb])

/-- A boundary that only delegates goes on to the fetch, with the shadow written and the sample used up (rule R185). -/
theorem boundary_of_onlyDelegates {s : State} (hb : s.bridge = .idle) (h : OnlyDelegates s.inputs.boundaries) :
    ∃ sh, boundary s = .fetches (s.withDelegations sh s.inputs.boundaries.tail) := by
  obtain ⟨ha, ho⟩ := h.sample
  have hidle : s.afterSample.bridge = .idle := hb
  rw [boundary_polls_of_idle hb ha, poll_of_not_handlerOut _ ho, delegateTimes_eq _ hidle]
  split
  · exact ⟨s.shadow, rfl⟩
  · exact ⟨s.cpu, rfl⟩

theorem FetchEffect.bridge {u t : State} (h : FetchEffect u t) : t.bridge = u.bridge := by
  cases h with
  | halts => rfl
  | aborts => rfl
  | completes hc =>
    obtain ⟨-, -, -, hb, -⟩ := hc.control
    exact hb

theorem terminalStep_bridge {s : State} (hb : s.bridge = .idle) : (terminalStep s).bridge = .idle := by
  unfold terminalStep
  split
  · exact hb
  · rfl

/-- The transition from a state with an idle bridge is the same, but for the shadow and the samples used up, whatever
delegations its boundary has. -/
theorem step_of_onlyDelegates {s : State} (hb : s.bridge = .idle) : ∃ t : State, t.bridge = .idle ∧
    ∀ sh bs, OnlyDelegates bs → ∃ sh' bs', OnlyDelegates bs' ∧
      step (s.withDelegations sh bs) = .next (t.withDelegations sh' bs') := by
  by_cases hs : s.status = .running
  · obtain ⟨t, ht⟩ := fetchExecute_answers_next s
    refine ⟨t, (fetchExecute_effect ht).bridge.trans hb, fun sh bs h => ?_⟩
    obtain ⟨sh', hfetch⟩ := boundary_of_onlyDelegates (s := s.withDelegations sh bs) hb h
    have hreach : ReachesFetch (s.withDelegations sh bs) (s.withDelegations sh' bs.tail) := ⟨hs, hfetch⟩
    obtain ⟨t', ht', e⟩ := (carried_fetchExecute s sh' bs.tail).exists_next
    cases ht.symm.trans ht'
    exact ⟨sh', bs.tail, h.tail, hreach.step_eq.trans e⟩
  · refine ⟨terminalStep s, terminalStep_bridge hb, fun sh bs h => ⟨sh, bs, h, ?_⟩⟩
    rw [step_terminal (s := s.withDelegations sh bs) hs, terminalStep_withDelegations]

/-- A run from a state with an idle bridge reaches the same state, but for the shadow and the samples used up, whatever
delegations its boundaries have. -/
theorem run_of_onlyDelegates (n : Nat) {s : State} (hb : s.bridge = .idle) :
    ∃ t : State, ∀ sh bs, OnlyDelegates bs →
      ∃ sh' bs', core.run n (s.withDelegations sh bs) = .next (t.withDelegations sh' bs') := by
  induction n generalizing s with
  | zero => exact ⟨s, fun sh bs _ => ⟨sh, bs, rfl⟩⟩
  | succ n ih =>
    obtain ⟨u, hub, hstep⟩ := step_of_onlyDelegates hb
    obtain ⟨t, hrun⟩ := ih hub
    refine ⟨t, fun sh bs h => ?_⟩
    obtain ⟨sh₁, bs₁, h₁, e₁⟩ := hstep sh bs h
    obtain ⟨sh₂, bs₂, e₂⟩ := hrun sh₁ bs₁ h₁
    exact ⟨sh₂, bs₂, (core_run_succ n e₁).trans e₂⟩

end Sys2Proof.Machine

open Sys2Proof Sys2Proof.Machine

/-- Settles O47: a delegation leaves the shadow behind and nothing else, and two runs of one length that differ in their
delegations reach one state but for the shadow and the samples used up. -/
theorem interruptsAreTransparent : Obligations.InterruptsAreTransparent := by
  refine ⟨fun s hb => ?_, fun n s bs hb h => ?_⟩
  · rw [delegate_eq hb]
    exact ⟨rfl, rfl, rfl, rfl⟩
  · obtain ⟨t, hrun⟩ := run_of_onlyDelegates n hb
    obtain ⟨sh₁, bs₁, e₁⟩ := hrun s.shadow bs h
    obtain ⟨sh₂, bs₂, e₂⟩ := hrun s.shadow [] nofun
    exact ⟨_, _, e₁, e₂, rfl, rfl, rfl, rfl⟩

/-- Settles O46: each clause is one exit of the boundary, a poll that finds a handler out, a wait, or a poll after the
restore. -/
theorem delegationCapturesAndRestores : Obligations.DelegationCapturesAndRestores := by
  refine ⟨fun s hs hb ha ho => ?handsOver, fun s hs hb hd => ?waits, fun s hs hb hd ho => ?resumes,
    fun s hs hb hd ho => ?handsOverAgain⟩
  case handsOver =>
    obtain ⟨u, hu, e⟩ := poll_of_handlerOut (s := s.afterSample) hb ho
    exact ⟨capture u, step_of_boundary_ends hs ((boundary_polls_of_idle hb ha).trans e),
      ⟨hu.cpu, hu.mem, hu.status, hu.result⟩, rfl, hu.cpu, rfl⟩
  case waits => exact ⟨_, step_of_boundary_ends hs (boundary_waits hb hd), ⟨rfl, rfl, rfl, rfl⟩, hb, rfl⟩
  case resumes =>
    have hu : ReachesFetch s _ := ⟨hs, (boundary_polls_of_delegDone hb hd).trans (poll_of_not_handlerOut _ ho)⟩
    have hf := hu.atFetch
    exact ⟨_, hu, hf.cpu_delegating hb, hf.mem, hf.bridge, hf.result, hf.status, by rw [delegReq, hf.bridge]; rfl⟩
  case handsOverAgain =>
    obtain ⟨u, hu, e⟩ := poll_of_handlerOut (s := restore s.afterSample) rfl ho
    exact ⟨capture u, step_of_boundary_ends hs ((boundary_polls_of_delegDone hb hd).trans e), hu.cpu, hu.mem, rfl,
      hu.cpu, hu.status.trans hs, hu.result⟩

/-- Settles O49: no operation of a meaning but the CSR unit's sees the mode. -/
theorem modeMattersOnlyToCsr : Obligations.ModeMattersOnlyToCsr := fun i s m hi =>
  ((unseen_withMode m).carried_exec s i fun h => by simp [hi] at h).exists_next

end

section
/-! PROOFS of the statements about the load event: what it sets of the CPU state, and which of the image's bytes memory
holds. -/

namespace Sys2Proof.Machine

open Config

/-! ### The image of a load event -/

/-- The image is placed byte by byte: its last byte is written over what the ones before it left. -/
theorem Memory.ofImage_concat (image : List Host.Cell) (c : Host.Cell) : Memory.ofImage (image ++ [c]) =
    if windowLo ≤ c.1 ∧ c.1 ≤ windowHi then (Memory.ofImage image).write c.1 c.2
    else Memory.ofImage image :=
  List.foldl_concat ..

/-- Bytes that the image gives for other addresses leave what is read at this one. -/
theorem Memory.read_ofImage_append {image after : List Host.Cell} {a : Nat} (h : ∀ c ∈ after, c.1 ≠ a) :
    (Memory.ofImage (image ++ after)).read a = (Memory.ofImage image).read a := by
  induction after using List.reverseRecOn with
  | nil => rw [List.append_nil]
  | append_singleton cs c ih =>
    have hc : a ≠ c.1 := (h c (by simp)).symm
    rw [← ih fun d hd => h d (by simp [hd]), ← List.append_assoc, Memory.ofImage_concat]
    split
    · exact Memory.read_write_other _ hc _
    · rfl

theorem Memory.read_ofImage_concat_self (image : List Host.Cell) {a : Nat} (v : Byte) (ha : InWindow a) :
    (Memory.ofImage (image ++ [(a, v)])).read a = v := by
  rw [Memory.ofImage_concat, if_pos (c := windowLo ≤ a ∧ a ≤ windowHi) ha,
    Memory.read_write_self a v (Memory.ofImage_wf image)]

/-- The last byte the image gives for an address of the window is the one memory holds (log 8). -/
theorem Memory.read_ofImage_of_last {before after : List Host.Cell} {a : Nat} {v : Byte} (h : ∀ c ∈ after, c.1 ≠ a)
    (ha : InWindow a) : (Memory.ofImage (before ++ (a, v) :: after)).read a = v := by
  rw [List.append_cons, Memory.read_ofImage_append h, Memory.read_ofImage_concat_self before v ha]

/-! ### The state after a load event -/

@[simp] theorem loadEvent_mem (l : Launch) (s : State) : (loadEvent l s).mem = Memory.ofImage l.image := rfl

theorem readReg_loadEvent (l : Launch) (s : State) {r : RegIdx} (h : r.val ≠ 0) :
    (loadEvent l s).readReg r = l.initX[r.val - 1]'(by omega) := dif_neg h

end Sys2Proof.Machine

open Sys2Proof Sys2Proof.Machine

/-- Settles O53: the transition is the load event itself, which writes each field from the launch; of the image, the
bytes after the last one given for an address do not touch it. -/
theorem loadEventStartsARun : Obligations.LoadEventStartsARun := by
  intro s l rest hs hl
  refine ⟨_, step_terminal_of_load hs hl, fun r => readReg_loadEvent l _, readReg_zero _, rfl, rfl, rfl, rfl, rfl, rfl,
    rfl, fun before after a v himage hlast ha => ?_⟩
  rw [loadEvent_mem, himage, Memory.read_ofImage_of_last hlast ha]

end
